-- ==== Sys2Proof/Word.lean ====
section
/-! DEFINITION. The word types of `ENC` (spec/00_scope.md R8, R9, R11). -/

namespace Sys2Proof

/-- One byte of the output buffer or of a name (R9, R58). -/
abbrev Byte := BitVec 8

/-- A 32-bit word of the command port: header, payload word, response data (R96, R98). -/
abbrev Word := BitVec 32

/-- A 3-bit register code; `ENC` only transports it (R20, R77). -/
abbrev Reg := BitVec 3

/-- A symbol or label name: an opaque byte string (R58). -/
abbrev SymName := List Byte

end Sys2Proof
end

