-- ==== Sys2Proof/Config.lean ====
section
/-! DEFINITION. The implementation parameters of `ENC` (spec/00_scope.md R7). -/

namespace Sys2Proof

/-- The parameters of R7. The widths of `AR_REG` and `LR_REG` are the constraint 0..7. -/
structure Config where
  /-- `N_INSTR_MAX`, capacity of the instruction store. -/
  nInstrMax : Nat
  /-- `N_LABEL_MAX`, capacity of the label table. -/
  nLabelMax : Nat
  /-- `N_FIXUP_MAX`, capacity of the fixup queue. -/
  nFixupMax : Nat
  /-- `NAME_MAX`, longest name in bytes. -/
  nameMax : Nat
  /-- `OUT_MAX`, capacity of the output buffer in bytes. -/
  outMax : Nat
  /-- `LIT_W`, width of the literal operand port in bits. -/
  litW : Nat
  /-- `AR_REG`: resolved by the client only, `ENC` never uses it (R21). -/
  arReg : Reg
  /-- `LR_REG`: used by the lowering of RET (R143). -/
  lrReg : Reg
  deriving DecidableEq, Repr

/-- The constraints R7 puts on the parameters. -/
abbrev Config.wf (c : Config) : Prop :=
  1 ≤ c.nInstrMax ∧ 1 ≤ c.nLabelMax ∧ 1 ≤ c.nFixupMax ∧ (1 ≤ c.nameMax ∧ c.nameMax ≤ 65535) ∧
    (1 ≤ c.outMax ∧ c.outMax ≤ 2 ^ 32 - 1) ∧ 64 ≤ c.litW

/-- The defaults of R7, the values the test vectors of spec/95_test_vectors.md use (log 3). -/
def Config.default : Config where
  nInstrMax := 1024
  nLabelMax := 256
  nFixupMax := 1024
  nameMax := 63
  outMax := 65535
  litW := 64
  arReg := 0
  lrReg := 7

end Sys2Proof
end

