-- ==== Sys2Proof/Syntax.lean ====
section
/-! DEFINITION. The instructions of `ENC`: its command port (spec/30_encoding.md R95) and the
bytecode it emits (R72, R87). One constructor of `Instr` per mnemonic of spec/opcode_table.json;
the rows of one mnemonic are the operand forms of its constructor. -/

namespace Sys2Proof

/-- The closed enumeration of 16 opcodes (R72); the codes are `Opcode.code` in Decode.lean. -/
inductive Opcode where
  | jmp | add | sub | mul | div | cmp | tst | and | or | xor | not | lsl | lsr | mov | call | ret
  deriving DecidableEq, Repr

/-- The 16 condition codes (R75), the negated half first. -/
inductive Cond where
  | nv | nz | nc | pl | vc | ls | lt | le | al | zr | cs | mi | vs | hi | ge | gt
  deriving DecidableEq, Repr

/-- The operand sizes (R76). -/
inductive Size where
  | byte | hword | word | dword
  deriving DecidableEq, Repr

/-- The operand type tag (R74). -/
inductive Kind where
  | register | indirect | symbol | literal
  deriving DecidableEq, Repr

/-- An op1: "restricted to register or register-indirect operands only" (R24, R120). -/
inductive RegOperand where
  | register (r : Reg)
  | indirect (r : Reg)
  deriving DecidableEq, Repr

/-- An operand of any of the four kinds (R95). -/
inductive Operand where
  | register (r : Reg)
  | indirect (r : Reg)
  | symbol (name : SymName)
  | literal (value : Nat)
  deriving DecidableEq, Repr

/-- One item on the wire of the command port (R96): a 32-bit header or payload word, or one byte
of a name. -/
inductive Beat where
  | word (w : Word)
  | byte (b : Byte)
  deriving DecidableEq, Repr

/-- The instructions. The first seventeen are the bytecode rows: a field that is `none` is one the
client did not set (R24, R78, R88). The last sixteen are the commands of R95. -/
inductive Instr where
  /-- R171. -/
  | jmp (cond : Option Cond) (op2 : Option Operand)
  /-- R172. -/
  | call (op2 : Option Operand)
  /-- R173, pseudo-opcode. -/
  | ret
  /-- R174, pseudo-instruction. -/
  | nop
  /-- R181. -/
  | not (size : Option Size) (op1 : Option RegOperand)
  /-- R187. -/
  | add (size : Option Size) (op1 : Option RegOperand) (op2 : Option Operand)
  /-- R188. -/
  | sub (size : Option Size) (op1 : Option RegOperand) (op2 : Option Operand)
  /-- R189. -/
  | mul (size : Option Size) (op1 : Option RegOperand) (op2 : Option Operand)
  /-- R190. -/
  | div (size : Option Size) (op1 : Option RegOperand) (op2 : Option Operand)
  /-- R191. -/
  | cmp (size : Option Size) (op1 : Option RegOperand) (op2 : Option Operand)
  /-- R192. -/
  | tst (size : Option Size) (op1 : Option RegOperand) (op2 : Option Operand)
  /-- R193. -/
  | and (size : Option Size) (op1 : Option RegOperand) (op2 : Option Operand)
  /-- R194. -/
  | or (size : Option Size) (op1 : Option RegOperand) (op2 : Option Operand)
  /-- R195. -/
  | xor (size : Option Size) (op1 : Option RegOperand) (op2 : Option Operand)
  /-- R196. -/
  | lsl (size : Option Size) (op1 : Option RegOperand) (op2 : Option Operand)
  /-- R197. -/
  | lsr (size : Option Size) (op1 : Option RegOperand) (op2 : Option Operand)
  /-- R198. -/
  | mov (size : Option Size) (op1 : Option RegOperand) (op2 : Option Operand)
  /-- R110. -/
  | reset
  /-- R113. -/
  | addLabel (name : SymName)
  /-- R115. -/
  | addInstr (opc : Opcode)
  /-- R117. -/
  | setCond (cond : Cond)
  /-- R118. -/
  | setSize (size : Size)
  /-- R119. -/
  | setOp1 (operand : Operand)
  /-- R121. -/
  | setOp2 (operand : Operand)
  /-- R123. -/
  | addNop
  /-- R140. -/
  | assemble
  /-- R161. -/
  | readOut (addr : Word)
  /-- R126. -/
  | readReg (sel : BitVec 4)
  /-- R124. -/
  | addRet
  /-- R204, command code 0xC. -/
  | reservedC
  /-- R204, command code 0xD. -/
  | reservedD
  /-- R204, command code 0xE. -/
  | reservedE
  /-- R204, command code 0xF. -/
  | reservedF
  deriving DecidableEq, Repr

end Sys2Proof
end

