-- ==== Sys2Proof/WellFormed.lean ====
section
/-! DEFINITION. Which terms of `Instr` the command port can carry and the builder can make
(spec/30_encoding.md R95, R96; spec/40_builder_commands.md R112, R121). -/

namespace Sys2Proof

/-- An operand the port can carry: a name whose length fits the 16-bit `name_len`, a literal below
`2^LIT_W` (R95, R96). -/
def Operand.onPort (c : Config) : Operand → Bool
  | .register _ | .indirect _ => true
  | .symbol n => decide (n.length < 65536)
  | .literal v => decide (v < 2 ^ c.litW)

/-- An operand a record can hold: a name of at most `NAME_MAX` bytes, a literal of `LIT_W` bits
(R24, R121). -/
def Operand.inRecord (c : Config) : Operand → Bool
  | .register _ | .indirect _ => true
  | .symbol n => decide (n.length ≤ c.nameMax)
  | .literal v => decide (v < 2 ^ c.litW)

/-- CALL admits no literal (R112, R122). -/
def Operand.forCall : Operand → Bool
  | .literal _ => false
  | .register _ | .indirect _ | .symbol _ => true

/-- An optional op2 passes a check when it is absent or its operand does. -/
def optAll {α : Type} (p : α → Bool) : Option α → Bool
  | none => true
  | some a => p a

/-- A well-formed instruction. -/
def Instr.wf (c : Config) : Instr → Bool
  | .jmp _ o2 => optAll (Operand.inRecord c) o2
  | .call o2 => optAll (Operand.inRecord c) o2 && optAll Operand.forCall o2
  | .ret | .nop | .not _ _ => true
  | .add _ _ o2 | .sub _ _ o2 | .mul _ _ o2 | .div _ _ o2 | .cmp _ _ o2 | .tst _ _ o2
  | .and _ _ o2 | .or _ _ o2 | .xor _ _ o2 | .lsl _ _ o2 | .lsr _ _ o2 | .mov _ _ o2 =>
    optAll (Operand.inRecord c) o2
  | .addLabel n => decide (n.length < 65536)
  | .setOp1 o | .setOp2 o => o.onPort c
  | .reset | .addInstr _ | .setCond _ | .setSize _ | .addNop | .assemble | .readOut _
  | .readReg _ | .addRet | .reservedC | .reservedD | .reservedE | .reservedF => true

/-- The commands of the port (R95), as against the bytecode rows. -/
def Instr.isCommand : Instr → Bool
  | .reset | .addLabel _ | .addInstr _ | .setCond _ | .setSize _ | .setOp1 _ | .setOp2 _ | .addNop
  | .assemble | .readOut _ | .readReg _ | .addRet | .reservedC | .reservedD | .reservedE
  | .reservedF => true
  | .jmp _ _ | .call _ | .ret | .nop | .not _ _ | .add _ _ _ | .sub _ _ _ | .mul _ _ _
  | .div _ _ _ | .cmp _ _ _ | .tst _ _ _ | .and _ _ _ | .or _ _ _ | .xor _ _ _ | .lsl _ _ _
  | .lsr _ _ _ | .mov _ _ _ => false

end Sys2Proof
end

