-- ==== Sys2Proof/Decode.lean ====
section
/-! DEFINITION. The numeric codes (spec/30_encoding.md R72 to R77), the decoders and the encoders of
the command port (R95 to R100) and of the bytecode (R70 to R93). -/

namespace Sys2Proof

/-! ## Byte order (R56) -/

/-- Byte `k` of a value, byte 0 least significant (R53, R85). -/
def byteOf (v k : Nat) : Byte := BitVec.ofNat 8 (v >>> (8 * k))

/-- The `n` low bytes of a value, least significant first (R56). -/
def leBytes (n v : Nat) : List Byte := (List.range n).map (byteOf v)

/-- The value of a little-endian byte string (R56). -/
def leValue : List Byte → Nat
  | [] => 0
  | b :: bs => b.toNat + 2 ^ 8 * leValue bs

/-- The value of a literal payload, least significant word first (R96). -/
def wordsValue : List Word → Nat
  | [] => 0
  | w :: ws => w.toNat + 2 ^ 32 * wordsValue ws

/-- The `n` low words of a value, least significant first (R96). -/
def leWords : Nat → Nat → List Word
  | 0, _ => []
  | n + 1, v => BitVec.ofNat 32 v :: leWords n (v / 2 ^ 32)

/-- How many payload words carry a literal: `ceil(LIT_W / 32)` (R96). -/
def litWords (c : Config) : Nat := (c.litW + 31) / 32

/-! ## Field codes -/

/-- R72. -/
def Opcode.code : Opcode → BitVec 4
  | .jmp => 0x0 | .add => 0x1 | .sub => 0x2 | .mul => 0x3 | .div => 0x4 | .cmp => 0x5
  | .tst => 0x6 | .and => 0x7 | .or => 0x8 | .xor => 0x9 | .not => 0xA | .lsl => 0xB
  | .lsr => 0xC | .mov => 0xD | .call => 0xE | .ret => 0xF

/-- R72, read back: the enumeration is closed. -/
def Opcode.ofCode (c : BitVec 4) : Opcode :=
  match c.toNat with
  | 0 => .jmp | 1 => .add | 2 => .sub | 3 => .mul | 4 => .div | 5 => .cmp
  | 6 => .tst | 7 => .and | 8 => .or | 9 => .xor | 10 => .not | 11 => .lsl
  | 12 => .lsr | 13 => .mov | 14 => .call | _ => .ret

/-- R75. -/
def Cond.code : Cond → BitVec 4
  | .nv => 0b0000 | .nz => 0b0001 | .nc => 0b0010 | .pl => 0b0011
  | .vc => 0b0100 | .ls => 0b0101 | .lt => 0b0110 | .le => 0b0111
  | .al => 0b1000 | .zr => 0b1001 | .cs => 0b1010 | .mi => 0b1011
  | .vs => 0b1100 | .hi => 0b1101 | .ge => 0b1110 | .gt => 0b1111

/-- R75, read back: all 16 values are legal. -/
def Cond.ofCode (c : BitVec 4) : Cond :=
  match c.toNat with
  | 0 => .nv | 1 => .nz | 2 => .nc | 3 => .pl | 4 => .vc | 5 => .ls | 6 => .lt | 7 => .le
  | 8 => .al | 9 => .zr | 10 => .cs | 11 => .mi | 12 => .vs | 13 => .hi | 14 => .ge | _ => .gt

/-- R76. -/
def Size.code : Size → BitVec 2
  | .byte => 0b00 | .hword => 0b01 | .word => 0b10 | .dword => 0b11

/-- R76, read back. -/
def Size.ofCode (c : BitVec 2) : Size :=
  match c.toNat with
  | 0 => .byte | 1 => .hword | 2 => .word | _ => .dword

/-- How many bytes a literal of this size occupies, `2^size` (R76). -/
def Size.bytes (s : Size) : Nat := 2 ^ s.code.toNat

/-- R74, used for the instruction byte and for the port's `kind` field (R100). -/
def Kind.code : Kind → BitVec 2
  | .register => 0b00 | .indirect => 0b01 | .symbol => 0b10 | .literal => 0b11

/-- R74, read back. -/
def Kind.ofCode (c : BitVec 2) : Kind :=
  match c.toNat with
  | 0 => .register | 1 => .indirect | 2 => .symbol | _ => .literal

/-- The type tag of an operand (R74). -/
def Operand.kind : Operand → Kind
  | .register _ => .register
  | .indirect _ => .indirect
  | .symbol _ => .symbol
  | .literal _ => .literal

/-- The op1-kind bit (R73). -/
def RegOperand.kindBit : RegOperand → BitVec 1
  | .register _ => 0
  | .indirect _ => 1

/-- The register code of an op1 (R81). -/
def RegOperand.reg : RegOperand → Reg
  | .register r => r
  | .indirect r => r

/-- An op1 from its kind bit and register code (R73, R81). -/
def RegOperand.ofBits (a : BitVec 1) (r : Reg) : RegOperand :=
  if a = 0 then .register r else .indirect r

/-- The default of an unset condition, AL (R147). -/
def condOrAl (c : Option Cond) : Cond := c.getD .al

/-- The default of an unset size, WORD (R76, R148). -/
def sizeOrWord (s : Option Size) : Size := s.getD .word

/-! ## Which bytes determine their instruction -/

/-- A literal that a payload of `n` bytes holds without truncation (R85). -/
def Operand.fits (n : Nat) : Operand → Bool
  | .register _ | .indirect _ | .symbol _ => true
  | .literal v => decide (v < 2 ^ (8 * n))

/-- The binary forms whose bytes determine them (U5 of spec/93_implementation_defined.md): size and
both operands given, the literal not truncated. -/
def binaryDecodable : Option Size → Option RegOperand → Option Operand → Bool
  | some s, some _, some o => o.fits s.bytes
  | _, _, _ => false

/-- The JMP forms whose bytes determine them: condition and target given, the literal not truncated,
and not condition NV with a literal, which is read as NOP (U4, log 7). -/
def jmpDecodable : Option Cond → Option Operand → Bool
  | some c, some (.literal v) => decide (c ≠ .nv) && (Operand.literal v).fits 4
  | some _, some _ => true
  | _, _ => false

/-- The CALL forms whose bytes determine them: a target of a kind CALL admits (R172). -/
def callDecodable : Option Operand → Bool
  | some o => o.forCall
  | none => false

/-- The NOT forms whose bytes determine them: size and op1 given. -/
def notDecodable : Option Size → Option RegOperand → Bool
  | some _, some _ => true
  | _, _ => false

/-- The bytecode instructions whose bytes determine them, the named premise U5 asks for. RET has the
bytes of a JMP (R173) and is not among them. -/
def Instr.decodable : Instr → Bool
  | .jmp c o => jmpDecodable c o
  | .call o => callDecodable o
  | .ret => false
  | .nop => true
  | .not s o => notDecodable s o
  | .add s o1 o2 | .sub s o1 o2 | .mul s o1 o2 | .div s o1 o2 | .cmp s o1 o2 | .tst s o1 o2
  | .and s o1 o2 | .or s o1 o2 | .xor s o1 o2 | .lsl s o1 o2 | .lsr s o1 o2 | .mov s o1 o2 =>
    binaryDecodable s o1 o2
  | .reset | .addLabel _ | .addInstr _ | .setCond _ | .setSize _ | .setOp1 _ | .setOp2 _ | .addNop
  | .assemble | .readOut _ | .readReg _ | .addRet | .reservedC | .reservedD | .reservedE
  | .reservedF => false

/-! ## Decoding -/

/-- Why a decoder gives no instruction. -/
inductive DecodeError where
  /-- The payload has not arrived whole (R96). -/
  | incomplete
  /-- The port shows a byte where a word is due, or the reverse (log 9). -/
  | framing
  /-- An instruction byte with bit 0 = 1 (R89 (1)). -/
  | reservedBit0
  /-- An instruction byte with opcode 0xF (R89 (2)). -/
  | reservedOpcode
  /-- JMP or CALL with op1-kind 1 (R89 (3)). -/
  | reservedOp1Kind
  /-- CALL with op2-kind LITERAL, or NOT with op2-kind other than 0 (R89 (4), (5)). -/
  | reservedOp2Kind
  /-- Non-zero bits in a padding position (R89 (6)). -/
  | reservedPadding
  /-- A JMP with condition NV and a literal whose first byte is not 0: no NOP (R93). -/
  | reservedNop
  /-- A SYMBOL operand, and nobody said how long its bytes are (U3). -/
  | symbolExtent
  deriving DecidableEq, Repr

/-- Take `n` name bytes from the port. -/
def takeBytes : Nat → List Beat → Except DecodeError (SymName × List Beat)
  | 0, bs => .ok ([], bs)
  | _ + 1, [] => .error .incomplete
  | _ + 1, .word _ :: _ => .error .framing
  | n + 1, .byte b :: bs =>
    match takeBytes n bs with
    | .ok (name, rest) => .ok (b :: name, rest)
    | .error e => .error e

/-- Take `n` payload words from the port. -/
def takeWords : Nat → List Beat → Except DecodeError (List Word × List Beat)
  | 0, bs => .ok ([], bs)
  | _ + 1, [] => .error .incomplete
  | _ + 1, .byte _ :: _ => .error .framing
  | n + 1, .word w :: bs =>
    match takeWords n bs with
    | .ok (ws, rest) => .ok (w :: ws, rest)
    | .error e => .error e

/-- The `cmd` field (R96). -/
def headerCmd (h : Word) : BitVec 4 := h.extractLsb' 28 4

/-- The `name_len` field (R96). -/
def headerNameLen (h : Word) : Nat := (h.extractLsb' 8 16).toNat

/-- The `kind` field (R96, R100). -/
def headerKind (h : Word) : Kind := Kind.ofCode (h.extractLsb' 4 2)

/-- The `arg` field (R96). -/
def headerArg (h : Word) : BitVec 4 := h.extractLsb' 0 4

/-- The `reg` field, `arg[2:0]` (R96). -/
def headerReg (h : Word) : Reg := h.extractLsb' 0 3

/-- The `size` field, `arg[1:0]` (R96). -/
def headerSize (h : Word) : Size := Size.ofCode (h.extractLsb' 0 2)

/-- The operand of SET_OP1 and SET_OP2 (R96, R100). A literal is `LIT_W` bits of its payload words. -/
def decodeOperand (c : Config) (h : Word) (bs : List Beat) :
    Except DecodeError (Operand × List Beat) :=
  match headerKind h with
  | .register => .ok (.register (headerReg h), bs)
  | .indirect => .ok (.indirect (headerReg h), bs)
  | .symbol =>
    match takeBytes (headerNameLen h) bs with
    | .ok (name, rest) => .ok (.symbol name, rest)
    | .error e => .error e
  | .literal =>
    match takeWords (litWords c) bs with
    | .ok (ws, rest) => .ok (.literal (wordsValue ws % 2 ^ c.litW), rest)
    | .error e => .error e

/-- The command a header starts, and what is left of the port after its payload (R96, R97). -/
def decodeHeader (c : Config) (h : Word) (bs : List Beat) : Except DecodeError (Instr × List Beat) :=
  match (headerCmd h).toNat with
  | 0 => .ok (.reset, bs)
  | 1 =>
    match takeBytes (headerNameLen h) bs with
    | .ok (name, rest) => .ok (.addLabel name, rest)
    | .error e => .error e
  | 2 => .ok (.addInstr (Opcode.ofCode (headerArg h)), bs)
  | 3 => .ok (.setCond (Cond.ofCode (headerArg h)), bs)
  | 4 => .ok (.setSize (headerSize h), bs)
  | 5 =>
    match decodeOperand c h bs with
    | .ok (o, rest) => .ok (.setOp1 o, rest)
    | .error e => .error e
  | 6 =>
    match decodeOperand c h bs with
    | .ok (o, rest) => .ok (.setOp2 o, rest)
    | .error e => .error e
  | 7 => .ok (.addNop, bs)
  | 8 => .ok (.assemble, bs)
  | 9 =>
    match takeWords 1 bs with
    | .ok (ws, rest) => .ok (.readOut (BitVec.ofNat 32 (wordsValue ws)), rest)
    | .error e => .error e
  | 10 => .ok (.readReg (headerArg h), bs)
  | 11 => .ok (.addRet, bs)
  | 12 => .ok (.reservedC, bs)
  | 13 => .ok (.reservedD, bs)
  | 14 => .ok (.reservedE, bs)
  | _ => .ok (.reservedF, bs)

/-- The next command on the port (R95 to R97). -/
def decodeCommand (c : Config) : List Beat → Except DecodeError (Instr × List Beat)
  | [] => .error .incomplete
  | .byte _ :: _ => .error .framing
  | .word h :: bs => decodeHeader c h bs

/-- What a reader of the bytecode must be told about a SYMBOL operand from outside the stream (R91,
U3): that it is a local label, whose 4 bytes stand for the given name, or an external symbol, whose
name has the given number of bytes. -/
inductive SymInfo where
  | localLabel (name : SymName)
  | externalName (len : Nat)
  deriving DecidableEq, Repr

/-- The first `n` bytes and the rest, when there are as many. -/
def splitBytes (n : Nat) (bs : List Byte) : Except DecodeError (List Byte × List Byte) :=
  if bs.length < n then .error .incomplete else .ok (bs.take n, bs.drop n)

/-- A symbol payload (R83, R84). -/
def decodeSymbol (sym : Option SymInfo) (bs : List Byte) :
    Except DecodeError (Operand × List Byte) :=
  match sym with
  | none => .error .symbolExtent
  | some (.localLabel name) =>
    match splitBytes 4 bs with
    | .ok (_, rest) => .ok (.symbol name, rest)
    | .error e => .error e
  | some (.externalName n) =>
    match splitBytes n bs with
    | .ok (name, rest) => .ok (.symbol name, rest)
    | .error e => .error e

/-- A literal payload of `n` bytes (R85). -/
def decodeLiteral (n : Nat) (bs : List Byte) : Except DecodeError (Operand × List Byte) :=
  match splitBytes n bs with
  | .ok (p, rest) => .ok (.literal (leValue p), rest)
  | .error e => .error e

/-- The bytes after JMP's instruction byte: `cccc rrr 0` or `cccc 0000` and a payload (R87). Format
JL with condition NV is read as NOP, with its 1-byte literal 0 (R91, U4). -/
def decodeJmp (sym : Option SymInfo) (k : Kind) : List Byte → Except DecodeError (Instr × List Byte)
  | [] => .error .incomplete
  | t :: bs =>
    let c := Cond.ofCode (t.extractLsb' 4 4)
    match k with
    | .register =>
      if t.extractLsb' 0 1 ≠ 0 then .error .reservedPadding
      else .ok (.jmp (some c) (some (.register (t.extractLsb' 1 3))), bs)
    | .indirect =>
      if t.extractLsb' 0 1 ≠ 0 then .error .reservedPadding
      else .ok (.jmp (some c) (some (.indirect (t.extractLsb' 1 3))), bs)
    | .symbol =>
      if t.extractLsb' 0 4 ≠ 0 then .error .reservedPadding
      else
        match decodeSymbol sym bs with
        | .ok (o, rest) => .ok (.jmp (some c) (some o), rest)
        | .error e => .error e
    | .literal =>
      if t.extractLsb' 0 4 ≠ 0 then .error .reservedPadding
      else if c = .nv then
        match bs with
        | [] => .error .incomplete
        | b :: rest => if b = 0 then .ok (.nop, rest) else .error .reservedNop
      else
        match decodeLiteral 4 bs with
        | .ok (o, rest) => .ok (.jmp (some c) (some o), rest)
        | .error e => .error e

/-- The bytes after CALL's instruction byte: `rrr 00000` or a payload (R87), op2 taken as present. -/
def decodeCall (sym : Option SymInfo) (k : Kind) (bs : List Byte) :
    Except DecodeError (Instr × List Byte) :=
  match k with
  | .register =>
    match bs with
    | [] => .error .incomplete
    | t :: rest =>
      if t.extractLsb' 0 5 ≠ 0 then .error .reservedPadding
      else .ok (.call (some (.register (t.extractLsb' 5 3))), rest)
  | .indirect =>
    match bs with
    | [] => .error .incomplete
    | t :: rest =>
      if t.extractLsb' 0 5 ≠ 0 then .error .reservedPadding
      else .ok (.call (some (.indirect (t.extractLsb' 5 3))), rest)
  | .symbol =>
    match decodeSymbol sym bs with
    | .ok (o, rest) => .ok (.call (some o), rest)
    | .error e => .error e
  | .literal => .error .reservedOp2Kind

/-- The byte after NOT's instruction byte: `ss ddd 000` (R87), op1 taken as present. -/
def decodeNot (a : BitVec 1) (k : Kind) : List Byte → Except DecodeError (Instr × List Byte)
  | [] => if k = .register then .error .incomplete else .error .reservedOp2Kind
  | t :: bs =>
    if k ≠ .register then .error .reservedOp2Kind
    else if t.extractLsb' 0 3 ≠ 0 then .error .reservedPadding
    else .ok (.not (some (Size.ofCode (t.extractLsb' 6 2)))
      (some (RegOperand.ofBits a (t.extractLsb' 3 3))), bs)

/-- The bytes after a binary opcode's instruction byte: `ss ddd rrr` or `ss ddd 000` and a payload
(R87), both operands taken as present. -/
def decodeBinary (mk : Option Size → Option RegOperand → Option Operand → Instr)
    (sym : Option SymInfo) (a : BitVec 1) (k : Kind) :
    List Byte → Except DecodeError (Instr × List Byte)
  | [] => .error .incomplete
  | t :: bs =>
    let s := Size.ofCode (t.extractLsb' 6 2)
    let o1 := RegOperand.ofBits a (t.extractLsb' 3 3)
    match k with
    | .register => .ok (mk (some s) (some o1) (some (.register (t.extractLsb' 0 3))), bs)
    | .indirect => .ok (mk (some s) (some o1) (some (.indirect (t.extractLsb' 0 3))), bs)
    | .symbol =>
      if t.extractLsb' 0 3 ≠ 0 then .error .reservedPadding
      else
        match decodeSymbol sym bs with
        | .ok (o, rest) => .ok (mk (some s) (some o1) (some o), rest)
        | .error e => .error e
    | .literal =>
      if t.extractLsb' 0 3 ≠ 0 then .error .reservedPadding
      else
        match decodeLiteral s.bytes bs with
        | .ok (o, rest) => .ok (mk (some s) (some o1) (some o), rest)
        | .error e => .error e

/-- The instruction at the head of a byte stream and the bytes after it. `ENC` itself decodes nothing
(R89); this reader follows U3, U4, U5 and U10 of spec/93_implementation_defined.md (log 7). -/
def decodeBytecode (sym : Option SymInfo) : List Byte → Except DecodeError (Instr × List Byte)
  | [] => .error .incomplete
  | b0 :: bs =>
    let a := b0.extractLsb' 3 1
    let k := Kind.ofCode (b0.extractLsb' 1 2)
    if b0.extractLsb' 0 1 ≠ 0 then .error .reservedBit0
    else
      match Opcode.ofCode (b0.extractLsb' 4 4) with
      | .jmp => if a ≠ 0 then .error .reservedOp1Kind else decodeJmp sym k bs
      | .call => if a ≠ 0 then .error .reservedOp1Kind else decodeCall sym k bs
      | .ret => .error .reservedOpcode
      | .not => decodeNot a k bs
      | .add => decodeBinary .add sym a k bs
      | .sub => decodeBinary .sub sym a k bs
      | .mul => decodeBinary .mul sym a k bs
      | .div => decodeBinary .div sym a k bs
      | .cmp => decodeBinary .cmp sym a k bs
      | .tst => decodeBinary .tst sym a k bs
      | .and => decodeBinary .and sym a k bs
      | .or => decodeBinary .or sym a k bs
      | .xor => decodeBinary .xor sym a k bs
      | .lsl => decodeBinary .lsl sym a k bs
      | .lsr => decodeBinary .lsr sym a k bs
      | .mov => decodeBinary .mov sym a k bs

/-! ## One word of the opcode table -/

/-- The payload of a header, all zeros: what follows it when every bit after the header is 0. -/
def zeroPayload (c : Config) (h : Word) : List Beat :=
  match (headerCmd h).toNat with
  | 1 => List.replicate (headerNameLen h) (.byte 0)
  | 5 | 6 =>
    match headerKind h with
    | .register | .indirect => []
    | .symbol => List.replicate (headerNameLen h) (.byte 0)
    | .literal => List.replicate (litWords c) (.word 0)
  | 9 => [.word 0]
  | _ => []

/-- A header word of the table as the port carries it, its payload zero. -/
def tableBeats (c : Config) (w : Nat) : List Beat :=
  .word (BitVec.ofNat 32 w) :: zeroPayload c (BitVec.ofNat 32 w)

/-- An instruction byte of the table as it stands in the stream, every later byte zero, up to the
10 bytes of the longest form with a literal (R70). -/
def tableBytes (w : Nat) : List Byte := BitVec.ofNat 8 w :: List.replicate 9 0

/-- The instruction of one word of spec/opcode_table.json: the command rows are 32 bits wide, the
bytecode rows 8. A symbol of the table's rows is taken as an external name with no bytes (log 7). -/
def decodeTableWord (nbits w : Nat) : Option Instr :=
  if nbits = 32 then
    match decodeCommand Config.default (tableBeats Config.default w) with
    | .ok (i, _) => some i
    | .error _ => none
  else if nbits = 8 then
    match decodeBytecode (some (.externalName 0)) (tableBytes w) with
    | .ok (i, _) => some i
    | .error _ => none
  else none

/-! ## Encoding -/

/-- A header word from its fields; the bits a command does not use are 0 (R96, log 14). -/
def mkHeader (cmd : BitVec 4) (nameLen : BitVec 16) (kind : BitVec 2) (arg : BitVec 4) : Word :=
  cmd ++ (0 : BitVec 4) ++ nameLen ++ (0 : BitVec 2) ++ kind ++ arg

/-- A header with no payload and only an `arg` (R96). -/
def argHeader (cmd arg : BitVec 4) : List Beat := [.word (mkHeader cmd 0 0 arg)]

/-- A SET_OP1 or SET_OP2 command (R96, R100). -/
def encodeOperand (c : Config) (cmd : BitVec 4) (o : Operand) : List Beat :=
  match o with
  | .register r => [.word (mkHeader cmd 0 o.kind.code (r.setWidth 4))]
  | .indirect r => [.word (mkHeader cmd 0 o.kind.code (r.setWidth 4))]
  | .symbol n => .word (mkHeader cmd (BitVec.ofNat 16 n.length) o.kind.code 0) :: n.map .byte
  | .literal v => .word (mkHeader cmd 0 o.kind.code 0) :: (leWords (litWords c) v).map .word

/-- The port items of a command (R96, R97); none for a bytecode instruction. -/
def encodeCommand (c : Config) : Instr → Option (List Beat)
  | .reset => some (argHeader 0x0 0)
  | .addLabel n => some (.word (mkHeader 0x1 (BitVec.ofNat 16 n.length) 0 0) :: n.map .byte)
  | .addInstr opc => some (argHeader 0x2 opc.code)
  | .setCond cond => some (argHeader 0x3 cond.code)
  | .setSize size => some (argHeader 0x4 (size.code.setWidth 4))
  | .setOp1 o => some (encodeOperand c 0x5 o)
  | .setOp2 o => some (encodeOperand c 0x6 o)
  | .addNop => some (argHeader 0x7 0)
  | .assemble => some (argHeader 0x8 0)
  | .readOut a => some [.word (mkHeader 0x9 0 0 0), .word a]
  | .readReg sel => some (argHeader 0xA sel)
  | .addRet => some (argHeader 0xB 0)
  | .reservedC => some (argHeader 0xC 0)
  | .reservedD => some (argHeader 0xD 0)
  | .reservedE => some (argHeader 0xE 0)
  | .reservedF => some (argHeader 0xF 0)
  | .jmp _ _ | .call _ | .ret | .nop | .not _ _ | .add _ _ _ | .sub _ _ _ | .mul _ _ _
  | .div _ _ _ | .cmp _ _ _ | .tst _ _ _ | .and _ _ _ | .or _ _ _ | .xor _ _ _ | .lsl _ _ _
  | .lsr _ _ _ | .mov _ _ _ => none

/-- The op1-kind bit of an instruction byte, 0 when op1 is absent (R73). -/
def op1KindBit (o1 : Option RegOperand) : BitVec 1 :=
  match o1 with
  | none => 0
  | some o => o.kindBit

/-- The op2-kind bits of an instruction byte, 0 when op2 is absent (R74). -/
def op2KindBits (o2 : Option Operand) : BitVec 2 :=
  match o2 with
  | none => 0
  | some o => o.kind.code

/-- `oooo a kk 0` (R71). -/
def formatByte0 (opc : Opcode) (a : BitVec 1) (kk : BitVec 2) : Byte :=
  opc.code ++ a ++ kk ++ (0 : BitVec 1)

/-- The payload of a symbol: the 4-byte offset of a local label, else the name's bytes (R83, R84). -/
def symbolPayload (resolve : SymName → Option Nat) (n : SymName) : List Byte :=
  match resolve n with
  | some off => leBytes 4 off
  | none => n

/-- The tail of JMP: formats J0, JR, JS, JL (R87); `n` is the literal's width. -/
def jmpTail (resolve : SymName → Option Nat) (n : Nat) (c : BitVec 4) : Option Operand → List Byte
  | none => [c ++ (0 : BitVec 4)]
  | some (.register r) => [c ++ r ++ (0 : BitVec 1)]
  | some (.indirect r) => [c ++ r ++ (0 : BitVec 1)]
  | some (.symbol s) => (c ++ (0 : BitVec 4)) :: symbolPayload resolve s
  | some (.literal v) => (c ++ (0 : BitVec 4)) :: leBytes n v

/-- The tail of CALL: formats C0, CR, CS (R87); a literal, which no CALL record holds (R112), would be
the WORD payload of R85. -/
def callTail (resolve : SymName → Option Nat) : Option Operand → List Byte
  | none => []
  | some (.register r) => [r ++ (0 : BitVec 5)]
  | some (.indirect r) => [r ++ (0 : BitVec 5)]
  | some (.symbol s) => symbolPayload resolve s
  | some (.literal v) => leBytes 4 v

/-- The register code of an op1, 0 when absent (R87). -/
def op1Bits : Option RegOperand → Reg
  | none => 0
  | some o => o.reg

/-- The tail byte of a binary opcode with a register-valued op2: it follows op1's field, or stands in
its place when op1 is absent (R87 formats B1R and B0R). -/
def binaryRegTail (s : BitVec 2) (o1 : Option RegOperand) (r : Reg) : Byte :=
  match o1 with
  | none => s ++ r ++ (0 : BitVec 3)
  | some o => s ++ o.reg ++ r

/-- The tail of a binary opcode: formats B00 to B1L (R87). -/
def binaryTail (resolve : SymName → Option Nat) (s : Size) (o1 : Option RegOperand) :
    Option Operand → List Byte
  | none => [s.code ++ op1Bits o1 ++ (0 : BitVec 3)]
  | some (.register r) => [binaryRegTail s.code o1 r]
  | some (.indirect r) => [binaryRegTail s.code o1 r]
  | some (.symbol n) => (s.code ++ op1Bits o1 ++ (0 : BitVec 3)) :: symbolPayload resolve n
  | some (.literal v) => (s.code ++ op1Bits o1 ++ (0 : BitVec 3)) :: leBytes s.bytes v

/-- The bytes of JMP (R171). -/
def encodeJmp (resolve : SymName → Option Nat) (cond : Option Cond) (o2 : Option Operand) :
    List Byte :=
  formatByte0 .jmp 0 (op2KindBits o2) :: jmpTail resolve 4 (condOrAl cond).code o2

/-- The bytes of CALL (R172). -/
def encodeCall (resolve : SymName → Option Nat) (o2 : Option Operand) : List Byte :=
  formatByte0 .call 0 (op2KindBits o2) :: callTail resolve o2

/-- The bytes of NOT (R181). -/
def encodeNot (size : Option Size) (o1 : Option RegOperand) : List Byte :=
  [formatByte0 .not (op1KindBit o1) 0, (sizeOrWord size).code ++ op1Bits o1 ++ (0 : BitVec 3)]

/-- The bytes of a binary opcode (R186, R87). -/
def encodeBinary (resolve : SymName → Option Nat) (opc : Opcode) (size : Option Size)
    (o1 : Option RegOperand) (o2 : Option Operand) : List Byte :=
  formatByte0 opc (op1KindBit o1) (op2KindBits o2) :: binaryTail resolve (sizeOrWord size) o1 o2

/-- The bytes of a bytecode instruction, from the format table R87; none for a command. `resolve`
gives the byte offset of a local label and nothing for an external symbol (R83, R84). -/
def encodeBytecode (c : Config) (resolve : SymName → Option Nat) : Instr → Option (List Byte)
  | .jmp cond o2 => some (encodeJmp resolve cond o2)
  | .call o2 => some (encodeCall resolve o2)
  | .ret => some (encodeJmp resolve none (some (.register c.lrReg)))
  | .nop => some [0x06, 0x00, 0x00]
  | .not s o1 => some (encodeNot s o1)
  | .add s o1 o2 => some (encodeBinary resolve .add s o1 o2)
  | .sub s o1 o2 => some (encodeBinary resolve .sub s o1 o2)
  | .mul s o1 o2 => some (encodeBinary resolve .mul s o1 o2)
  | .div s o1 o2 => some (encodeBinary resolve .div s o1 o2)
  | .cmp s o1 o2 => some (encodeBinary resolve .cmp s o1 o2)
  | .tst s o1 o2 => some (encodeBinary resolve .tst s o1 o2)
  | .and s o1 o2 => some (encodeBinary resolve .and s o1 o2)
  | .or s o1 o2 => some (encodeBinary resolve .or s o1 o2)
  | .xor s o1 o2 => some (encodeBinary resolve .xor s o1 o2)
  | .lsl s o1 o2 => some (encodeBinary resolve .lsl s o1 o2)
  | .lsr s o1 o2 => some (encodeBinary resolve .lsr s o1 o2)
  | .mov s o1 o2 => some (encodeBinary resolve .mov s o1 o2)
  | .reset | .addLabel _ | .addInstr _ | .setCond _ | .setSize _ | .setOp1 _ | .setOp2 _ | .addNop
  | .assemble | .readOut _ | .readReg _ | .addRet | .reservedC | .reservedD | .reservedE
  | .reservedF => none

/-- The name in an operand, if it is a symbol. -/
def opSymbol : Option Operand → Option SymName
  | some (.symbol n) => some n
  | some (.register _) | some (.indirect _) | some (.literal _) | none => none

/-- The symbol of a bytecode instruction's op2, if it has one. -/
def Instr.symbol? : Instr → Option SymName
  | .jmp _ o2 | .call o2 | .add _ _ o2 | .sub _ _ o2 | .mul _ _ o2 | .div _ _ o2 | .cmp _ _ o2
  | .tst _ _ o2 | .and _ _ o2 | .or _ _ o2 | .xor _ _ o2 | .lsl _ _ o2 | .lsr _ _ o2
  | .mov _ _ o2 => opSymbol o2
  | .ret | .nop | .not _ _ | .reset | .addLabel _ | .addInstr _ | .setCond _ | .setSize _
  | .setOp1 _ | .setOp2 _ | .addNop | .assemble | .readOut _ | .readReg _ | .addRet | .reservedC
  | .reservedD | .reservedE | .reservedF => none

/-- What the reader of an encoded instruction must be told about its symbol (R91). -/
def symInfoFor (resolve : SymName → Option Nat) (i : Instr) : Option SymInfo :=
  match i.symbol? with
  | none => none
  | some n => if (resolve n).isSome then some (.localLabel n) else some (.externalName n.length)

end Sys2Proof
end

