-- ==== Sys2Proof/Machine/State.lean ====
section
/-! DEFINITION. The state of `ENC` (spec/10_state.md), its faults and refusals, and reset. -/

namespace Sys2Proof.Machine

/-- Where the machine stops because a rule would read what no reachable state lacks. All are safe:
the spec asks a model to "fault rather than return a value" there (R232; log 13). -/
inductive Fault where
  /-- Raised by SET_COND, SET_SIZE, SET_OP1, SET_OP2 when `CUR_V` = 1 and the store is empty, which
  R38 (5) excludes. Safe. -/
  | recordAbsent
  /-- Raised by READ_OUT at an address below `OLEN` that holds no byte, which R29 excludes. Safe. -/
  | outAbsent
  /-- Raised by the fixup pass of ASSEMBLE when a placeholder lies outside `OUT[0 .. OLEN-1]`, where
  `MemWrite` is not defined (R53). Safe. -/
  | patchOutside
  /-- Raised by `put` when the field does not fit the scratch byte, against its precondition (R145).
  Safe. -/
  | scratchOverrun
  deriving DecidableEq, Repr

/-- Where the model gives no next state although the machine is not at fault. -/
inductive Refusal where
  /-- An instruction with no meaning yet. Safe. -/
  | notModelled (mnemonic : String)
  /-- Raised by `step` when the port shows a byte where a word is due, or the reverse: no command of
  R95 (log 9). Safe. -/
  | portFraming
  deriving DecidableEq, Repr

/-- The error kinds with `OK` (R200); the codes are `ErrCode.code` in Ops.lean. -/
inductive ErrCode where
  | ok | invalidOperand | duplicateLabel | undefinedSymbol | unsupportedEncoding
  | capacityExceeded | invalidState | badCommand
  deriving DecidableEq, Repr

/-- `PHASE` (R22); the value 3 "is never held" (U15). -/
inductive Phase where
  | build | done | failed
  deriving DecidableEq, Repr

/-- An instruction record (R24): each `_set` bit with the field it guards is one `Option`, so that a
field whose bit is 0 holds no value (R232, U6). -/
structure Record where
  /-- `opc`. -/
  opc : Opcode
  /-- `cond_set`, `cond`. -/
  cond : Option Cond
  /-- `size_set`, `size`. -/
  size : Option Size
  /-- `op1_set`, `op1_kind`, `op1_reg`. -/
  op1 : Option RegOperand
  /-- `op2_set`, `op2_kind`, `op2_reg`, `op2_name`, `op2_lit`. -/
  op2 : Option Operand
  deriving DecidableEq, Repr

/-- A label-table entry (R27); `res` and `off` are one `Option` (U6). -/
structure Label where
  /-- `name`. -/
  name : SymName
  /-- `idx`. -/
  idx : Nat
  /-- `res`, `off`. -/
  off : Option Nat
  deriving DecidableEq, Repr

/-- A fixup-queue entry (R28). -/
structure Fixup where
  /-- The offset in `OUT` of the first placeholder byte. -/
  off : Nat
  /-- The symbol's name. -/
  name : SymName
  deriving DecidableEq, Repr

/-- The output buffer: the bytes that have been emitted, addresses strictly rising. An address that is
not listed holds no value (R232; log 4). -/
abbrev Memory := List Host.Cell

/-- A response (R98). -/
structure Response where
  /-- `err`. -/
  err : ErrCode
  /-- `data`. -/
  data : Word
  deriving DecidableEq, Repr

/-- The state. The counts `NI`, `NL`, `NF` are the lengths of the three lists (U6: "a list of the
counted length"). The fields `cfg`, `port` and `resp` are the model's own (log 1, 2, 3). -/
structure State where
  /-- The parameters of R7, which no command changes (R36). -/
  cfg : Config
  /-- `PHASE` (R22). -/
  phase : Phase
  /-- `I[0 .. NI-1]` (R23). -/
  instrs : List Record
  /-- `CUR_V` (R26). -/
  curV : Bool
  /-- `L[0 .. NL-1]` (R27). -/
  labels : List Label
  /-- `FX[0 .. NF-1]` (R28). -/
  fixups : List Fixup
  /-- `OUT` (R29). -/
  out : Memory
  /-- `OLEN` (R29). -/
  olen : Nat
  /-- `SCR` (R31). -/
  scr : Byte
  /-- `SCRN` (R31). -/
  scrn : Nat
  /-- `LAST_ERR` (R32). -/
  lastErr : ErrCode
  /-- `FIRST_ERR` (R32). -/
  firstErr : ErrCode
  /-- What the client has sent and no command has taken yet (R96). -/
  port : List Beat
  /-- The response of the last command (R98). -/
  resp : Option Response
  deriving DecidableEq, Repr

/-- `NI` (R23). -/
abbrev State.ni (s : State) : Nat := s.instrs.length

/-- `NL` (R27). -/
abbrev State.nl (s : State) : Nat := s.labels.length

/-- `NF` (R28). -/
abbrev State.nf (s : State) : Nat := s.fixups.length

/-- The state after reset of hardware with the given parameters (R37, R230). -/
def State.resetOf (c : Config) : State where
  cfg := c
  phase := .build
  instrs := []
  curV := false
  labels := []
  fixups := []
  out := []
  olen := 0
  scr := 0
  scrn := 0
  lastErr := .ok
  firstErr := .ok
  port := []
  resp := none

/-- The state after reset (R37, R230), with the default parameters of R7 (log 3). -/
def State.reset : State := State.resetOf Config.default

end Sys2Proof.Machine
end

