-- ==== Sys2Proof/Machine/Flags.lean ====
section
/-! DEFINITION. The legality flags of an opcode (spec/10_state.md R25), the table of
spec/40_builder_commands.md R112. `ENC` has no status flags (R33). -/

namespace Sys2Proof.Machine

/-- `allowsSize`: the unary and binary classes (R112). -/
def allowsSize : Opcode → Bool
  | .jmp | .call | .ret => false
  | .not | .add | .sub | .mul | .div | .cmp | .tst | .and | .or | .xor | .lsl | .lsr | .mov => true

/-- `allowsCondition`: JMP alone (R112). -/
def allowsCondition : Opcode → Bool
  | .jmp => true
  | .call | .ret | .not | .add | .sub | .mul | .div | .cmp | .tst | .and | .or | .xor | .lsl | .lsr
  | .mov => false

/-- `allowsOp1`: the unary and binary classes (R112). -/
def allowsOp1 : Opcode → Bool
  | .jmp | .call | .ret => false
  | .not | .add | .sub | .mul | .div | .cmp | .tst | .and | .or | .xor | .lsl | .lsr | .mov => true

/-- `allowsOp2`: all but NOT and RET (R112). -/
def allowsOp2 : Opcode → Bool
  | .not | .ret => false
  | .jmp | .call | .add | .sub | .mul | .div | .cmp | .tst | .and | .or | .xor | .lsl | .lsr
  | .mov => true

/-- `kinds_op2`, the last column of R112: CALL admits no literal, NOT and RET nothing. -/
def kindsOp2 : Opcode → List Kind
  | .not | .ret => []
  | .call => [.register, .indirect, .symbol]
  | .jmp | .add | .sub | .mul | .div | .cmp | .tst | .and | .or | .xor | .lsl | .lsr | .mov =>
    [.register, .indirect, .symbol, .literal]

end Sys2Proof.Machine
end

