-- ==== Sys2Proof/Machine/Operands.lean ====
section
/-! DEFINITION. The operand forms of records: which operand SET_OP1 and SET_OP2 accept, the records
the builder makes, the RET lowering and the instruction byte. -/

namespace Sys2Proof.Machine

/-- The operand as an op1: nothing for a SYMBOL or LITERAL (R119, R120). -/
def asOp1 : Operand → Option RegOperand
  | .register r => some (.register r)
  | .indirect r => some (.indirect r)
  | .symbol _ | .literal _ => none

/-- Is the operand a symbol with a name longer than `NAME_MAX` (R121)? -/
def nameTooLong (c : Config) : Operand → Bool
  | .symbol n => decide (c.nameMax < n.length)
  | .register _ | .indirect _ | .literal _ => false

/-- The record ADD_INSTR creates, with nothing set (R115). -/
def newRecord (opc : Opcode) : Record where
  opc := opc
  cond := none
  size := none
  op1 := none
  op2 := none

/-- The record ADD_NOP creates (R123). -/
def nopRecord : Record where
  opc := .jmp
  cond := some .nv
  size := some .byte
  op1 := none
  op2 := some (.literal 0)

/-- `lower` (R143): RET becomes the JMP through `LR_REG` it stands for. -/
def lower (c : Config) (r : Record) : Record :=
  if r.opc = .ret then
    { opc := .jmp, cond := none, size := none, op1 := none, op2 := some (.register c.lrReg) }
  else r

/-- `instr_byte` (R144): `opc << 4 | k1 << 3 | k2 << 1`. -/
def instrByte (r : Record) : Byte :=
  (r.opc.code.setWidth 8 <<< 4) ||| ((op1KindBit r.op1).setWidth 8 <<< 3) |||
    ((op2KindBits r.op2).setWidth 8 <<< 1)

/-- SET_COND's checks and write on the record under construction (R117). -/
def setCondIn (cond : Cond) (r : Record) : Except ErrCode Record :=
  if allowsCondition r.opc = false then .error .invalidOperand
  else if r.cond.isSome then .error .invalidOperand
  else .ok { r with cond := some cond }

/-- SET_SIZE's checks and write (R118). -/
def setSizeIn (size : Size) (r : Record) : Except ErrCode Record :=
  if allowsSize r.opc = false then .error .invalidOperand
  else if r.size.isSome then .error .invalidOperand
  else .ok { r with size := some size }

/-- SET_OP1's checks and write (R119): the operand's kind first (R120). -/
def setOp1In (o : Operand) (r : Record) : Except ErrCode Record :=
  match asOp1 o with
  | none => .error .invalidOperand
  | some o1 =>
    if allowsOp1 r.opc = false then .error .invalidOperand
    else if r.op1.isSome then .error .invalidOperand
    else .ok { r with op1 := some o1 }

/-- SET_OP2's checks and write (R121), the length of a name after every legality check. -/
def setOp2In (c : Config) (o : Operand) (r : Record) : Except ErrCode Record :=
  if allowsOp2 r.opc = false then .error .invalidOperand
  else if o.kind ∉ kindsOp2 r.opc then .error .invalidOperand
  else if r.op2.isSome then .error .invalidOperand
  else if nameTooLong c o then .error .capacityExceeded
  else .ok { r with op2 := some o }

/-- The bytecode instruction a record stands for. A JMP record with a size is ADD_NOP's, the one way a
JMP gets one (R123, log 15). -/
def Record.instr (r : Record) : Instr :=
  match r.opc with
  | .jmp => if r.size.isSome then .nop else .jmp r.cond r.op2
  | .call => .call r.op2
  | .ret => .ret
  | .not => .not r.size r.op1
  | .add => .add r.size r.op1 r.op2
  | .sub => .sub r.size r.op1 r.op2
  | .mul => .mul r.size r.op1 r.op2
  | .div => .div r.size r.op1 r.op2
  | .cmp => .cmp r.size r.op1 r.op2
  | .tst => .tst r.size r.op1 r.op2
  | .and => .and r.size r.op1 r.op2
  | .or => .or r.size r.op1 r.op2
  | .xor => .xor r.size r.op1 r.op2
  | .lsl => .lsl r.size r.op1 r.op2
  | .lsr => .lsr r.size r.op1 r.op2
  | .mov => .mov r.size r.op1 r.op2

/-- The record of a JMP (R171). -/
def jmpRecord (cond : Option Cond) (op2 : Option Operand) : Record where
  opc := .jmp
  cond := cond
  size := none
  op1 := none
  op2 := op2

/-- The record of a CALL (R172). -/
def callRecord (op2 : Option Operand) : Record where
  opc := .call
  cond := none
  size := none
  op1 := none
  op2 := op2

/-- The record of a unary or binary instruction (R181, R186). -/
def sizedRecord (opc : Opcode) (size : Option Size) (op1 : Option RegOperand)
    (op2 : Option Operand) : Record where
  opc := opc
  cond := none
  size := size
  op1 := op1
  op2 := op2

/-- The record of a bytecode instruction; none for a command. -/
def recordOf : Instr → Option Record
  | .jmp c o2 => some (jmpRecord c o2)
  | .call o2 => some (callRecord o2)
  | .ret => some (newRecord .ret)
  | .nop => some nopRecord
  | .not s o1 => some (sizedRecord .not s o1 none)
  | .add s o1 o2 => some (sizedRecord .add s o1 o2)
  | .sub s o1 o2 => some (sizedRecord .sub s o1 o2)
  | .mul s o1 o2 => some (sizedRecord .mul s o1 o2)
  | .div s o1 o2 => some (sizedRecord .div s o1 o2)
  | .cmp s o1 o2 => some (sizedRecord .cmp s o1 o2)
  | .tst s o1 o2 => some (sizedRecord .tst s o1 o2)
  | .and s o1 o2 => some (sizedRecord .and s o1 o2)
  | .or s o1 o2 => some (sizedRecord .or s o1 o2)
  | .xor s o1 o2 => some (sizedRecord .xor s o1 o2)
  | .lsl s o1 o2 => some (sizedRecord .lsl s o1 o2)
  | .lsr s o1 o2 => some (sizedRecord .lsr s o1 o2)
  | .mov s o1 o2 => some (sizedRecord .mov s o1 o2)
  | .reset | .addLabel _ | .addInstr _ | .setCond _ | .setSize _ | .setOp1 _ | .setOp2 _ | .addNop
  | .assemble | .readOut _ | .readReg _ | .addRet | .reservedC | .reservedD | .reservedE
  | .reservedF => none

end Sys2Proof.Machine
end

