-- ==== Sys2Proof/Machine/Ops.lean ====
section
/-! DEFINITION. The named operations over the stores (spec/20_memory.md), the bit packer and the
passes of ASSEMBLE (spec/41_assemble.md), and raising an error (spec/60_exceptions.md R210 to R213). -/

namespace Sys2Proof.Machine

/-! ## The output buffer -/

/-- The byte at an address, if one has been written (R52). -/
def Memory.read : Memory → Nat → Option Byte
  | [], _ => none
  | (c, v) :: m, a => if c = a then some v else Memory.read m a

/-- Write one byte, keeping the addresses strictly rising. -/
def Memory.write : Memory → Nat → Byte → Memory
  | [], a, b => [(a, b)]
  | (c, v) :: m, a, b =>
    if a < c then (a, b) :: (c, v) :: m
    else if a = c then (a, b) :: m
    else (c, v) :: Memory.write m a b

/-- The canonical form: addresses strictly rising. An unlisted address reads as nothing, so no entry
can equal it. -/
abbrev Memory.wf (m : Memory) : Prop := (m.map Prod.fst).Pairwise (· < ·)

/-- The bytes of `vs` from address `a` upward. -/
def Memory.writeBytes : Memory → Nat → List Byte → Memory
  | m, _, [] => m
  | m, a, v :: vs => Memory.writeBytes (Memory.write m a v) (a + 1) vs

/-! ## Stopping inside an operation -/

/-- Why an operation of the ASSEMBLE pass ends early: an error (R212) or a fault of the model. -/
inductive Stop where
  | raise (e : ErrCode)
  | fault (f : Fault)
  deriving DecidableEq, Repr

/-- The outcome of an operation of the pass. -/
abbrev Pass := Except Stop State

/-! ## Raising and answering (R210 to R213) -/

/-- The 3-bit code of an error (R200). -/
def ErrCode.code : ErrCode → BitVec 3
  | .ok => 0 | .invalidOperand => 1 | .duplicateLabel => 2 | .undefinedSymbol => 3
  | .unsupportedEncoding => 4 | .capacityExceeded => 5 | .invalidState => 6 | .badCommand => 7

/-- `FIRST_ERR` after an error: the first one stays (R210, R213). -/
def stickyErr (old e : ErrCode) : ErrCode := if old = .ok then e else old

/-- `raise E` in a builder command, a refused ASSEMBLE, READ_OUT and a reserved command: only the error
registers and the response change (R210, R211). -/
def State.raise (s : State) (e : ErrCode) : State :=
  { s with lastErr := e, firstErr := stickyErr s.firstErr e, resp := some ⟨e, 0⟩ }

/-- A command that ends without raising: `LAST_ERR <- 0` and the response (R98, R213). -/
def State.answer (s : State) (data : Word) : State :=
  { s with lastErr := .ok, resp := some ⟨.ok, data⟩ }

/-- A label without its resolved offset. -/
def Label.unresolved (l : Label) : Label := { l with off := none }

/-- What a failed pass leaves (R159, R212), before the error is recorded. The contents of `OUT` and
`FX` and the labels' `res` and `off`, which R159 leaves unspecified, are absent (log 4). -/
def State.abandon (s : State) : State :=
  { s with
    phase := .failed, olen := 0, out := [], fixups := [], scr := 0, scrn := 0, curV := false,
    labels := s.labels.map Label.unresolved }

/-- `raise E` inside the ASSEMBLE pass (R159, R212). -/
def State.failPass (s : State) (e : ErrCode) : State := s.abandon.raise e

/-- A refused command's outcome. -/
def raised (e : ErrCode) (s : State) : Host.Outcome State Fault Refusal := .next (s.raise e)

/-- The outcome of work of the pass begun in state `s` (R159). -/
def passOutcome (s : State) : Pass → Host.Outcome State Fault Refusal
  | .ok t => .next t
  | .error (.raise e) => .next (s.failPass e)
  | .error (.fault f) => .fault f

/-! ## Labels and records -/

/-- The first index from `j` on whose name matches. -/
def lookupFrom (j : Nat) : List Label → SymName → Option Nat
  | [], _ => none
  | l :: ls, n => if l.name = n then some j else lookupFrom (j + 1) ls n

/-- `lookup(name)` (R58): the index `j < NL` with `L[j].name = name`, compared byte for byte. -/
def lookup (ls : List Label) (n : SymName) : Option Nat := lookupFrom 0 ls n

/-- The recorded offset of the label a name finds; nothing if there is none or it is not resolved. -/
def resolvedOff (ls : List Label) (n : SymName) : Option Nat :=
  match lookup ls n with
  | none => none
  | some j =>
    match ls[j]? with
    | none => none
    | some l => l.off

/-- A label of index `i` takes the offset if it has none (R142). -/
def Label.record (i off : Nat) (l : Label) : Label :=
  if l.idx = i ∧ l.off = none then { l with off := some off } else l

/-- `record_labels(i)` (R142). -/
def recordLabels (i : Nat) (s : State) : State :=
  { s with labels := s.labels.map (Label.record i s.olen) }

/-- A label takes the final length if it has no offset (R155). -/
def Label.recordEnd (off : Nat) (l : Label) : Label :=
  if l.off = none then { l with off := some off } else l

/-- `resolve_end_labels()` (R155). -/
def resolveEndLabels (s : State) : State :=
  { s with labels := s.labels.map (Label.recordEnd s.olen) }

/-- Append a record and make it the one under construction; the response's data is its index (R98,
R115, R123, R124). -/
def appendRecord (r : Record) (s : State) : Host.Outcome State Fault Refusal :=
  if s.phase ≠ .build then raised .invalidState s
  else if s.ni = s.cfg.nInstrMax then raised .capacityExceeded s
  else
    .next (State.answer { s with instrs := s.instrs ++ [r], curV := true } (BitVec.ofNat 32 s.ni))

/-- The four setting commands (R111): phase, then `CUR_V`, then the command's own checks and write on
`I[NI-1]`. -/
def setCurrent (f : Record → Except ErrCode Record) (s : State) :
    Host.Outcome State Fault Refusal :=
  if s.phase ≠ .build then raised .invalidState s
  else if s.curV = false then raised .invalidState s
  else
    match s.instrs.getLast? with
    | none => .fault .recordAbsent
    | some r =>
      match f r with
      | .error e => raised e s
      | .ok r' => .next (State.answer { s with instrs := s.instrs.dropLast ++ [r'] } 0)

/-! ## Emitting -/

/-- `emit_byte(b)` (R54). -/
def emitByte (b : Byte) (s : State) : Pass :=
  if s.olen = s.cfg.outMax then .error (.raise .capacityExceeded)
  else .ok { s with out := Memory.write s.out s.olen b, olen := s.olen + 1 }

/-- One `emit_byte` after another (R59). -/
def emitBytes : List Byte → State → Pass
  | [], s => .ok s
  | b :: bs, s => emitByte b s >>= emitBytes bs

/-- `put(v, w)` (R145); its precondition `SCRN + w ≤ 8` is checked. -/
def put (v w : Nat) (s : State) : Pass :=
  if 8 < s.scrn + w then .error (.fault .scratchOverrun)
  else
    let t := { s with
      scr := s.scr ||| BitVec.ofNat 8 (v <<< (8 - s.scrn - w))
      scrn := s.scrn + w }
    if t.scrn = 8 then (emitByte t.scr t).map fun u => { u with scr := 0, scrn := 0 }
    else .ok t

/-- `align()` (R146). -/
def align (s : State) : Pass :=
  if 0 < s.scrn then (emitByte s.scr s).map fun u => { u with scr := 0, scrn := 0 }
  else .ok s

/-- `put` when a field is present. -/
def putWhen (p : Bool) (v w : Nat) (s : State) : Pass := if p then put v w s else .ok s

/-- `emit_placeholder(name)` (R152). -/
def emitPlaceholder (n : SymName) (s : State) : Pass :=
  if s.nf = s.cfg.nFixupMax then .error (.raise .capacityExceeded)
  else emitBytes [0, 0, 0, 0] { s with fixups := s.fixups ++ [⟨s.olen, n⟩] }

/-- Op2 as a symbol, after the alignment (R151): local through the queue, external as its bytes. -/
def emitSymbol (n : SymName) (s : State) : Pass :=
  if (lookup s.labels n).isSome then emitPlaceholder n s else emitBytes n s

/-- `emit_literal` (R153): the 64-bit ceiling first, then `2^size` bytes. -/
def emitLiteral (size : Option Size) (v : Nat) (s : State) : Pass :=
  if 2 ^ 64 ≤ v then .error (.raise .unsupportedEncoding)
  else emitBytes (leBytes (sizeOrWord size).bytes v) s

/-- The flush before an op2 register when fewer than 3 bits are free (R150). -/
def alignForReg (s : State) : Pass := if 8 - s.scrn < 3 then align s else .ok s

/-- Op2 (R150, R151, R153). -/
def emitOp2 (e : Record) (s : State) : Pass :=
  match e.op2 with
  | none => .ok s
  | some (.register r) => alignForReg s >>= put r.toNat 3
  | some (.indirect r) => alignForReg s >>= put r.toNat 3
  | some (.symbol n) => align s >>= emitSymbol n
  | some (.literal v) => align s >>= emitLiteral e.size v

/-- Op1 (R149). -/
def emitOp1 (e : Record) (s : State) : Pass :=
  match e.op1 with
  | none => .ok s
  | some o => put o.reg.toNat 3 s

/-- The body of the emit pass for one lowered record (R141 after `record_labels` and `lower`). -/
def emitLowered (e : Record) (s : State) : Pass :=
  emitByte (instrByte e) s >>=
  putWhen (e.opc = .jmp) (condOrAl e.cond).code.toNat 4 >>=
  putWhen (allowsSize e.opc) (sizeOrWord e.size).code.toNat 2 >>=
  emitOp1 e >>=
  emitOp2 e >>=
  align

/-- One record of the emit pass (R141, R143). -/
def emitRecord (r : Record) (s : State) : Pass := emitLowered (lower s.cfg r) s

/-- The meaning of a bytecode instruction: the emit pass meets its record (log 5). -/
def emitInstr (r : Record) (s : State) : Host.Outcome State Fault Refusal :=
  passOutcome s (emitRecord r s)

/-- `emit_pass()` from index `i` on (R141). -/
def emitPass (i : Nat) : List Record → State → Pass
  | [], s => .ok s
  | r :: rs, s => emitRecord r (recordLabels i s) >>= emitPass (i + 1) rs

/-! ## Fixing up -/

/-- `MemWrite(a, n, v)` (R53). -/
def memWrite (a n v : Nat) (s : State) : Pass :=
  if a + n ≤ s.olen then .ok { s with out := Memory.writeBytes s.out a (leBytes n v) }
  else .error (.fault .patchOutside)

/-- One step of the fixup pass (R156 to R158). -/
def patch (f : Fixup) (s : State) : Pass :=
  match resolvedOff s.labels f.name with
  | none => .error (.raise .undefinedSymbol)
  | some off => memWrite f.off 4 off s

/-- `fixup_pass()` (R156), in queue order. -/
def fixupPass : List Fixup → State → Pass
  | [], s => .ok s
  | f :: fs, s => patch f s >>= fixupPass fs

/-- The whole pass of ASSEMBLE after its phase check (R140). -/
def assemblePass (s : State) : Pass := do
  let t ← emitPass 0 s.instrs s
  let u := resolveEndLabels t
  let v ← fixupPass u.fixups u
  return { v with phase := .done }

/-! ## Reading -/

/-- The number in the `PHASE` register (R22). -/
def Phase.code : Phase → BitVec 2
  | .build => 0 | .done => 1 | .failed => 2

/-- The status registers (R34): the value zero-extended, bits [31:0] of a count, 0 for a reserved
selector. -/
def statusReg (sel : BitVec 4) (s : State) : Word :=
  match sel.toNat with
  | 0 => s.phase.code.setWidth 32
  | 1 => BitVec.ofNat 32 s.ni
  | 2 => BitVec.ofNat 32 s.nl
  | 3 => BitVec.ofNat 32 s.nf
  | 4 => BitVec.ofNat 32 s.olen
  | 5 => s.lastErr.code.setWidth 32
  | 6 => s.firstErr.code.setWidth 32
  | 7 => (BitVec.ofBool s.curV).setWidth 32
  | _ => 0

/-! ## Loading a program from outside -/

/-- The header word of ASSEMBLE (R97). -/
def assembleHeader : Word := mkHeader 0x8 0 0 0

/-- A program of one record in phase BUILD, with nothing emitted and ASSEMBLE next on the port: what
it takes for the next step to lower exactly this instruction (log 6). -/
def loadProgram (r : Record) (s : State) : State :=
  { s with
    phase := .build, instrs := [r], curV := false, labels := [], fixups := [], out := [], olen := 0,
    port := .word assembleHeader :: s.port }

end Sys2Proof.Machine
end

