-- ==== Sys2Proof/Machine/Assemble.lean ====
section
/-! DEFINITION. ASSEMBLE and READ_OUT (spec/41_assemble.md). -/

namespace Sys2Proof.Machine

/-- ASSEMBLE (R140): refused outside BUILD, else the whole pass as one command (R159 on an error). -/
def execAssemble (s : State) : Host.Outcome State Fault Refusal :=
  if s.phase ≠ .build then raised .invalidState s
  else
    passOutcome { s with curV := false }
      ((assemblePass { s with curV := false }).map fun t => t.answer 0)

/-- READ_OUT (R161). -/
def execReadOut (addr : Word) (s : State) : Host.Outcome State Fault Refusal :=
  if s.phase ≠ .done then raised .invalidState s
  else if s.olen ≤ addr.toNat then raised .badCommand s
  else
    match Memory.read s.out addr.toNat with
    | none => .fault .outAbsent
    | some b => .next (s.answer (b.setWidth 32))

end Sys2Proof.Machine
end

