-- ==== Sys2Proof/Machine/Binary.lean ====
section
/-! DEFINITION. The binary family as the emit pass lowers it (spec/44_binary.md R186): the twelve
differ in the opcode code alone. -/

namespace Sys2Proof.Machine

/-- ADD (R187). -/
def execAdd (size : Option Size) (op1 : Option RegOperand) (op2 : Option Operand) (s : State) :
    Host.Outcome State Fault Refusal :=
  emitInstr (sizedRecord .add size op1 op2) s

/-- SUB (R188). -/
def execSub (size : Option Size) (op1 : Option RegOperand) (op2 : Option Operand) (s : State) :
    Host.Outcome State Fault Refusal :=
  emitInstr (sizedRecord .sub size op1 op2) s

/-- MUL (R189). -/
def execMul (size : Option Size) (op1 : Option RegOperand) (op2 : Option Operand) (s : State) :
    Host.Outcome State Fault Refusal :=
  emitInstr (sizedRecord .mul size op1 op2) s

/-- DIV (R190). -/
def execDiv (size : Option Size) (op1 : Option RegOperand) (op2 : Option Operand) (s : State) :
    Host.Outcome State Fault Refusal :=
  emitInstr (sizedRecord .div size op1 op2) s

/-- CMP (R191). -/
def execCmp (size : Option Size) (op1 : Option RegOperand) (op2 : Option Operand) (s : State) :
    Host.Outcome State Fault Refusal :=
  emitInstr (sizedRecord .cmp size op1 op2) s

/-- TST (R192). -/
def execTst (size : Option Size) (op1 : Option RegOperand) (op2 : Option Operand) (s : State) :
    Host.Outcome State Fault Refusal :=
  emitInstr (sizedRecord .tst size op1 op2) s

/-- AND (R193). -/
def execAnd (size : Option Size) (op1 : Option RegOperand) (op2 : Option Operand) (s : State) :
    Host.Outcome State Fault Refusal :=
  emitInstr (sizedRecord .and size op1 op2) s

/-- OR (R194). -/
def execOr (size : Option Size) (op1 : Option RegOperand) (op2 : Option Operand) (s : State) :
    Host.Outcome State Fault Refusal :=
  emitInstr (sizedRecord .or size op1 op2) s

/-- XOR (R195). -/
def execXor (size : Option Size) (op1 : Option RegOperand) (op2 : Option Operand) (s : State) :
    Host.Outcome State Fault Refusal :=
  emitInstr (sizedRecord .xor size op1 op2) s

/-- LSL (R196). -/
def execLsl (size : Option Size) (op1 : Option RegOperand) (op2 : Option Operand) (s : State) :
    Host.Outcome State Fault Refusal :=
  emitInstr (sizedRecord .lsl size op1 op2) s

/-- LSR (R197). -/
def execLsr (size : Option Size) (op1 : Option RegOperand) (op2 : Option Operand) (s : State) :
    Host.Outcome State Fault Refusal :=
  emitInstr (sizedRecord .lsr size op1 op2) s

/-- MOV (R198). -/
def execMov (size : Option Size) (op1 : Option RegOperand) (op2 : Option Operand) (s : State) :
    Host.Outcome State Fault Refusal :=
  emitInstr (sizedRecord .mov size op1 op2) s

end Sys2Proof.Machine
end

