-- ==== Sys2Proof/Machine/Builder.lean ====
section
/-! DEFINITION. The builder commands (spec/40_builder_commands.md). -/

namespace Sys2Proof.Machine

/-- RESET (R110), the effect of reset (R230). What the client has still to send stays on the port. -/
def execReset (s : State) : Host.Outcome State Fault Refusal :=
  .next (State.answer { State.resetOf s.cfg with port := s.port } 0)

/-- ADD_LABEL (R113). -/
def execAddLabel (name : SymName) (s : State) : Host.Outcome State Fault Refusal :=
  if s.phase ≠ .build then raised .invalidState s
  else if (lookup s.labels name).isSome then raised .duplicateLabel s
  else if s.cfg.nameMax < name.length then raised .capacityExceeded s
  else if s.nl = s.cfg.nLabelMax then raised .capacityExceeded s
  else
    .next (State.answer { s with labels := s.labels ++ [⟨name, s.ni, none⟩], curV := false } 0)

/-- ADD_INSTR (R115). -/
def execAddInstr (opc : Opcode) (s : State) : Host.Outcome State Fault Refusal :=
  appendRecord (newRecord opc) s

/-- SET_COND (R117). -/
def execSetCond (cond : Cond) (s : State) : Host.Outcome State Fault Refusal :=
  setCurrent (setCondIn cond) s

/-- SET_SIZE (R118). -/
def execSetSize (size : Size) (s : State) : Host.Outcome State Fault Refusal :=
  setCurrent (setSizeIn size) s

/-- SET_OP1 (R119). -/
def execSetOp1 (o : Operand) (s : State) : Host.Outcome State Fault Refusal :=
  setCurrent (setOp1In o) s

/-- SET_OP2 (R121). -/
def execSetOp2 (o : Operand) (s : State) : Host.Outcome State Fault Refusal :=
  setCurrent (setOp2In s.cfg o) s

/-- ADD_NOP (R123). -/
def execAddNop (s : State) : Host.Outcome State Fault Refusal := appendRecord nopRecord s

/-- ADD_RET (R124): exactly ADD_INSTR(0xF). -/
def execAddRet (s : State) : Host.Outcome State Fault Refusal := appendRecord (newRecord .ret) s

/-- READ_REG (R126): no state but the response. -/
def execReadReg (sel : BitVec 4) (s : State) : Host.Outcome State Fault Refusal :=
  .next { s with resp := some ⟨.ok, statusReg sel s⟩ }

end Sys2Proof.Machine
end

