-- ==== Sys2Proof/Machine/Control.lean ====
section
/-! DEFINITION. The control-transfer family as the emit pass lowers it (spec/42_control_transfer.md). -/

namespace Sys2Proof.Machine

/-- JMP (R171). -/
def execJmp (cond : Option Cond) (op2 : Option Operand) (s : State) :
    Host.Outcome State Fault Refusal :=
  emitInstr (jmpRecord cond op2) s

/-- CALL (R172). -/
def execCall (op2 : Option Operand) (s : State) : Host.Outcome State Fault Refusal :=
  emitInstr (callRecord op2) s

/-- RET (R173). -/
def execRet (s : State) : Host.Outcome State Fault Refusal := emitInstr (newRecord .ret) s

/-- NOP (R174). -/
def execNop (s : State) : Host.Outcome State Fault Refusal := emitInstr nopRecord s

end Sys2Proof.Machine
end

