-- ==== Sys2Proof/Machine/Reserved.lean ====
section
/-! DEFINITION. The reserved command codes (spec/60_exceptions.md R204, R211). -/

namespace Sys2Proof.Machine

/-- Command code 0xC (R204 (1)). -/
def execReservedC (s : State) : Host.Outcome State Fault Refusal := raised .badCommand s

/-- Command code 0xD (R204 (1)). -/
def execReservedD (s : State) : Host.Outcome State Fault Refusal := raised .badCommand s

/-- Command code 0xE (R204 (1)). -/
def execReservedE (s : State) : Host.Outcome State Fault Refusal := raised .badCommand s

/-- Command code 0xF (R204 (1)). -/
def execReservedF (s : State) : Host.Outcome State Fault Refusal := raised .badCommand s

end Sys2Proof.Machine
end

