-- ==== Sys2Proof/Machine/Unary.lean ====
section
/-! DEFINITION. The unary family as the emit pass lowers it (spec/43_unary.md). -/

namespace Sys2Proof.Machine

/-- NOT, alias CPL (R181). -/
def execNot (size : Option Size) (op1 : Option RegOperand) (s : State) :
    Host.Outcome State Fault Refusal :=
  emitInstr (sizedRecord .not size op1 none) s

end Sys2Proof.Machine
end

