-- ==== Sys2Proof/Machine/Dispatch.lean ====
section
/-! DEFINITION. One arm per instruction. -/

namespace Sys2Proof.Machine

def exec (i : Instr) (s : State) : Host.Outcome State Fault Refusal :=
  match i with
  | .jmp cond op2 => Sys2Proof.Machine.execJmp cond op2 s
  | .call op2 => Sys2Proof.Machine.execCall op2 s
  | .ret => Sys2Proof.Machine.execRet s
  | .nop => Sys2Proof.Machine.execNop s
  | .not size op1 => Sys2Proof.Machine.execNot size op1 s
  | .add size op1 op2 => Sys2Proof.Machine.execAdd size op1 op2 s
  | .sub size op1 op2 => Sys2Proof.Machine.execSub size op1 op2 s
  | .mul size op1 op2 => Sys2Proof.Machine.execMul size op1 op2 s
  | .div size op1 op2 => Sys2Proof.Machine.execDiv size op1 op2 s
  | .cmp size op1 op2 => Sys2Proof.Machine.execCmp size op1 op2 s
  | .tst size op1 op2 => Sys2Proof.Machine.execTst size op1 op2 s
  | .and size op1 op2 => Sys2Proof.Machine.execAnd size op1 op2 s
  | .or size op1 op2 => Sys2Proof.Machine.execOr size op1 op2 s
  | .xor size op1 op2 => Sys2Proof.Machine.execXor size op1 op2 s
  | .lsl size op1 op2 => Sys2Proof.Machine.execLsl size op1 op2 s
  | .lsr size op1 op2 => Sys2Proof.Machine.execLsr size op1 op2 s
  | .mov size op1 op2 => Sys2Proof.Machine.execMov size op1 op2 s
  | .reset => Sys2Proof.Machine.execReset s
  | .addLabel name => Sys2Proof.Machine.execAddLabel name s
  | .addInstr opc => Sys2Proof.Machine.execAddInstr opc s
  | .setCond cond => Sys2Proof.Machine.execSetCond cond s
  | .setSize size => Sys2Proof.Machine.execSetSize size s
  | .setOp1 operand => Sys2Proof.Machine.execSetOp1 operand s
  | .setOp2 operand => Sys2Proof.Machine.execSetOp2 operand s
  | .addNop => Sys2Proof.Machine.execAddNop s
  | .assemble => Sys2Proof.Machine.execAssemble s
  | .readOut addr => Sys2Proof.Machine.execReadOut addr s
  | .readReg sel => Sys2Proof.Machine.execReadReg sel s
  | .addRet => Sys2Proof.Machine.execAddRet s
  | .reservedC => Sys2Proof.Machine.execReservedC s
  | .reservedD => Sys2Proof.Machine.execReservedD s
  | .reservedE => Sys2Proof.Machine.execReservedE s
  | .reservedF => Sys2Proof.Machine.execReservedF s

end Sys2Proof.Machine
end

