-- ==== Sys2Proof/Machine/Step.lean ====
section
/-! DEFINITION. One step of the machine: the next command on the port, performed whole
(spec/00_scope.md R12). -/

namespace Sys2Proof.Machine

/-- Take the next command of the port and perform it (R12, R95). While no command has arrived whole,
the machine waits unchanged (log 8). -/
def step (s : State) : Host.Outcome State Fault Refusal :=
  match decodeCommand s.cfg s.port with
  | .ok (i, rest) => exec i { s with port := rest }
  | .error .framing => .refused .portFraming
  | .error _ => .next s

/-- The word of one row of spec/opcode_table.json placed so that the very next step runs it: a command
row at the head of the port with a payload of zeros, a bytecode row as the one record of a loaded
program with ASSEMBLE at the head of the port (log 6). -/
def State.withFetchWord (s : State) (nbits w : Nat) : State :=
  if nbits = 32 then { s with port := tableBeats s.cfg w ++ s.port }
  else
    match decodeTableWord nbits w with
    | none => s
    | some i =>
      match recordOf i with
      | none => s
      | some r => loadProgram r s

end Sys2Proof.Machine
end

