-- ==== Sys2Proof/Safety.lean ====
section
/-! DEFINITION. What holds between two commands (spec/10_state.md R38), and what ASSEMBLE is to
produce, in the terms the statements use (spec/30_encoding.md R92, spec/41_assemble.md R162). -/

namespace Sys2Proof.Machine

/-! ## Records the builder makes -/

/-- R38 (6), with the widths of R24: a field is set only where the opcode allows it, or the record is
ADD_NOP's. -/
def Record.legal (c : Config) (r : Record) : Bool :=
  decide (r = nopRecord) ||
    ((!r.cond.isSome || allowsCondition r.opc) && (!r.size.isSome || allowsSize r.opc) &&
      (!r.op1.isSome || allowsOp1 r.opc) &&
      optAll (fun o => decide (o.kind ∈ kindsOp2 r.opc) && o.inRecord c) r.op2)

/-! ## The invariant between commands -/

/-- The four bytes at a fixup hold the offset of the label it names (R38 (7)). -/
abbrev fixupPatched (s : State) (f : Fixup) : Prop :=
  (resolvedOff s.labels f.name).map (fun off => (leBytes 4 off).map some) =
    some ((List.range 4).map fun k => Memory.read s.out (f.off + k))

/-- What holds between any two commands: R38 (1) to (8), with the capacities of R7 and the shape of
the output buffer of R29. -/
structure Inv (s : State) : Prop where
  /-- The parameters meet R7. -/
  config : s.cfg.wf
  /-- R38 (1). -/
  scratch : s.scr = 0 ∧ s.scrn = 0
  /-- R38 (2). -/
  building : s.phase = .build → s.fixups = [] ∧ s.olen = 0 ∧ ∀ l ∈ s.labels, l.off = none
  /-- R38 (3), first half. -/
  labelIdx : ∀ l ∈ s.labels, l.idx ≤ s.ni
  /-- R38 (3), second half. -/
  labelOrder : s.labels.Pairwise fun l m => l.idx ≤ m.idx
  /-- R38 (4). -/
  labelNames : s.labels.Pairwise fun l m => l.name ≠ m.name
  /-- R38 (5). -/
  current : s.curV = true → 1 ≤ s.ni ∧ s.phase = .build
  /-- R38 (6). -/
  records : ∀ r ∈ s.instrs, r.legal s.cfg = true
  /-- R38 (7). -/
  assembled : s.phase = .done → (∀ l ∈ s.labels, l.off ≠ none) ∧ ∀ f ∈ s.fixups, fixupPatched s f
  /-- R38 (8). -/
  failed : s.phase = .failed → s.olen = 0 ∧ s.fixups = []
  /-- R7, R23, R27, R28: no store outgrows its capacity. -/
  capacity : s.ni ≤ s.cfg.nInstrMax ∧ s.nl ≤ s.cfg.nLabelMax ∧ s.nf ≤ s.cfg.nFixupMax
  /-- R27: no label name is longer than `NAME_MAX`. -/
  labelLength : ∀ l ∈ s.labels, l.name.length ≤ s.cfg.nameMax
  /-- R29: the buffer holds exactly the bytes `OUT[0 .. OLEN-1]`, in canonical form. -/
  buffer : s.out.map Prod.fst = List.range s.olen
  /-- R29. -/
  outCapacity : s.olen ≤ s.cfg.outMax

/-! ## Lengths and offsets (R92) -/

/-- The bits before op2 in the tail (R92's `b`), of a lowered record. -/
def headBits (e : Record) : Nat :=
  (if e.opc = .jmp then 4 else 0) + (if allowsSize e.opc then 2 else 0) +
    (if e.op1.isSome then 3 else 0)

/-- The bytes a symbol takes: 4 when it is local, else its name (R83, R84). -/
def symbolLen (ls : List Label) (n : SymName) : Nat :=
  if (lookup ls n).isSome then 4 else n.length

/-- `len(r)` of R92, for a lowered record. -/
def loweredLen (ls : List Label) (e : Record) : Nat :=
  1 + match e.op2 with
    | none => (headBits e + 7) / 8
    | some (.register _) => 1
    | some (.indirect _) => 1
    | some (.symbol n) => (headBits e + 7) / 8 + symbolLen ls n
    | some (.literal _) => (headBits e + 7) / 8 + (sizeOrWord e.size).bytes

/-- `len(r)` of R92. -/
def recordLen (c : Config) (ls : List Label) (r : Record) : Nat := loweredLen ls (lower c r)

/-- The offset of the instruction of index `i`, or the whole length past the end (R92). -/
def offsetOf (c : Config) (ls : List Label) (rs : List Record) (i : Nat) : Nat :=
  ((rs.take i).map (recordLen c ls)).sum

/-- The length of the whole program's encoding (R92). -/
def programLen (c : Config) (ls : List Label) (rs : List Record) : Nat :=
  (rs.map (recordLen c ls)).sum

/-- How many records refer to a local label (R152). -/
def localRefs (ls : List Label) (rs : List Record) : Nat :=
  rs.countP fun r => ((opSymbol r.op2).bind (lookup ls)).isSome

/-- A literal below the 64-bit ceiling of R153. -/
def litBelowCeiling : Option Operand → Bool
  | some (.literal v) => decide (v < 2 ^ 64)
  | some (.register _) | some (.indirect _) | some (.symbol _) | none => true

/-- The offset a symbol resolves to: that of the instruction its label precedes (R162 (2)); nothing
for an external symbol. -/
def finalOffset (c : Config) (ls : List Label) (rs : List Record) (n : SymName) : Option Nat :=
  (lookup ls n).bind fun j => ls[j]?.map fun l => offsetOf c ls rs l.idx

/-- The program's byte stream: the concatenation of the encodings of the records (R162 (4)). -/
def programBytes (c : Config) (ls : List Label) (rs : List Record) : List Byte :=
  (rs.map fun r => (encodeBytecode c (finalOffset c ls rs) r.instr).getD []).flatten

/-- The program can be assembled: nothing overflows and every literal is below the ceiling. -/
abbrev Assemblable (s : State) : Prop :=
  programLen s.cfg s.labels s.instrs ≤ s.cfg.outMax ∧
    localRefs s.labels s.instrs ≤ s.cfg.nFixupMax ∧
    ∀ r ∈ s.instrs, litBelowCeiling r.op2 = true

end Sys2Proof.Machine
end

