-- ==== Sys2Proof/Certificates/Slice0/Obligations.lean ====
section
/-! DEFINITION. The statements for the provers. Commands are stated as whole next states, so each
equation is its own frame: a field it does not name is unchanged. -/

namespace Sys2Proof.Machine

/-! ## Words the statements use -/

/-- The error code of an outcome's response, if it is a next state with one. -/
def errOf : Host.Outcome State Fault Refusal → Option ErrCode
  | .next t => t.resp.map Response.err
  | .fault _ => none
  | .refused _ => none

/-- A command refused with an error that changes nothing else (R210, R211). -/
def refusedWith (s : State) (e : ErrCode) : State :=
  { s with
    lastErr := e
    firstErr := if s.firstErr = .ok then e else s.firstErr
    resp := some ⟨e, 0⟩ }

/-- The state after an error inside the ASSEMBLE pass (R159, R212); what R159 leaves unspecified is
absent (log 4). -/
def failedWith (s : State) (e : ErrCode) : State :=
  { s with
    phase := .failed
    olen := 0
    out := []
    fixups := []
    scr := 0
    scrn := 0
    curV := false
    labels := s.labels.map fun l => { l with off := none }
    lastErr := e
    firstErr := if s.firstErr = .ok then e else s.firstErr
    resp := some ⟨e, 0⟩ }

/-- The scratch is empty and `n` more bytes and `f` more fixups fit. -/
abbrev Ready (s : State) (n f : Nat) : Prop :=
  s.scr = 0 ∧ s.scrn = 0 ∧ s.olen + n ≤ s.cfg.outMax ∧ s.nf + f ≤ s.cfg.nFixupMax

/-- The instruction completes in `s`: it appends exactly these bytes to `OUT` and these entries to the
fixup queue, every byte outside them reads as before, and no other field changes. -/
def Emits (i : Instr) (s : State) (bs : List Byte) (fx : List Fixup) : Prop :=
  ∃ m : Memory,
    exec i s = .next { s with out := m, olen := s.olen + bs.length, fixups := s.fixups ++ fx } ∧
      ∀ a, Memory.read m a =
        if s.olen ≤ a ∧ a < s.olen + bs.length then bs[a - s.olen]? else Memory.read s.out a

/-- The payload bytes and fixup entries of an op2 whose payload starts at offset `p`: a placeholder and
its entry for a local label, the name's bytes for an external symbol, `n` low bytes of a literal. -/
def opPayload (s : State) (p n : Nat) : Option Operand → List Byte × List Fixup
  | some (.symbol name) =>
    if (lookup s.labels name).isSome then ([0, 0, 0, 0], [⟨p, name⟩]) else (name, [])
  | some (.literal v) => (leBytes n v, [])
  | some (.register _) | some (.indirect _) | none => ([], [])

/-- The register code of an op2, 0 when it has none. -/
def op2Reg : Option Operand → Byte
  | some (.register r) | some (.indirect r) => r.setWidth 8
  | some (.symbol _) | some (.literal _) | none => 0

/-- Is the op2 a register or register-indirect operand? -/
def op2IsReg : Option Operand → Bool
  | some (.register _) | some (.indirect _) => true
  | some (.symbol _) | some (.literal _) | none => false

/-- `k2` of R171, R172, R186: 00 REGISTER or absent, 01 INDIRECT, 10 SYMBOL, 11 LITERAL. -/
def k2Of : Option Operand → Byte
  | none | some (.register _) => 0
  | some (.indirect _) => 1
  | some (.symbol _) => 2
  | some (.literal _) => 3

/-- `k1` of R181, R186. -/
def k1Of : Option RegOperand → Byte
  | none | some (.register _) => 0
  | some (.indirect _) => 1

/-- The register code of an op1, 0 when absent. -/
def op1RegOf : Option RegOperand → Byte
  | none => 0
  | some (.register r) | some (.indirect r) => r.setWidth 8

/-- `s` of R181, R186: the size code, WORD when unset. -/
def sizeNum : Option Size → Nat
  | some .byte => 0
  | some .hword => 1
  | some .word => 2
  | none => 2
  | some .dword => 3

/-- `c` of R171: the condition code of R75, AL = 8 when unset. -/
def condNum : Option Cond → Byte
  | some .nv => 0 | some .nz => 1 | some .nc => 2 | some .pl => 3 | some .vc => 4 | some .ls => 5
  | some .lt => 6 | some .le => 7 | some .al => 8 | none => 8 | some .zr => 9 | some .cs => 10
  | some .mi => 11 | some .vs => 12 | some .hi => 13 | some .ge => 14 | some .gt => 15

/-- The twelve binary instructions with the codes R187 to R198 give them. -/
def binaryInstrs : List (Byte × (Option Size → Option RegOperand → Option Operand → Instr)) :=
  [(0x1, .add), (0x2, .sub), (0x3, .mul), (0x4, .div), (0x5, .cmp), (0x6, .tst), (0x7, .and),
    (0x8, .or), (0x9, .xor), (0xB, .lsl), (0xC, .lsr), (0xD, .mov)]

/-- The twelve binary opcodes (R112). -/
def binaryOpcodes : List Opcode :=
  [.add, .sub, .mul, .div, .cmp, .tst, .and, .or, .xor, .lsl, .lsr, .mov]

/-- The numbers of R200. -/
def errNum : ErrCode → Word
  | .ok => 0 | .invalidOperand => 1 | .duplicateLabel => 2 | .undefinedSymbol => 3
  | .unsupportedEncoding => 4 | .capacityExceeded => 5 | .invalidState => 6 | .badCommand => 7

/-- How many fixup entries a record adds: one when its op2 names a local label (R151, R152). -/
def refsOf (ls : List Label) (r : Record) : Nat :=
  if ((opSymbol r.op2).bind (lookup ls)).isSome then 1 else 0

/-- How many bytes stand before the payload of a symbol or literal op2 (R87). -/
def headLen (r : Record) : Nat := 1 + (headBits r + 7) / 8

/-- Which of the four fields a setting command sets; nothing for any other instruction. -/
def settingField : Instr → Option Nat
  | .setCond _ => some 0
  | .setSize _ => some 1
  | .setOp1 _ => some 2
  | .setOp2 _ => some 3
  | _ => none

/-- The commands legal only in BUILD (R206, third to fifth rows). -/
def buildOnly : Instr → Bool
  | .addLabel _ | .addInstr _ | .addNop | .addRet | .setCond _ | .setSize _ | .setOp1 _ | .setOp2 _
  | .assemble => true
  | _ => false

/-- The builder commands of R210. -/
def builderCommand : Instr → Bool
  | .addLabel _ | .addInstr _ | .addNop | .addRet | .setCond _ | .setSize _ | .setOp1 _
  | .setOp2 _ => true
  | _ => false

/-- The four reserved commands. -/
def reservedCommands : List Instr := [.reservedC, .reservedD, .reservedE, .reservedF]

/-- A label without what ASSEMBLE writes in it. -/
def labelKey (l : Label) : SymName × Nat := (l.name, l.idx)

/-- The emit pass done by `exec`, one instruction after another; it ends where an instruction leaves
phase BUILD or does not answer a next state (R141). -/
def execPass (i : Nat) : List Record → State → Host.Outcome State Fault Refusal
  | [], s => .next s
  | r :: rs, s =>
    match exec r.instr (recordLabels i s) with
    | .next t => if t.phase = .build then execPass (i + 1) rs t else .next t
    | .fault f => .fault f
    | .refused x => .refused x

end Sys2Proof.Machine

open Sys2Proof Sys2Proof.Machine

/-! ## Reset -/

/-- R230, R37: what reset leaves, with whatever parameters. -/
def Obligations.ResetLeavesEmptyProgram : Prop :=
  ∀ c : Config,
    let s := State.resetOf c
    s.phase = .build ∧ s.ni = 0 ∧ s.nl = 0 ∧ s.nf = 0 ∧ s.olen = 0 ∧ s.curV = false ∧ s.scr = 0 ∧
      s.scrn = 0 ∧ s.lastErr = .ok ∧ s.firstErr = .ok ∧ ∀ a, Memory.read s.out a = none

/-- R110: RESET answers in every phase with the state of reset; the parameters and what the client has
yet to send stay (the port is the model's own field, log 1). -/
def Obligations.ResetCommandGivesResetState : Prop :=
  ∀ s : State,
    exec .reset s =
      .next { State.resetOf s.cfg with port := s.port, resp := some ⟨.ok, 0⟩ }

/-- R231: the first command after reset. -/
def Obligations.FirstCommandAfterReset : Prop :=
  ∀ c : Config,
    (∃ t, exec .assemble (State.resetOf c) = .next t ∧ t.resp = some ⟨.ok, 0⟩ ∧ t.phase = .done ∧
      t.olen = 0) ∧
    (∀ a, errOf (exec (.readOut a) (State.resetOf c)) = some .invalidState) ∧
    (∀ i, (settingField i).isSome → errOf (exec i (State.resetOf c)) = some .invalidState) ∧
    (∀ sel, ∃ t, exec (.readReg sel) (State.resetOf c) = .next t ∧ t.resp = some ⟨.ok, 0⟩)

/-! ## Builder commands -/

/-- R113: ADD_LABEL in BUILD with a new name that fits. -/
def Obligations.AddLabelAppendsEntry : Prop :=
  ∀ (s : State) (n : SymName),
    s.phase = .build → lookup s.labels n = none → n.length ≤ s.cfg.nameMax →
    s.nl ≠ s.cfg.nLabelMax →
    exec (.addLabel n) s =
      .next { s with
        labels := s.labels ++ [⟨n, s.ni, none⟩]
        curV := false
        lastErr := .ok
        resp := some ⟨.ok, 0⟩ }

/-- R114, R202: a name already in the table is refused, whatever its length and however full the table,
and the table is unchanged; no other command and no other name gets DuplicateLabel. -/
def Obligations.DuplicateLabelHasOneCause : Prop :=
  (∀ (s : State) (n : SymName) (l : Label),
    s.phase = .build → l ∈ s.labels → l.name = n →
    exec (.addLabel n) s = .next (refusedWith s .duplicateLabel)) ∧
  ∀ (i : Instr) (s : State),
    i.isCommand = true → errOf (exec i s) = some .duplicateLabel →
    ∃ n, i = .addLabel n ∧ ∃ l ∈ s.labels, l.name = n

/-- R115: ADD_INSTR in BUILD with room, all 16 opcodes. The index answered is its low 32 bits, which for
an index beyond `2^32 - 1` is the model's choice (log 11). -/
def Obligations.AddInstrAppendsRecord : Prop :=
  ∀ (s : State) (opc : Opcode),
    s.phase = .build → s.ni ≠ s.cfg.nInstrMax →
    exec (.addInstr opc) s =
      .next { s with
        instrs := s.instrs ++ [⟨opc, none, none, none, none⟩]
        curV := true
        lastErr := .ok
        resp := some ⟨.ok, BitVec.ofNat 32 s.ni⟩ }

/-- R123: ADD_NOP in BUILD with room. The index answered is its low 32 bits, which for an index beyond
`2^32 - 1` is the model's choice (log 11). -/
def Obligations.AddNopAppendsPresetJump : Prop :=
  ∀ s : State,
    s.phase = .build → s.ni ≠ s.cfg.nInstrMax →
    exec .addNop s =
      .next { s with
        instrs := s.instrs ++ [⟨.jmp, some .nv, some .byte, none, some (.literal 0)⟩]
        curV := true
        lastErr := .ok
        resp := some ⟨.ok, BitVec.ofNat 32 s.ni⟩ }

/-- R124: ADD_RET is ADD_INSTR(0xF), and in BUILD with room it appends the RET record. The index
answered is its low 32 bits, which for an index beyond `2^32 - 1` is the model's choice (log 11). -/
def Obligations.AddRetIsAddInstrOfRet : Prop :=
  (∀ s : State, exec .addRet s = exec (.addInstr .ret) s) ∧
    ∀ s : State,
      s.phase = .build → s.ni ≠ s.cfg.nInstrMax →
      exec .addRet s =
        .next { s with
          instrs := s.instrs ++ [⟨.ret, none, none, none, none⟩]
          curV := true
          lastErr := .ok
          resp := some ⟨.ok, BitVec.ofNat 32 s.ni⟩ }

/-- R117: SET_COND on a JMP under construction whose condition is unset. -/
def Obligations.SetCondWritesCondition : Prop :=
  ∀ (s : State) (rs : List Record) (r : Record) (c : Cond),
    s.phase = .build → s.curV = true → s.instrs = rs ++ [r] → r.opc = .jmp → r.cond = none →
    exec (.setCond c) s =
      .next { s with
        instrs := rs ++ [{ r with cond := some c }]
        lastErr := .ok
        resp := some ⟨.ok, 0⟩ }

/-- R118: SET_SIZE on a unary or binary record whose size is unset. -/
def Obligations.SetSizeWritesSize : Prop :=
  ∀ (s : State) (rs : List Record) (r : Record) (z : Size),
    s.phase = .build → s.curV = true → s.instrs = rs ++ [r] → r.opc ∈ Opcode.not :: binaryOpcodes →
    r.size = none →
    exec (.setSize z) s =
      .next { s with
        instrs := rs ++ [{ r with size := some z }]
        lastErr := .ok
        resp := some ⟨.ok, 0⟩ }

/-- R119: SET_OP1 with a register or register-indirect operand, on a unary or binary record whose op1
is unset. -/
def Obligations.SetOp1WritesRegisterOperand : Prop :=
  ∀ (s : State) (rs : List Record) (r : Record) (q : Reg),
    s.phase = .build → s.curV = true → s.instrs = rs ++ [r] → r.opc ∈ Opcode.not :: binaryOpcodes →
    r.op1 = none →
    exec (.setOp1 (.register q)) s =
        .next { s with
          instrs := rs ++ [{ r with op1 := some (.register q) }]
          lastErr := .ok
          resp := some ⟨.ok, 0⟩ } ∧
      exec (.setOp1 (.indirect q)) s =
        .next { s with
          instrs := rs ++ [{ r with op1 := some (.indirect q) }]
          lastErr := .ok
          resp := some ⟨.ok, 0⟩ }

/-- R121: SET_OP2 with an operand the opcode admits (R112), op2 unset and a name that fits. -/
def Obligations.SetOp2WritesOperand : Prop :=
  ∀ (s : State) (rs : List Record) (r : Record) (o : Operand),
    s.phase = .build → s.curV = true → s.instrs = rs ++ [r] → r.op2 = none →
    (r.opc ∈ Opcode.jmp :: binaryOpcodes ∨ r.opc = .call ∧ ∀ v, o ≠ .literal v) →
    (∀ n, o = .symbol n → n.length ≤ s.cfg.nameMax) →
    exec (.setOp2 o) s =
      .next { s with
        instrs := rs ++ [{ r with op2 := some o }]
        lastErr := .ok
        resp := some ⟨.ok, 0⟩ }

/-- R112, with R201 causes 1, 3, 6, 8, 9: on a fresh record of each opcode, exactly the fields of its
row of the table can be set; any other setting is refused with InvalidOperand. -/
def Obligations.LegalityTableDecidesFreshRecord : Prop :=
  ∀ (s : State) (rs : List Record) (opc : Opcode),
    s.phase = .build → s.curV = true → s.instrs = rs ++ [⟨opc, none, none, none, none⟩] →
    (∀ c, errOf (exec (.setCond c) s) = some (if opc = .jmp then .ok else .invalidOperand)) ∧
    (∀ z, errOf (exec (.setSize z) s) =
      some (if opc ∈ Opcode.not :: binaryOpcodes then .ok else .invalidOperand)) ∧
    (∀ q, errOf (exec (.setOp1 (.register q)) s) =
      some (if opc ∈ Opcode.not :: binaryOpcodes then .ok else .invalidOperand)) ∧
    (∀ q, errOf (exec (.setOp1 (.indirect q)) s) =
      some (if opc ∈ Opcode.not :: binaryOpcodes then .ok else .invalidOperand)) ∧
    (∀ q, errOf (exec (.setOp2 (.register q)) s) =
      some (if opc ∈ Opcode.jmp :: .call :: binaryOpcodes then .ok else .invalidOperand)) ∧
    (∀ q, errOf (exec (.setOp2 (.indirect q)) s) =
      some (if opc ∈ Opcode.jmp :: .call :: binaryOpcodes then .ok else .invalidOperand)) ∧
    (∀ n, n.length ≤ s.cfg.nameMax → errOf (exec (.setOp2 (.symbol n)) s) =
      some (if opc ∈ Opcode.jmp :: .call :: binaryOpcodes then .ok else .invalidOperand)) ∧
    (∀ v, errOf (exec (.setOp2 (.literal v)) s) =
      some (if opc ∈ Opcode.jmp :: binaryOpcodes then .ok else .invalidOperand))

/-- R201 causes 2, 4, 7, 10: after a setting command that succeeded, the same field again is refused,
with any value, and nothing but the error registers and the response changes. -/
def Obligations.SecondSettingOfAFieldRefused : Prop :=
  ∀ (i j : Instr) (s t : State),
    (settingField i).isSome → settingField j = settingField i →
    exec i s = .next t → t.resp = some ⟨.ok, 0⟩ →
    exec j t = .next (refusedWith t .invalidOperand)

/-- R120: op1 takes no SYMBOL and no LITERAL, for every opcode, whatever the name's length. -/
def Obligations.Op1SymbolOrLiteralRefused : Prop :=
  ∀ (s : State) (rs : List Record) (r : Record),
    s.phase = .build → s.curV = true → s.instrs = rs ++ [r] →
    (∀ n, exec (.setOp1 (.symbol n)) s = .next (refusedWith s .invalidOperand)) ∧
      ∀ v, exec (.setOp1 (.literal v)) s = .next (refusedWith s .invalidOperand)

/-- R123, R124 (corner cases): after ADD_NOP or ADD_RET succeeded, every setting command is refused. -/
def Obligations.PseudoRecordsAreClosed : Prop :=
  ∀ (i j : Instr) (s t : State),
    i = .addNop ∨ i = .addRet → (settingField j).isSome → exec i s = .next t → t.curV = true →
    t.lastErr = .ok → exec j t = .next (refusedWith t .invalidOperand)

/-- R116: two setting commands of different fields answer the same in either order and leave the same
program: nothing but the error registers and the last response can tell the orders apart. -/
def Obligations.SettingOrderIsFree : Prop :=
  ∀ (i j : Instr) (s t u t' u' : State),
    (settingField i).isSome → (settingField j).isSome → settingField i ≠ settingField j →
    exec i s = .next t → exec j t = .next u → exec j s = .next t' → exec i t' = .next u' →
    u' = { u with lastErr := u'.lastErr, firstErr := u'.firstErr, resp := u'.resp } ∧
      t.resp = u'.resp ∧ u.resp = t'.resp

/-- R205 checks 1 to 4: a full store or an over-long name is refused, after the checks that come
before (R209). -/
def Obligations.BuilderCapacityRefused : Prop :=
  ∀ s : State, s.phase = .build →
    (∀ n, lookup s.labels n = none → s.cfg.nameMax < n.length →
      exec (.addLabel n) s = .next (refusedWith s .capacityExceeded)) ∧
    (∀ n, lookup s.labels n = none → s.nl = s.cfg.nLabelMax →
      exec (.addLabel n) s = .next (refusedWith s .capacityExceeded)) ∧
    (s.ni = s.cfg.nInstrMax → ∀ i, i = .addNop ∨ i = .addRet ∨ (∃ opc, i = .addInstr opc) →
      exec i s = .next (refusedWith s .capacityExceeded)) ∧
    (∀ rs r n, s.curV = true → s.instrs = rs ++ [r] → r.op2 = none →
      r.opc ∈ Opcode.jmp :: .call :: binaryOpcodes → s.cfg.nameMax < n.length →
      exec (.setOp2 (.symbol n)) s = .next (refusedWith s .capacityExceeded))

/-- R125, R210: a builder command that raises changes only the error registers and the response. -/
def Obligations.BuilderFailureLeavesProgram : Prop :=
  ∀ (i : Instr) (s t : State),
    builderCommand i = true → exec i s = .next t → t.lastErr ≠ .ok →
    t = refusedWith s t.lastErr

/-! ## Phases, errors, status -/

/-- R206, R208: the phase table. A command answers InvalidState exactly where the table says so, and
then changes nothing but the error registers and the response (R210, R211); a reserved code answers
BadCommand in every phase. -/
def Obligations.PhaseTableDecidesInvalidState : Prop :=
  ∀ (i : Instr) (s : State), i.isCommand = true →
    (errOf (exec i s) = some .invalidState ↔
      buildOnly i = true ∧ s.phase ≠ .build ∨
        (settingField i).isSome ∧ s.phase = .build ∧ s.curV = false ∨
        (∃ a, i = .readOut a) ∧ s.phase ≠ .done) ∧
    (errOf (exec i s) = some .invalidState → exec i s = .next (refusedWith s .invalidState)) ∧
    (i ∈ reservedCommands → errOf (exec i s) = some .badCommand)

/-- R204: BadCommand for the command codes 0xC to 0xF, in every phase and with no payload consumed, and
for READ_OUT in DONE at or beyond `OLEN`; no other command gets it. -/
def Obligations.BadCommandHasTwoCauses : Prop :=
  (∀ (s : State) (i : Instr), i ∈ reservedCommands →
    exec i s = .next (refusedWith s .badCommand)) ∧
  (∀ (c : Config) (h : Word) (bs : List Beat), 0xC ≤ (h.extractLsb' 28 4).toNat →
    ∃ i ∈ reservedCommands, decodeCommand c (.word h :: bs) = .ok (i, bs)) ∧
  (∀ (s : State) (a : Word), s.phase = .done → s.olen ≤ a.toNat →
    exec (.readOut a) s = .next (refusedWith s .badCommand)) ∧
  ∀ (i : Instr) (s : State), i.isCommand = true → errOf (exec i s) = some .badCommand →
    i ∈ reservedCommands ∨ ∃ a, i = .readOut a ∧ s.phase = .done ∧ s.olen ≤ a.toNat

/-- R34, R126: READ_REG answers the selected register in every phase and writes no state but the
response, the model's own field (log 2). A count is shown as its low 32 bits, which for one beyond
`2^32 - 1` is the model's choice (log 11). -/
def Obligations.ReadRegAnswersRegister : Prop :=
  ∀ (s : State) (sel : BitVec 4),
    ∃ d : Word, exec (.readReg sel) s = .next { s with resp := some ⟨.ok, d⟩ } ∧
      (sel = 0 → d = match s.phase with | .build => 0 | .done => 1 | .failed => 2) ∧
      (sel = 1 → d = BitVec.ofNat 32 s.ni) ∧
      (sel = 2 → d = BitVec.ofNat 32 s.nl) ∧
      (sel = 3 → d = BitVec.ofNat 32 s.nf) ∧
      (sel = 4 → d = BitVec.ofNat 32 s.olen) ∧
      (sel = 5 → d = errNum s.lastErr) ∧
      (sel = 6 → d = errNum s.firstErr) ∧
      (sel = 7 → d = if s.curV then 1 else 0) ∧
      (8 ≤ sel.toNat → d = 0)

/-- R161: READ_OUT in DONE below `OLEN` answers the byte. -/
def Obligations.ReadOutAnswersByte : Prop :=
  ∀ (s : State) (a : Word) (b : Byte),
    s.phase = .done → a.toNat < s.olen → Memory.read s.out a.toNat = some b →
    exec (.readOut a) s =
      .next { s with lastErr := .ok, resp := some ⟨.ok, BitVec.ofNat 32 b.toNat⟩ }

/-- R213: every command but READ_REG writes `LAST_ERR` with the response's code; `FIRST_ERR` keeps its
first value until RESET; a failed response carries data 0 (R98). -/
def Obligations.ErrorRegistersFollowResponse : Prop :=
  ∀ (i : Instr) (s t : State),
    i.isCommand = true → (∀ sel, i ≠ .readReg sel) → exec i s = .next t →
    ∃ r, t.resp = some r ∧ t.lastErr = r.err ∧ (r.err ≠ .ok → r.data = 0) ∧
      (i ≠ .reset → t.firstErr = if s.firstErr = .ok then r.err else s.firstErr) ∧
      (i = .reset → t.firstErr = .ok)

/-- R22: no command but RESET leaves DONE or FAILED. -/
def Obligations.OnlyResetLeavesFinalPhase : Prop :=
  ∀ (i : Instr) (s t : State),
    i.isCommand = true → i ≠ .reset → s.phase ≠ .build → exec i s = .next t → t.phase = s.phase

/-- R161 (corner cases), R211: in DONE no command but RESET changes the output. -/
def Obligations.OutputImmutableInDone : Prop :=
  ∀ (i : Instr) (s t : State),
    i.isCommand = true → i ≠ .reset → s.phase = .done → exec i s = .next t →
    t.olen = s.olen ∧ (∀ a, Memory.read t.out a = Memory.read s.out a) ∧ t.fixups = s.fixups ∧
      t.labels = s.labels

/-- R127: no command but RESET removes, reorders or edits a finished instruction or a label; RESET
discards the program. -/
def Obligations.ProgramIsAppendOnly : Prop :=
  ∀ (i : Instr) (s t : State),
    i.isCommand = true → exec i s = .next t →
    (i ≠ .reset →
      s.instrs.dropLast <+: t.instrs ∧ (s.curV = false → s.instrs <+: t.instrs) ∧
        s.instrs.length ≤ t.instrs.length ∧
        s.labels.map labelKey <+: t.labels.map labelKey) ∧
      (i = .reset → t.instrs = [] ∧ t.labels = [])

/-- R36, R225, log 1, log 3: no instruction changes a parameter or what the client has yet to send. -/
def Obligations.InstructionsKeepParametersAndPort : Prop :=
  ∀ (i : Instr) (s t : State), exec i s = .next t → t.cfg = s.cfg ∧ t.port = s.port

/-! ## Emission -/

/-- R171: JMP in every form; the condition nibble is always there, AL when unset. -/
def Obligations.JmpEmitsConditionAndTarget : Prop :=
  ∀ (s : State) (c : Option Cond) (o : Option Operand),
    litBelowCeiling o = true →
    let p := opPayload s (s.olen + 2) 4 o
    let bs := [0x00 ||| k2Of o <<< 1, condNum c <<< 4 ||| op2Reg o <<< 1] ++ p.1
    Ready s bs.length p.2.length → Emits (.jmp c o) s bs p.2

/-- R172: CALL in every form it has; a payload stands directly after the instruction byte. -/
def Obligations.CallEmitsTarget : Prop :=
  ∀ (s : State) (o : Option Operand),
    (∀ v, o ≠ some (.literal v)) →
    let p := opPayload s (s.olen + 1) 4 o
    let bs := [0xE0 ||| k2Of o <<< 1] ++ (if op2IsReg o then [op2Reg o <<< 5] else []) ++ p.1
    Ready s bs.length p.2.length → Emits (.call o) s bs p.2

/-- R173: RET is emitted as `JMP LR`. -/
def Obligations.RetEmitsJumpThroughLinkRegister : Prop :=
  ∀ s : State, Ready s 2 0 →
    Emits .ret s [0x00, 0x80 ||| (s.cfg.lrReg.setWidth 8 <<< 1)] [] ∧
      exec .ret s = exec (.jmp none (some (.register s.cfg.lrReg))) s

/-- R174: NOP is `06 00 00`. -/
def Obligations.NopEmitsCanonicalBytes : Prop :=
  ∀ s : State, Ready s 3 0 → Emits .nop s [0x06, 0x00, 0x00] []

/-- R181: NOT is always exactly two bytes. -/
def Obligations.NotEmitsTwoBytes : Prop :=
  ∀ (s : State) (z : Option Size) (o : Option RegOperand), Ready s 2 0 →
    Emits (.not z o) s
      [0xA0 ||| k1Of o <<< 3, (BitVec.ofNat 8 (sizeNum z) <<< 6) ||| op1RegOf o <<< 3] []

/-- R186 for each of the twelve binary instructions with the code of its rule R187 to R198. -/
def Obligations.BinaryEmitsSizeOperandsPayload : Prop :=
  ∀ q ∈ binaryInstrs,
    ∀ (s : State) (z : Option Size) (o1 : Option RegOperand) (o2 : Option Operand),
      litBelowCeiling o2 = true →
      let p := opPayload s (s.olen + 2) (2 ^ sizeNum z) o2
      let b0 := q.1 <<< 4 ||| k1Of o1 <<< 3 ||| k2Of o2 <<< 1
      let tail := (BitVec.ofNat 8 (sizeNum z) <<< 6) ||| op1RegOf o1 <<< 3 |||
        op2Reg o2 <<< (if o1.isSome then 0 else 3)
      let bs := [b0, tail] ++ p.1
      Ready s bs.length p.2.length → Emits (q.2 z o1 o2) s bs p.2

/-- R54, R205 check 5, R212: an instruction whose bytes do not all fit fails the pass with
CapacityExceeded, and nothing of it is readable. -/
def Obligations.EmissionBeyondBufferFailsPass : Prop :=
  ∀ (i : Instr) (r : Record) (s : State),
    recordOf i = some r → s.scr = 0 → s.scrn = 0 → litBelowCeiling r.op2 = true →
    s.nf + refsOf s.labels r ≤ s.cfg.nFixupMax → s.olen ≤ s.cfg.outMax →
    s.cfg.outMax < s.olen + recordLen s.cfg s.labels r →
    exec i s = .next (failedWith s .capacityExceeded)

/-- R152, R205 check 6: a local reference with the fixup queue full fails the pass before any byte of
the placeholder. -/
def Obligations.FullFixupQueueFailsPass : Prop :=
  ∀ (i : Instr) (r : Record) (n : SymName) (s : State),
    recordOf i = some r → r.op2 = some (.symbol n) → (lookup s.labels n).isSome → s.scr = 0 →
    s.scrn = 0 → s.olen + headLen r ≤ s.cfg.outMax → s.nf = s.cfg.nFixupMax →
    exec i s = .next (failedWith s .capacityExceeded)

/-- R153, R207: a literal of `2^64` or more fails the pass whatever the size. -/
def Obligations.LiteralBeyondCeilingFailsPass : Prop :=
  ∀ (i : Instr) (r : Record) (v : Nat) (s : State),
    recordOf i = some r → r.op2 = some (.literal v) → 2 ^ 64 ≤ v → s.scr = 0 → s.scrn = 0 →
    s.olen + headLen r ≤ s.cfg.outMax → exec i s = .next (failedWith s .unsupportedEncoding)

/-- R87 against R141: what the bit packer of the emit pass appends is what the format table gives, with
zeros for the placeholder of a local label. -/
def Obligations.EmissionAgreesWithFormatTable : Prop :=
  ∀ (i : Instr) (r : Record) (s : State) (bs : List Byte),
    recordOf i = some r → litBelowCeiling r.op2 = true →
    encodeBytecode s.cfg (fun n => (lookup s.labels n).map fun _ => 0) i = some bs →
    Ready s bs.length (refsOf s.labels r) →
    ∃ fx, Emits i s bs fx ∧ (∀ f ∈ fx, f.off + 4 = s.olen + bs.length) ∧
      fx.map Fixup.name = (opSymbol r.op2).toList.filter fun n => (lookup s.labels n).isSome

/-- R92: the length of what an instruction appends, and the scratch is empty again (R154). -/
def Obligations.EmittedLengthFollowsFormula : Prop :=
  ∀ (i : Instr) (r : Record) (s : State),
    recordOf i = some r → litBelowCeiling r.op2 = true →
    Ready s (recordLen s.cfg s.labels r) (refsOf s.labels r) →
    ∃ t, exec i s = .next t ∧ t.olen = s.olen + recordLen s.cfg s.labels r ∧ t.scr = 0 ∧ t.scrn = 0

/-- R89 (1) to (5): the instruction bytes no record of the builder gives. -/
def Obligations.ReservedInstructionBytesNeverEmitted : Prop :=
  ∀ (i : Instr) (r : Record) (s : State),
    recordOf i = some r → r.legal s.cfg = true → litBelowCeiling r.op2 = true →
    Ready s (recordLen s.cfg s.labels r) (refsOf s.labels r) →
    ∃ t b, exec i s = .next t ∧ Memory.read t.out s.olen = some b ∧ b.getLsbD 0 = false ∧
      b.extractLsb' 4 4 ≠ 0xF ∧
      (b.extractLsb' 4 4 = 0x0 ∨ b.extractLsb' 4 4 = 0xE → b.extractLsb' 3 1 = 0) ∧
      (b.extractLsb' 4 4 = 0xE → b.extractLsb' 1 2 ≠ 0b11) ∧
      (b.extractLsb' 4 4 = 0xA → b.extractLsb' 1 2 = 0b00)

/-- R141, R159: in any state, a bytecode instruction that answers either fails the pass or touches
nothing but the scratch, the fixup queue (appending) and `OUT` at and above `OLEN`. -/
def Obligations.EmissionFrame : Prop :=
  ∀ (i : Instr) (s t : State),
    i.isCommand = false → exec i s = .next t →
    (∃ e, e ≠ .ok ∧ t = failedWith s e) ∨
      ∃ fx, t = { s with
          out := t.out, olen := t.olen, scr := t.scr, scrn := t.scrn, fixups := s.fixups ++ fx } ∧
        s.olen ≤ t.olen ∧
        ∀ a, a < s.olen ∨ t.olen ≤ a → Memory.read t.out a = Memory.read s.out a

/-! ## ASSEMBLE -/

/-- R140, R162 (3), (4): ASSEMBLE of a program that fits completes, and `OUT` reads as the
concatenation of the encodings of its records, every symbol of a label as the label's offset. -/
def Obligations.AssembleEncodesProgram : Prop :=
  ∀ s : State, Inv s → s.phase = .build → Assemblable s →
    ∃ t, exec .assemble s = .next t ∧ t.phase = .done ∧ t.resp = some ⟨.ok, 0⟩ ∧ t.lastErr = .ok ∧
      t.firstErr = s.firstErr ∧ t.curV = false ∧ t.scr = 0 ∧ t.scrn = 0 ∧ t.instrs = s.instrs ∧
      t.cfg = s.cfg ∧ t.port = s.port ∧ t.olen = programLen s.cfg s.labels s.instrs ∧
      t.nf = localRefs s.labels s.instrs ∧
      ∀ a, Memory.read t.out a = (programBytes s.cfg s.labels s.instrs)[a]?

/-- R142, R155, R162 (2): after a successful ASSEMBLE every label holds the offset at which the
instruction it precedes begins, or the whole length past the end, and every fixup is patched with the
offset of the label it names. -/
def Obligations.AssembleResolvesLabels : Prop :=
  ∀ s t : State, Inv s → s.phase = .build → exec .assemble s = .next t → t.phase = .done →
    t.labels = s.labels.map (fun l =>
      { l with off := some (offsetOf s.cfg s.labels s.instrs l.idx) }) ∧
    ∀ f ∈ t.fixups, ∃ l ∈ s.labels, l.name = f.name ∧
      ∀ k < 4, Memory.read t.out (f.off + k) =
        some (byteOf (offsetOf s.cfg s.labels s.instrs l.idx) k)

/-- R159, R212: an error inside the pass. -/
def Obligations.AssembleFailureIsAllOrNothing : Prop :=
  ∀ s t : State, s.phase = .build → exec .assemble s = .next t → t.lastErr ≠ .ok →
    t = failedWith s t.lastErr

/-- R140, R144, R158: from a state the builder can reach, the pass raises no other error than
UnsupportedEncoding and CapacityExceeded. -/
def Obligations.AssembleRaisesOnlyEncodingOrCapacity : Prop :=
  ∀ s t : State, Inv s → s.phase = .build → exec .assemble s = .next t →
    t.lastErr = .ok ∧ t.phase = .done ∨
      t.lastErr = .unsupportedEncoding ∧ (∃ r ∈ s.instrs, litBelowCeiling r.op2 = false) ∨
      t.lastErr = .capacityExceeded ∧
        (s.cfg.outMax < programLen s.cfg s.labels s.instrs ∨
          s.cfg.nFixupMax < localRefs s.labels s.instrs)

/-- R141 (log 5): the pass of ASSEMBLE is the run, by `exec`, of the instruction each record stands
for, in order; after it come the end labels, the fixups and DONE (R140). -/
def Obligations.AssembleRunsEachInstruction : Prop :=
  ∀ s t : State, Inv s → s.phase = .build →
    execPass 0 s.instrs { s with curV := false } = .next t →
    (t.phase ≠ .build → exec .assemble s = .next t) ∧
      (t.phase = .build →
        ∃ u, fixupPass (resolveEndLabels t).fixups (resolveEndLabels t) = .ok u ∧
          exec .assemble s =
            .next { u with phase := .done, lastErr := .ok, resp := some ⟨.ok, 0⟩ })

/-- R13, R160: what ASSEMBLE produces is a function of the parameters, the instruction store and the
label table alone. -/
def Obligations.AssembleDependsOnProgramOnly : Prop :=
  ∀ s s' t t' : State, Inv s → Inv s' → s.phase = .build → s'.phase = .build → s.cfg = s'.cfg →
    s.instrs = s'.instrs → s.labels = s'.labels → exec .assemble s = .next t →
    exec .assemble s' = .next t' →
    t.phase = t'.phase ∧ t.out = t'.out ∧ t.olen = t'.olen ∧ t.fixups = t'.fixups ∧
      t.labels = t'.labels ∧ t.resp = t'.resp

/-! ## The invariant -/

/-- R38 (1) to (8): every step keeps what holds between two commands. -/
def Obligations.StepKeepsInvariant : Prop :=
  ∀ s t : State, Inv s → step s = .next t → Inv t

/-- R37, R38: it holds after reset, for every choice of parameters that meets R7. -/
def Obligations.ResetMeetsInvariant : Prop :=
  Inv State.reset ∧ ∀ c : Config, c.wf → Inv (State.resetOf c)

/-- R216: from a state that meets the invariant every command answers: a next state with a response, no
fault and no refusal. -/
def Obligations.EveryCommandAnswers : Prop :=
  ∀ (s : State) (i : Instr), Inv s → i.isCommand = true →
    ∃ t r, exec i s = .next t ∧ t.resp = some r

/-! ## Encodings and the step -/

/-- R96, R97: decoding an encoded well-formed command gives it back and leaves the rest of the port. -/
def Obligations.CommandDecodeEncode : Prop :=
  ∀ (c : Config) (i : Instr) (bs rest : List Beat),
    i.wf c = true → encodeCommand c i = some bs → decodeCommand c (bs ++ rest) = .ok (i, rest)

/-- R70 to R87 with the premises of U3, U4 and U5: decoding the bytes of a decodable instruction, told
about its symbol from outside, gives it back and leaves the rest of the stream. `ENC` has no such
reader; it is the model's own (log 7). -/
def Obligations.BytecodeDecodeEncode : Prop :=
  ∀ (c : Config) (resolve : SymName → Option Nat) (i : Instr) (bs rest : List Byte),
    i.decodable = true → encodeBytecode c resolve i = some bs →
    decodeBytecode (symInfoFor resolve i) (bs ++ rest) = .ok (i, rest)

/-- R89, U10: bytes that decode are the encoding of what they decode to, and that is a decodable
instruction, so no CALL with a literal and no other reserved pattern decodes (a local label's 4 bytes
are not in the instruction, and are left out). `ENC` has no such reader; it is the model's own
(log 7). -/
def Obligations.BytecodeEncodeDecode : Prop :=
  ∀ (c : Config) (sym : Option SymInfo) (i : Instr) (bytes rest : List Byte),
    (∀ n, sym ≠ some (.localLabel n)) → decodeBytecode sym bytes = .ok (i, rest) →
    i.decodable = true ∧ ∃ bs, encodeBytecode c (fun _ => none) i = some bs ∧ bytes = bs ++ rest

/-- R95: what the port decodes is a well-formed command. Where `LIT_W` is no multiple of 32, that a
literal's surplus payload bits are ignored is the model's choice (log 10). -/
def Obligations.DecodedCommandIsWellFormed : Prop :=
  ∀ (c : Config) (bs rest : List Beat) (i : Instr),
    decodeCommand c bs = .ok (i, rest) → i.isCommand = true ∧ i.wf c = true

/-- R12, R95: a step runs the command at the head of the port and leaves the rest of the port. The
model's own choices: with no whole command there the machine waits (log 8), and a byte where a word
is due, or the reverse, is refused (log 9). -/
def Obligations.StepRunsDecodedCommand : Prop :=
  (∀ (s : State) (i : Instr) (rest : List Beat),
    decodeCommand s.cfg s.port = .ok (i, rest) → step s = exec i { s with port := rest }) ∧
  (∀ s : State, decodeCommand s.cfg s.port = .error .incomplete → step s = .next s) ∧
  (∀ s : State, s.port = [] → step s = .next s) ∧
  (∀ s : State, decodeCommand s.cfg s.port = .error .framing → step s = .refused .portFraming)

/-- A few words written out from the encodings of R71, R87, R96 and R97 (spec/95_test_vectors.md V-C3,
V-N1, V-N5). Reading the three bytecode words back, with the size given, is the model's own reader's
choice (log 7); the two header words are the port's. -/
def Obligations.SpecWordsDecode : Prop :=
  decodeBytecode none [0x02, 0x94] = .ok (.jmp (some .zr) (some (.indirect 2)), []) ∧
    decodeBytecode none [0x10, 0x8A] =
      .ok (.add (some .word) (some (.register 1)) (some (.register 2)), []) ∧
    decodeBytecode none [0x1A, 0x3F] =
      .ok (.add (some .byte) (some (.indirect 7)) (some (.indirect 7)), []) ∧
    decodeCommand Config.default [.word 0x2000000D] = .ok (.addInstr .mov, []) ∧
    decodeCommand Config.default [.word 0x60000011] = .ok (.setOp2 (.indirect 1), [])
end

