-- ==== Sys2Proof/Laws/State.lean ====
section
/-! SUPPORT. One lemma per field per named update of the state, so that no later proof unfolds one. -/

namespace Sys2Proof.Machine

/-! ### `State.raise` -/

@[simp] theorem State.raise_cfg (s : State) (e : ErrCode) : (s.raise e).cfg = s.cfg := rfl
@[simp] theorem State.raise_phase (s : State) (e : ErrCode) : (s.raise e).phase = s.phase := rfl
@[simp] theorem State.raise_instrs (s : State) (e : ErrCode) : (s.raise e).instrs = s.instrs := rfl
@[simp] theorem State.raise_curV (s : State) (e : ErrCode) : (s.raise e).curV = s.curV := rfl
@[simp] theorem State.raise_labels (s : State) (e : ErrCode) : (s.raise e).labels = s.labels := rfl
@[simp] theorem State.raise_fixups (s : State) (e : ErrCode) : (s.raise e).fixups = s.fixups := rfl
@[simp] theorem State.raise_out (s : State) (e : ErrCode) : (s.raise e).out = s.out := rfl
@[simp] theorem State.raise_olen (s : State) (e : ErrCode) : (s.raise e).olen = s.olen := rfl
@[simp] theorem State.raise_scr (s : State) (e : ErrCode) : (s.raise e).scr = s.scr := rfl
@[simp] theorem State.raise_scrn (s : State) (e : ErrCode) : (s.raise e).scrn = s.scrn := rfl
@[simp] theorem State.raise_lastErr (s : State) (e : ErrCode) : (s.raise e).lastErr = e := rfl
@[simp] theorem State.raise_firstErr (s : State) (e : ErrCode) : (s.raise e).firstErr = stickyErr s.firstErr e := rfl
@[simp] theorem State.raise_port (s : State) (e : ErrCode) : (s.raise e).port = s.port := rfl
@[simp] theorem State.raise_resp (s : State) (e : ErrCode) : (s.raise e).resp = some ⟨e, 0⟩ := rfl

/-! ### `State.answer` -/

@[simp] theorem State.answer_cfg (s : State) (d : Word) : (s.answer d).cfg = s.cfg := rfl
@[simp] theorem State.answer_phase (s : State) (d : Word) : (s.answer d).phase = s.phase := rfl
@[simp] theorem State.answer_instrs (s : State) (d : Word) : (s.answer d).instrs = s.instrs := rfl
@[simp] theorem State.answer_curV (s : State) (d : Word) : (s.answer d).curV = s.curV := rfl
@[simp] theorem State.answer_labels (s : State) (d : Word) : (s.answer d).labels = s.labels := rfl
@[simp] theorem State.answer_fixups (s : State) (d : Word) : (s.answer d).fixups = s.fixups := rfl
@[simp] theorem State.answer_out (s : State) (d : Word) : (s.answer d).out = s.out := rfl
@[simp] theorem State.answer_olen (s : State) (d : Word) : (s.answer d).olen = s.olen := rfl
@[simp] theorem State.answer_scr (s : State) (d : Word) : (s.answer d).scr = s.scr := rfl
@[simp] theorem State.answer_scrn (s : State) (d : Word) : (s.answer d).scrn = s.scrn := rfl
@[simp] theorem State.answer_lastErr (s : State) (d : Word) : (s.answer d).lastErr = .ok := rfl
@[simp] theorem State.answer_firstErr (s : State) (d : Word) : (s.answer d).firstErr = s.firstErr := rfl
@[simp] theorem State.answer_port (s : State) (d : Word) : (s.answer d).port = s.port := rfl
@[simp] theorem State.answer_resp (s : State) (d : Word) : (s.answer d).resp = some ⟨.ok, d⟩ := rfl

/-! ### `State.abandon` -/

@[simp] theorem State.abandon_cfg (s : State) : s.abandon.cfg = s.cfg := rfl
@[simp] theorem State.abandon_phase (s : State) : s.abandon.phase = .failed := rfl
@[simp] theorem State.abandon_instrs (s : State) : s.abandon.instrs = s.instrs := rfl
@[simp] theorem State.abandon_curV (s : State) : s.abandon.curV = false := rfl
@[simp] theorem State.abandon_labels (s : State) : s.abandon.labels = s.labels.map Label.unresolved := rfl
@[simp] theorem State.abandon_fixups (s : State) : s.abandon.fixups = [] := rfl
@[simp] theorem State.abandon_out (s : State) : s.abandon.out = [] := rfl
@[simp] theorem State.abandon_olen (s : State) : s.abandon.olen = 0 := rfl
@[simp] theorem State.abandon_scr (s : State) : s.abandon.scr = 0 := rfl
@[simp] theorem State.abandon_scrn (s : State) : s.abandon.scrn = 0 := rfl
@[simp] theorem State.abandon_lastErr (s : State) : s.abandon.lastErr = s.lastErr := rfl
@[simp] theorem State.abandon_firstErr (s : State) : s.abandon.firstErr = s.firstErr := rfl
@[simp] theorem State.abandon_port (s : State) : s.abandon.port = s.port := rfl
@[simp] theorem State.abandon_resp (s : State) : s.abandon.resp = s.resp := rfl

/-! ### `State.failPass` -/

@[simp] theorem State.failPass_cfg (s : State) (e : ErrCode) : (s.failPass e).cfg = s.cfg := rfl
@[simp] theorem State.failPass_phase (s : State) (e : ErrCode) : (s.failPass e).phase = .failed := rfl
@[simp] theorem State.failPass_instrs (s : State) (e : ErrCode) : (s.failPass e).instrs = s.instrs := rfl
@[simp] theorem State.failPass_curV (s : State) (e : ErrCode) : (s.failPass e).curV = false := rfl
@[simp] theorem State.failPass_labels (s : State) (e : ErrCode) : (s.failPass e).labels = s.labels.map Label.unresolved := rfl
@[simp] theorem State.failPass_fixups (s : State) (e : ErrCode) : (s.failPass e).fixups = [] := rfl
@[simp] theorem State.failPass_out (s : State) (e : ErrCode) : (s.failPass e).out = [] := rfl
@[simp] theorem State.failPass_olen (s : State) (e : ErrCode) : (s.failPass e).olen = 0 := rfl
@[simp] theorem State.failPass_scr (s : State) (e : ErrCode) : (s.failPass e).scr = 0 := rfl
@[simp] theorem State.failPass_scrn (s : State) (e : ErrCode) : (s.failPass e).scrn = 0 := rfl
@[simp] theorem State.failPass_lastErr (s : State) (e : ErrCode) : (s.failPass e).lastErr = e := rfl
@[simp] theorem State.failPass_firstErr (s : State) (e : ErrCode) : (s.failPass e).firstErr = stickyErr s.firstErr e := rfl
@[simp] theorem State.failPass_port (s : State) (e : ErrCode) : (s.failPass e).port = s.port := rfl
@[simp] theorem State.failPass_resp (s : State) (e : ErrCode) : (s.failPass e).resp = some ⟨e, 0⟩ := rfl

/-! ### `recordLabels` -/

@[simp] theorem recordLabels_cfg (i : Nat) (s : State) : (recordLabels i s).cfg = s.cfg := rfl
@[simp] theorem recordLabels_phase (i : Nat) (s : State) : (recordLabels i s).phase = s.phase := rfl
@[simp] theorem recordLabels_instrs (i : Nat) (s : State) : (recordLabels i s).instrs = s.instrs := rfl
@[simp] theorem recordLabels_curV (i : Nat) (s : State) : (recordLabels i s).curV = s.curV := rfl
@[simp] theorem recordLabels_labels (i : Nat) (s : State) : (recordLabels i s).labels = s.labels.map (Label.record i s.olen) := rfl
@[simp] theorem recordLabels_fixups (i : Nat) (s : State) : (recordLabels i s).fixups = s.fixups := rfl
@[simp] theorem recordLabels_out (i : Nat) (s : State) : (recordLabels i s).out = s.out := rfl
@[simp] theorem recordLabels_olen (i : Nat) (s : State) : (recordLabels i s).olen = s.olen := rfl
@[simp] theorem recordLabels_scr (i : Nat) (s : State) : (recordLabels i s).scr = s.scr := rfl
@[simp] theorem recordLabels_scrn (i : Nat) (s : State) : (recordLabels i s).scrn = s.scrn := rfl
@[simp] theorem recordLabels_lastErr (i : Nat) (s : State) : (recordLabels i s).lastErr = s.lastErr := rfl
@[simp] theorem recordLabels_firstErr (i : Nat) (s : State) : (recordLabels i s).firstErr = s.firstErr := rfl
@[simp] theorem recordLabels_port (i : Nat) (s : State) : (recordLabels i s).port = s.port := rfl
@[simp] theorem recordLabels_resp (i : Nat) (s : State) : (recordLabels i s).resp = s.resp := rfl

/-! ### `resolveEndLabels` -/

@[simp] theorem resolveEndLabels_cfg (s : State) : (resolveEndLabels s).cfg = s.cfg := rfl
@[simp] theorem resolveEndLabels_phase (s : State) : (resolveEndLabels s).phase = s.phase := rfl
@[simp] theorem resolveEndLabels_instrs (s : State) : (resolveEndLabels s).instrs = s.instrs := rfl
@[simp] theorem resolveEndLabels_curV (s : State) : (resolveEndLabels s).curV = s.curV := rfl
@[simp] theorem resolveEndLabels_labels (s : State) : (resolveEndLabels s).labels = s.labels.map (Label.recordEnd s.olen) := rfl
@[simp] theorem resolveEndLabels_fixups (s : State) : (resolveEndLabels s).fixups = s.fixups := rfl
@[simp] theorem resolveEndLabels_out (s : State) : (resolveEndLabels s).out = s.out := rfl
@[simp] theorem resolveEndLabels_olen (s : State) : (resolveEndLabels s).olen = s.olen := rfl
@[simp] theorem resolveEndLabels_scr (s : State) : (resolveEndLabels s).scr = s.scr := rfl
@[simp] theorem resolveEndLabels_scrn (s : State) : (resolveEndLabels s).scrn = s.scrn := rfl
@[simp] theorem resolveEndLabels_lastErr (s : State) : (resolveEndLabels s).lastErr = s.lastErr := rfl
@[simp] theorem resolveEndLabels_firstErr (s : State) : (resolveEndLabels s).firstErr = s.firstErr := rfl
@[simp] theorem resolveEndLabels_port (s : State) : (resolveEndLabels s).port = s.port := rfl
@[simp] theorem resolveEndLabels_resp (s : State) : (resolveEndLabels s).resp = s.resp := rfl

/-! ### `State.resetOf` -/

@[simp] theorem State.resetOf_cfg (c : Config) : (State.resetOf c).cfg = c := rfl
@[simp] theorem State.resetOf_phase (c : Config) : (State.resetOf c).phase = .build := rfl
@[simp] theorem State.resetOf_instrs (c : Config) : (State.resetOf c).instrs = [] := rfl
@[simp] theorem State.resetOf_curV (c : Config) : (State.resetOf c).curV = false := rfl
@[simp] theorem State.resetOf_labels (c : Config) : (State.resetOf c).labels = [] := rfl
@[simp] theorem State.resetOf_fixups (c : Config) : (State.resetOf c).fixups = [] := rfl
@[simp] theorem State.resetOf_out (c : Config) : (State.resetOf c).out = [] := rfl
@[simp] theorem State.resetOf_olen (c : Config) : (State.resetOf c).olen = 0 := rfl
@[simp] theorem State.resetOf_scr (c : Config) : (State.resetOf c).scr = 0 := rfl
@[simp] theorem State.resetOf_scrn (c : Config) : (State.resetOf c).scrn = 0 := rfl
@[simp] theorem State.resetOf_lastErr (c : Config) : (State.resetOf c).lastErr = .ok := rfl
@[simp] theorem State.resetOf_firstErr (c : Config) : (State.resetOf c).firstErr = .ok := rfl
@[simp] theorem State.resetOf_port (c : Config) : (State.resetOf c).port = [] := rfl
@[simp] theorem State.resetOf_resp (c : Config) : (State.resetOf c).resp = none := rfl

/-! ### Labels -/

@[simp] theorem Label.unresolved_name (l : Label) : l.unresolved.name = l.name := rfl
@[simp] theorem Label.unresolved_idx (l : Label) : l.unresolved.idx = l.idx := rfl
@[simp] theorem Label.unresolved_off (l : Label) : l.unresolved.off = none := rfl

@[simp] theorem Label.record_name (i o : Nat) (l : Label) : (l.record i o).name = l.name := by
  unfold Label.record; split <;> rfl

@[simp] theorem Label.record_idx (i o : Nat) (l : Label) : (l.record i o).idx = l.idx := by
  unfold Label.record; split <;> rfl

@[simp] theorem Label.recordEnd_name (o : Nat) (l : Label) : (l.recordEnd o).name = l.name := by
  unfold Label.recordEnd; split <;> rfl

@[simp] theorem Label.recordEnd_idx (o : Nat) (l : Label) : (l.recordEnd o).idx = l.idx := by
  unfold Label.recordEnd; split <;> rfl

/-- After the end labels are resolved, every label has an offset (R155). -/
theorem Label.recordEnd_off (o : Nat) (l : Label) : (l.recordEnd o).off = some (l.off.getD o) := by
  unfold Label.recordEnd
  cases h : l.off <;> simp [h]

/-- A label keeps the offset it has (R142). -/
theorem Label.record_off_of_some {i o a : Nat} {l : Label} (h : l.off = some a) :
    (l.record i o).off = some a := by
  simp [Label.record, h]

/-- A label of the recorded index without an offset takes the current one (R142). -/
theorem Label.record_off_of_idx {i o : Nat} {l : Label} (hi : l.idx = i) (h : l.off = none) :
    (l.record i o).off = some o := by
  simp [Label.record, h, hi]

/-- A label of another index is not touched (R142). -/
theorem Label.record_of_idx_ne {i o : Nat} {l : Label} (hi : l.idx ≠ i) : l.record i o = l := by
  simp [Label.record, hi]

end Sys2Proof.Machine
end

