-- ==== Sys2Proof/Laws/Codes.lean ====
section
/-! SUPPORT. Field codes and byte strings read back (spec/30_encoding.md R72 to R76, R85). -/

namespace Sys2Proof

@[simp] theorem Opcode.ofCode_code (o : Opcode) : Opcode.ofCode o.code = o := by cases o <;> rfl

@[simp] theorem Cond.ofCode_code (c : Cond) : Cond.ofCode c.code = c := by cases c <;> rfl

@[simp] theorem Size.ofCode_code (s : Size) : Size.ofCode s.code = s := by cases s <;> rfl

@[simp] theorem Kind.ofCode_code (k : Kind) : Kind.ofCode k.code = k := by cases k <;> rfl

@[simp] theorem RegOperand.ofBits_bits (o : RegOperand) :
    RegOperand.ofBits o.kindBit o.reg = o := by cases o <;> rfl

/-- The sizes of R76, one by one. -/
theorem Size.bytes_eq :
    Size.bytes .byte = 1 ∧ Size.bytes .hword = 2 ∧ Size.bytes .word = 4 ∧ Size.bytes .dword = 8 := by
  decide

@[simp] theorem leBytes_length (n v : Nat) : (leBytes n v).length = n := by simp [leBytes]

/-- Byte `k` of a little-endian string (R56). -/
theorem leBytes_getElem? {n v k : Nat} (h : k < n) : (leBytes n v)[k]? = some (byteOf v k) := by
  simp [leBytes, h]

@[simp] theorem leWords_length (n v : Nat) : (leWords n v).length = n := by
  induction n generalizing v with
  | zero => rfl
  | succ n ih => simp [leWords, ih]

/-- A value below `2^(32n)` is the value of its `n` words (R96). -/
theorem wordsValue_leWords {n v : Nat} (h : v < 2 ^ (32 * n)) : wordsValue (leWords n v) = v := by
  induction n generalizing v with
  | zero => simp at h; simp [leWords, wordsValue, h]
  | succ n ih =>
    have hd : v / 2 ^ 32 < 2 ^ (32 * n) := by
      apply Nat.div_lt_of_lt_mul
      calc v < 2 ^ (32 * (n + 1)) := h
        _ = 2 ^ 32 * 2 ^ (32 * n) := by ring
    simp only [leWords, wordsValue, ih hd, BitVec.toNat_ofNat]
    exact Nat.mod_add_div v (2 ^ 32)

/-- `takeBytes` takes back the name bytes put on the port (R96). -/
theorem takeBytes_map (n : SymName) (rest : List Beat) :
    takeBytes n.length (n.map .byte ++ rest) = .ok (n, rest) := by
  induction n with
  | nil => rfl
  | cons b n ih => simp [takeBytes, ih]

/-- `takeWords` takes back the words put on the port (R96). -/
theorem takeWords_map (ws : List Word) (rest : List Beat) :
    takeWords ws.length (ws.map .word ++ rest) = .ok (ws, rest) := by
  induction ws with
  | nil => rfl
  | cons w ws ih => simp [takeWords, ih]

/-! ## The fields of a header (R96) -/

/-- The command field. -/
@[simp] theorem headerCmd_mkHeader (cmd : BitVec 4) (n : BitVec 16) (k : BitVec 2)
    (a : BitVec 4) : headerCmd (mkHeader cmd n k a) = cmd := by
  apply BitVec.eq_of_getLsbD_eq
  intro i hi
  have h1 : ¬28 + i < 4 := by omega
  have h2 : ¬28 + i - 4 < 2 := by omega
  have h3 : ¬28 + i - 4 - 2 < 2 := by omega
  have h4 : ¬28 + i - 4 - 2 - 2 < 16 := by omega
  have h5 : ¬28 + i - 4 - 2 - 2 - 16 < 4 := by omega
  have h6 : 28 + i - 4 - 2 - 2 - 16 - 4 = i := by omega
  simp only [headerCmd, mkHeader, BitVec.getLsbD_extractLsb', BitVec.getLsbD_append, h1, h2, h3,
    h4, h5, h6, hi, if_false, decide_true, Bool.true_and]

/-- The name length. -/
@[simp] theorem headerNameLen_mkHeader (cmd : BitVec 4) (n : BitVec 16) (k : BitVec 2)
    (a : BitVec 4) : headerNameLen (mkHeader cmd n k a) = n.toNat := by
  refine congrArg BitVec.toNat (BitVec.eq_of_getLsbD_eq fun i hi => ?_)
  have h1 : ¬8 + i < 4 := by omega
  have h2 : ¬8 + i - 4 < 2 := by omega
  have h3 : ¬8 + i - 4 - 2 < 2 := by omega
  have h5 : 8 + i - 4 - 2 - 2 = i := by omega
  simp only [mkHeader, BitVec.getLsbD_extractLsb', BitVec.getLsbD_append, h1, h2, h3, h5, hi,
    if_false, if_true, decide_true, Bool.true_and]

/-- The operand kind. -/
@[simp] theorem headerKind_mkHeader (cmd : BitVec 4) (n : BitVec 16) (k : Kind)
    (a : BitVec 4) : headerKind (mkHeader cmd n k.code a) = k := by
  have h : (mkHeader cmd n k.code a).extractLsb' 4 2 = k.code := by
    apply BitVec.eq_of_getLsbD_eq
    intro i hi
    have h1 : ¬4 + i < 4 := by omega
    have h3 : 4 + i - 4 = i := by omega
    simp only [mkHeader, BitVec.getLsbD_extractLsb', BitVec.getLsbD_append, h1, h3, hi,
      if_false, if_true, decide_true, Bool.true_and]
  rw [headerKind, h, Kind.ofCode_code]

/-- The argument. -/
@[simp] theorem headerArg_mkHeader (cmd : BitVec 4) (n : BitVec 16) (k : BitVec 2)
    (a : BitVec 4) : headerArg (mkHeader cmd n k a) = a := by
  apply BitVec.eq_of_getLsbD_eq
  intro i hi
  have h2 : 0 + i = i := by omega
  simp only [headerArg, mkHeader, BitVec.getLsbD_extractLsb', BitVec.getLsbD_append, h2, hi,
    if_true, decide_true, Bool.true_and]

end Sys2Proof
end

