-- ==== Sys2Proof/Laws/Ops.lean ====
section
/-! SUPPORT. For each shared operation, once, everything it can do; later proofs cite these instead of
unfolding it. -/

namespace Sys2Proof.Machine

/-! ## Outcomes -/

/-- What a pass's outcome can be when it is a next state. -/
theorem passOutcome_next {s t : State} {p : Pass} (h : passOutcome s p = .next t) :
    p = .ok t ∨ ∃ e, p = .error (.raise e) ∧ t = s.failPass e := by
  match p, h with
  | .ok u, h => simp only [passOutcome] at h; cases h; exact .inl rfl
  | .error (.raise e), h => simp only [passOutcome] at h; cases h; exact .inr ⟨e, rfl, rfl⟩
  | .error (.fault f), h => simp [passOutcome] at h

/-- A bind of the pass that succeeds passed through its first part. -/
theorem pass_bind_ok {p : Pass} {f : State → Pass} {t : State} (h : (p >>= f) = .ok t) :
    ∃ u, p = .ok u ∧ f u = .ok t := by
  match p, h with
  | .ok u, h => exact ⟨u, rfl, h⟩

/-- A bind of the pass that stops stopped in its first or its second part. -/
theorem pass_bind_error {p : Pass} {f : State → Pass} {x : Stop} (h : (p >>= f) = .error x) :
    p = .error x ∨ ∃ u, p = .ok u ∧ f u = .error x := by
  match p, h with
  | .error y, h => exact .inl h
  | .ok u, h => exact .inr ⟨u, rfl, h⟩

@[simp] theorem pass_ok_bind (s : State) (f : State → Pass) : (Except.ok s >>= f : Pass) = f s := rfl

@[simp] theorem pass_error_bind (x : Stop) (f : State → Pass) :
    (Except.error x >>= f : Pass) = .error x := rfl

/-- `FIRST_ERR` is never cleared by an error. -/
theorem stickyErr_ne_ok {old e : ErrCode} (h : e ≠ .ok) : stickyErr old e ≠ .ok := by
  unfold stickyErr
  split
  · exact h
  · assumption

/-! ## Names -/

/-- `lookupFrom` finds an entry of that name at or above its start, counted from it. -/
theorem lookupFrom_some {ls : List Label} {n : SymName} {j k : Nat}
    (h : lookupFrom j ls n = some k) :
    j ≤ k ∧ ∃ l, ls[k - j]? = some l ∧ l.name = n := by
  induction ls generalizing j with
  | nil => simp [lookupFrom] at h
  | cons l ls ih =>
    simp only [lookupFrom] at h
    split at h
    · next hn =>
      cases h
      exact ⟨le_refl _, l, by simp, hn⟩
    · obtain ⟨hj, m, hm, hn⟩ := ih h
      refine ⟨by omega, m, ?_, hn⟩
      have : k - j = (k - (j + 1)) + 1 := by omega
      rw [this, List.getElem?_cons_succ]
      exact hm

/-- `lookup` finds an entry of that name (R58). -/
theorem lookup_some {ls : List Label} {n : SymName} {k : Nat} (h : lookup ls n = some k) :
    ∃ l, ls[k]? = some l ∧ l.name = n := by
  simpa using (lookupFrom_some h).2

/-- `lookupFrom` finds nothing exactly when no entry has the name. -/
theorem lookupFrom_eq_none {ls : List Label} {n : SymName} {j : Nat} :
    lookupFrom j ls n = none ↔ ∀ l ∈ ls, l.name ≠ n := by
  induction ls generalizing j with
  | nil => simp [lookupFrom]
  | cons l ls ih =>
    simp only [lookupFrom]
    split
    · next h => simp [h]
    · next h => simp [ih, h]

/-- `lookup` finds nothing exactly when no label has the name (R58). -/
theorem lookup_eq_none {ls : List Label} {n : SymName} :
    lookup ls n = none ↔ ∀ l ∈ ls, l.name ≠ n := lookupFrom_eq_none

/-- `lookup` finds something exactly when a label has the name (R58). -/
theorem lookup_isSome {ls : List Label} {n : SymName} :
    (lookup ls n).isSome ↔ ∃ l ∈ ls, l.name = n := by
  rw [← Option.ne_none_iff_isSome, Ne, lookup_eq_none]
  simp

/-- What `lookup` answers depends on the names alone. -/
theorem lookupFrom_map {ls : List Label} {f : Label → Label} (hf : ∀ l, (f l).name = l.name)
    (j : Nat) (n : SymName) : lookupFrom j (ls.map f) n = lookupFrom j ls n := by
  induction ls generalizing j with
  | nil => rfl
  | cons l ls ih => simp only [List.map_cons, lookupFrom, hf, ih]

/-- What `lookup` answers depends on the names alone. -/
theorem lookup_map {ls : List Label} {f : Label → Label} (hf : ∀ l, (f l).name = l.name)
    (n : SymName) : lookup (ls.map f) n = lookup ls n := lookupFrom_map hf 0 n

/-- Recording labels does not change which names are local. -/
@[simp] theorem lookup_recordLabels (i : Nat) (s : State) (n : SymName) :
    lookup (recordLabels i s).labels n = lookup s.labels n :=
  lookup_map (fun _ => by simp) n

/-- Resolving the end labels does not change which names are local. -/
@[simp] theorem lookup_resolveEndLabels (s : State) (n : SymName) :
    lookup (resolveEndLabels s).labels n = lookup s.labels n :=
  lookup_map (fun _ => by simp) n

/-! ## Emitting -/

/-- Everything `emit_byte` does when it succeeds (R54). -/
theorem emitByte_ok {b : Byte} {s t : State} (h : emitByte b s = .ok t) :
    s.olen ≠ s.cfg.outMax ∧
      t = { s with out := Memory.write s.out s.olen b, olen := s.olen + 1 } := by
  unfold emitByte at h
  split at h
  · cases h
  · next hn => cases h; exact ⟨hn, rfl⟩

/-- `emit_byte` stops only when the buffer is full (R54). -/
theorem emitByte_error {b : Byte} {s : State} {x : Stop} (h : emitByte b s = .error x) :
    s.olen = s.cfg.outMax ∧ x = .raise .capacityExceeded := by
  unfold emitByte at h
  split at h
  · next hn => cases h; exact ⟨hn, rfl⟩
  · cases h

/-- `emit_byte` with room (R54). -/
theorem emitByte_room {b : Byte} {s : State} (h : s.olen < s.cfg.outMax) :
    emitByte b s = .ok { s with out := Memory.write s.out s.olen b, olen := s.olen + 1 } := by
  unfold emitByte
  rw [if_neg (by omega)]

/-- `emit_byte` on a full buffer (R54). -/
theorem emitByte_full {b : Byte} {s : State} (h : s.olen = s.cfg.outMax) :
    emitByte b s = .error (.raise .capacityExceeded) := by
  unfold emitByte
  rw [if_pos h]

/-- A run of `emit_byte` with room for all of it. -/
theorem emitBytes_room {bs : List Byte} {s : State} (h : s.olen + bs.length ≤ s.cfg.outMax) :
    emitBytes bs s =
      .ok { s with out := Memory.writeBytes s.out s.olen bs, olen := s.olen + bs.length } := by
  induction bs generalizing s with
  | nil => rfl
  | cons b bs ih =>
    simp only [List.length_cons] at h
    simp only [emitBytes, emitByte_room (b := b) (s := s) (by omega), pass_ok_bind]
    rw [ih (by show s.olen + 1 + bs.length ≤ s.cfg.outMax; omega)]
    simp [Memory.writeBytes]
    omega

/-- Everything a run of `emit_byte` does when it succeeds. -/
theorem emitBytes_ok {bs : List Byte} {s t : State} (h : emitBytes bs s = .ok t) :
    t = { s with out := Memory.writeBytes s.out s.olen bs, olen := s.olen + bs.length } ∧
      (s.olen ≤ s.cfg.outMax → s.olen + bs.length ≤ s.cfg.outMax) := by
  induction bs generalizing s with
  | nil => simp only [emitBytes] at h; cases h; exact ⟨rfl, id⟩
  | cons b bs ih =>
    obtain ⟨u, hu, ht⟩ := pass_bind_ok h
    obtain ⟨hne, rfl⟩ := emitByte_ok hu
    obtain ⟨rfl, hle⟩ := ih ht
    refine ⟨by simp [Memory.writeBytes]; omega, fun hs => ?_⟩
    have := hle (by show s.olen + 1 ≤ s.cfg.outMax; omega)
    simp only [List.length_cons]
    change s.olen + 1 + bs.length ≤ s.cfg.outMax at this
    omega

/-- A run of `emit_byte` stops only for want of room. -/
theorem emitBytes_error {bs : List Byte} {s : State} {x : Stop} (h : emitBytes bs s = .error x) :
    x = .raise .capacityExceeded ∧ s.cfg.outMax < s.olen + bs.length := by
  induction bs generalizing s with
  | nil => simp [emitBytes] at h
  | cons b bs ih =>
    rcases pass_bind_error h with h | ⟨u, hu, hx⟩
    · obtain ⟨hfull, rfl⟩ := emitByte_error h
      exact ⟨rfl, by simp only [List.length_cons]; omega⟩
    · obtain ⟨_, rfl⟩ := emitByte_ok hu
      obtain ⟨rfl, hlt⟩ := ih hx
      refine ⟨rfl, ?_⟩
      change s.cfg.outMax < s.olen + 1 + bs.length at hlt
      simp only [List.length_cons]
      omega

/-- The scratch after a field has been packed below the bits already there (R145). -/
def packed (v w : Nat) (s : State) : Byte :=
  s.scr ||| BitVec.ofNat 8 (v <<< (8 - s.scrn - w))

/-- `put` of a field that does not fill the byte (R145). -/
theorem put_partial {v w : Nat} {s : State} (h : s.scrn + w < 8) :
    put v w s = .ok { s with scr := packed v w s, scrn := s.scrn + w } := by
  unfold put
  rw [if_neg (by omega)]
  simp only [packed]
  rw [if_neg (by omega)]

/-- `put` of a field that fills the byte: it is emitted and the scratch is empty (R145). -/
theorem put_full {v w : Nat} {s : State} (h : s.scrn + w = 8) (hr : s.olen < s.cfg.outMax) :
    put v w s =
      .ok { s with
        out := Memory.write s.out s.olen (packed v w s), olen := s.olen + 1, scr := 0, scrn := 0 } := by
  unfold put
  rw [if_neg (by omega)]
  simp only [h, if_true, packed]
  rw [emitByte_room (by exact hr)]
  rfl

/-- Everything `put` does when it succeeds (R145). -/
theorem put_ok {v w : Nat} {s t : State} (h : put v w s = .ok t) :
    (s.scrn + w < 8 ∧ t = { s with scr := packed v w s, scrn := s.scrn + w }) ∨
      (s.scrn + w = 8 ∧ s.olen ≠ s.cfg.outMax ∧
        t = { s with
          out := Memory.write s.out s.olen (packed v w s), olen := s.olen + 1, scr := 0,
          scrn := 0 }) := by
  unfold put at h
  split at h
  · cases h
  · next hle =>
    simp only at h
    split at h
    · next h8 =>
      by_cases hf : s.olen = s.cfg.outMax
      · rw [emitByte_full (by exact hf)] at h
        cases h
      · refine .inr ⟨h8, hf, ?_⟩
        unfold emitByte at h
        rw [if_neg (by exact hf)] at h
        cases h
        rfl
    · next h8 =>
      cases h
      exact .inl ⟨by omega, rfl⟩

/-- Why `put` stops: the buffer is full, or its precondition does not hold (R145). -/
theorem put_error {v w : Nat} {s : State} {x : Stop} (h : put v w s = .error x) :
    (x = .raise .capacityExceeded ∧ s.scrn + w = 8 ∧ s.olen = s.cfg.outMax) ∨
      (x = .fault .scratchOverrun ∧ 8 < s.scrn + w) := by
  unfold put at h
  split at h
  · next hlt => cases h; exact .inr ⟨rfl, hlt⟩
  · simp only at h
    split at h
    · next h8 =>
      by_cases hf : s.olen = s.cfg.outMax
      · rw [emitByte_full (by exact hf)] at h
        cases h
        exact .inl ⟨rfl, h8, hf⟩
      · unfold emitByte at h
        rw [if_neg (by exact hf)] at h
        cases h
    · cases h

/-- `align` with an empty scratch does nothing: no zero byte is emitted (R146). -/
theorem align_empty {s : State} (h : s.scrn = 0) : align s = .ok s := by
  unfold align
  rw [if_neg (by omega)]

/-- `align` with a partly filled scratch and room (R146). -/
theorem align_flush {s : State} (h : 0 < s.scrn) (hr : s.olen < s.cfg.outMax) :
    align s =
      .ok { s with
        out := Memory.write s.out s.olen s.scr, olen := s.olen + 1, scr := 0, scrn := 0 } := by
  unfold align
  rw [if_pos h, emitByte_room hr]
  rfl

/-- Everything `align` does when it succeeds (R146). -/
theorem align_ok {s t : State} (h : align s = .ok t) :
    (s.scrn = 0 ∧ t = s) ∨
      (0 < s.scrn ∧ s.olen ≠ s.cfg.outMax ∧
        t = { s with
          out := Memory.write s.out s.olen s.scr, olen := s.olen + 1, scr := 0, scrn := 0 }) := by
  unfold align at h
  split at h
  · next hp =>
    by_cases hf : s.olen = s.cfg.outMax
    · rw [emitByte_full hf] at h
      cases h
    · unfold emitByte at h
      rw [if_neg hf] at h
      cases h
      exact .inr ⟨hp, hf, rfl⟩
  · next hp =>
    cases h
    exact .inl ⟨by omega, rfl⟩

/-- `align` stops only when the buffer is full (R146). -/
theorem align_error {s : State} {x : Stop} (h : align s = .error x) :
    x = .raise .capacityExceeded ∧ 0 < s.scrn ∧ s.olen = s.cfg.outMax := by
  unfold align at h
  split at h
  · next hp =>
    by_cases hf : s.olen = s.cfg.outMax
    · rw [emitByte_full hf] at h
      cases h
      exact ⟨rfl, hp, hf⟩
    · unfold emitByte at h
      rw [if_neg hf] at h
      cases h
  · cases h

/-- Everything `emit_placeholder` does when it succeeds (R152). -/
theorem emitPlaceholder_ok {n : SymName} {s t : State} (h : emitPlaceholder n s = .ok t) :
    s.nf ≠ s.cfg.nFixupMax ∧
      t = { s with
        fixups := s.fixups ++ [⟨s.olen, n⟩]
        out := Memory.writeBytes s.out s.olen [0, 0, 0, 0]
        olen := s.olen + 4 } := by
  unfold emitPlaceholder at h
  split at h
  · cases h
  · next hn => exact ⟨hn, (emitBytes_ok h).1⟩

/-- Everything the emission of a symbol does when it succeeds (R151). -/
theorem emitSymbol_ok {n : SymName} {s t : State} (h : emitSymbol n s = .ok t) :
    ((lookup s.labels n).isSome ∧ emitPlaceholder n s = .ok t) ∨
      (lookup s.labels n = none ∧
        t = { s with out := Memory.writeBytes s.out s.olen n, olen := s.olen + n.length }) := by
  unfold emitSymbol at h
  split at h
  · next hl => exact .inl ⟨hl, h⟩
  · next hl => exact .inr ⟨by simpa using hl, (emitBytes_ok h).1⟩

/-- Everything `emit_literal` does when it succeeds (R153). -/
theorem emitLiteral_ok {z : Option Size} {v : Nat} {s t : State} (h : emitLiteral z v s = .ok t) :
    v < 2 ^ 64 ∧
      t = { s with
        out := Memory.writeBytes s.out s.olen (leBytes (sizeOrWord z).bytes v)
        olen := s.olen + (sizeOrWord z).bytes } := by
  unfold emitLiteral at h
  split at h
  · cases h
  · next hv => exact ⟨by omega, by simpa [leBytes] using (emitBytes_ok h).1⟩

/-! ## Fixing up -/

/-- Everything `MemWrite` does when it succeeds (R53). -/
theorem memWrite_ok {a n v : Nat} {s t : State} (h : memWrite a n v s = .ok t) :
    a + n ≤ s.olen ∧ t = { s with out := Memory.writeBytes s.out a (leBytes n v) } := by
  unfold memWrite at h
  split at h
  · next hle => cases h; exact ⟨hle, rfl⟩
  · cases h

/-- Everything one fixup does when it succeeds (R156, R157). -/
theorem patch_ok {f : Fixup} {s t : State} (h : patch f s = .ok t) :
    ∃ off, resolvedOff s.labels f.name = some off ∧ f.off + 4 ≤ s.olen ∧
      t = { s with out := Memory.writeBytes s.out f.off (leBytes 4 off) } := by
  unfold patch at h
  split at h
  · cases h
  · next off ho =>
    obtain ⟨hle, rfl⟩ := memWrite_ok h
    exact ⟨off, ho, hle, rfl⟩

/-! ## Builder commands -/

/-- Everything the commands that append a record do (R115, R123, R124). -/
theorem appendRecord_next {r : Record} {s t : State} (h : appendRecord r s = .next t) :
    (s.phase ≠ .build ∧ t = s.raise .invalidState) ∨
      (s.phase = .build ∧ s.ni = s.cfg.nInstrMax ∧ t = s.raise .capacityExceeded) ∨
      (s.phase = .build ∧ s.ni ≠ s.cfg.nInstrMax ∧
        t = State.answer { s with instrs := s.instrs ++ [r], curV := true }
          (BitVec.ofNat 32 s.ni)) := by
  unfold appendRecord raised at h
  split at h
  · next hp => cases h; exact .inl ⟨hp, rfl⟩
  · next hp =>
    split at h
    · next hn => cases h; exact .inr (.inl ⟨not_not.mp hp, hn, rfl⟩)
    · next hn => cases h; exact .inr (.inr ⟨not_not.mp hp, hn, rfl⟩)

/-- Everything the setting commands do (R111): a refusal for the phase or `CUR_V`, a refusal of their
own check, or their write on the last record. -/
theorem setCurrent_next {f : Record → Except ErrCode Record} {s t : State}
    (h : setCurrent f s = .next t) :
    ((s.phase ≠ .build ∨ s.curV = false) ∧ t = s.raise .invalidState) ∨
      ∃ rs r, s.phase = .build ∧ s.curV = true ∧ s.instrs = rs ++ [r] ∧
        ((∃ e, f r = .error e ∧ t = s.raise e) ∨
          ∃ r', f r = .ok r' ∧ t = State.answer { s with instrs := rs ++ [r'] } 0) := by
  unfold setCurrent raised at h
  split at h
  · next hp => cases h; exact .inl ⟨.inl hp, rfl⟩
  · next hp =>
    split at h
    · next hc => cases h; exact .inl ⟨.inr hc, rfl⟩
    · next hc =>
      split at h
      · cases h
      · next r hr =>
        obtain ⟨rs, hrs⟩ := List.getLast?_eq_some_iff.mp hr
        refine .inr ⟨rs, r, not_not.mp hp, by simpa using hc, hrs, ?_⟩
        split at h
        · next e he => cases h; exact .inl ⟨e, he, rfl⟩
        · next r' hr' =>
          cases h
          exact .inr ⟨r', hr', by simp [hrs]⟩

/-- The setting commands on a known last record (R111). -/
theorem setCurrent_last {f : Record → Except ErrCode Record} {s : State} {rs : List Record}
    {r : Record} (hp : s.phase = .build) (hc : s.curV = true) (hs : s.instrs = rs ++ [r]) :
    setCurrent f s =
      match f r with
      | .error e => .next (s.raise e)
      | .ok r' => .next (State.answer { s with instrs := rs ++ [r'] } 0) := by
  cases hf : f r <;> simp [setCurrent, raised, hp, hc, hs, hf]

end Sys2Proof.Machine
end

