-- ==== Sys2Proof/Laws/PerInstr.lean ====
section
/-! SUPPORT. One lemma per constructor of `Instr`: how its encoding begins (spec/30_encoding.md R71, R72,
R97), the code in the top four bits of its first word or byte. -/

namespace Sys2Proof.Laws

/-- The command code of R97, or the opcode that stands in the stream (R72; RET and NOP are emitted as
JMP, R93). -/
def EncodingHead.codeOf : Instr → BitVec 4
  | .jmp _ _ => 0x0
  | .call _ => 0xE
  | .ret => 0x0
  | .nop => 0x0
  | .not _ _ => 0xA
  | .add _ _ _ => 0x1
  | .sub _ _ _ => 0x2
  | .mul _ _ _ => 0x3
  | .div _ _ _ => 0x4
  | .cmp _ _ _ => 0x5
  | .tst _ _ _ => 0x6
  | .and _ _ _ => 0x7
  | .or _ _ _ => 0x8
  | .xor _ _ _ => 0x9
  | .lsl _ _ _ => 0xB
  | .lsr _ _ _ => 0xC
  | .mov _ _ _ => 0xD
  | .reset => 0x0
  | .addLabel _ => 0x1
  | .addInstr _ => 0x2
  | .setCond _ => 0x3
  | .setSize _ => 0x4
  | .setOp1 _ => 0x5
  | .setOp2 _ => 0x6
  | .addNop => 0x7
  | .assemble => 0x8
  | .readOut _ => 0x9
  | .readReg _ => 0xA
  | .addRet => 0xB
  | .reservedC => 0xC
  | .reservedD => 0xD
  | .reservedE => 0xE
  | .reservedF => 0xF

/-- The first item of the instruction's encoding carries its code in its top four bits. -/
def EncodingHead.Statement (i : Instr) : Prop :=
  ∀ (c : Config) (resolve : SymName → Option Nat),
    (∃ h rest, encodeCommand c i = some (.word h :: rest) ∧
        headerCmd h = EncodingHead.codeOf i) ∨
      ∃ b rest, encodeBytecode c resolve i = some (b :: rest) ∧
        b.extractLsb' 4 4 = EncodingHead.codeOf i ∧ b.extractLsb' 0 1 = 0

/-- The opcode field and bit 0 of an instruction byte (R71). -/
theorem formatByte0_fields (opc : Opcode) (a : BitVec 1) (kk : BitVec 2) :
    (formatByte0 opc a kk).extractLsb' 4 4 = opc.code ∧
      (formatByte0 opc a kk).extractLsb' 0 1 = 0 := by
  revert a kk
  cases opc <;> decide

/-- A SET_OP1 or SET_OP2 command begins with a header of its code (R96). -/
theorem encodeOperand_head (c : Config) (cmd : BitVec 4) (o : Operand) :
    ∃ h rest, encodeOperand c cmd o = .word h :: rest ∧ headerCmd h = cmd := by
  cases o <;> exact ⟨_, _, rfl, headerCmd_mkHeader _ _ _ _⟩

theorem EncodingHead.jmp (cond : Option Cond) (op2 : Option Operand) :
    EncodingHead.Statement (.jmp cond op2) :=
  fun _ _ => .inr ⟨_, _, rfl, formatByte0_fields _ _ _⟩

theorem EncodingHead.call (op2 : Option Operand) :
    EncodingHead.Statement (.call op2) :=
  fun _ _ => .inr ⟨_, _, rfl, formatByte0_fields _ _ _⟩

theorem EncodingHead.ret : EncodingHead.Statement .ret :=
  fun _ _ => .inr ⟨_, _, rfl, formatByte0_fields _ _ _⟩

theorem EncodingHead.nop : EncodingHead.Statement .nop :=
  fun _ _ => .inr ⟨_, _, rfl, by decide, by decide⟩

theorem EncodingHead.not (size : Option Size) (op1 : Option RegOperand) :
    EncodingHead.Statement (.not size op1) :=
  fun _ _ => .inr ⟨_, _, rfl, formatByte0_fields _ _ _⟩

theorem EncodingHead.add (size : Option Size) (op1 : Option RegOperand) (op2 : Option Operand) :
    EncodingHead.Statement (.add size op1 op2) :=
  fun _ _ => .inr ⟨_, _, rfl, formatByte0_fields _ _ _⟩

theorem EncodingHead.sub (size : Option Size) (op1 : Option RegOperand) (op2 : Option Operand) :
    EncodingHead.Statement (.sub size op1 op2) :=
  fun _ _ => .inr ⟨_, _, rfl, formatByte0_fields _ _ _⟩

theorem EncodingHead.mul (size : Option Size) (op1 : Option RegOperand) (op2 : Option Operand) :
    EncodingHead.Statement (.mul size op1 op2) :=
  fun _ _ => .inr ⟨_, _, rfl, formatByte0_fields _ _ _⟩

theorem EncodingHead.div (size : Option Size) (op1 : Option RegOperand) (op2 : Option Operand) :
    EncodingHead.Statement (.div size op1 op2) :=
  fun _ _ => .inr ⟨_, _, rfl, formatByte0_fields _ _ _⟩

theorem EncodingHead.cmp (size : Option Size) (op1 : Option RegOperand) (op2 : Option Operand) :
    EncodingHead.Statement (.cmp size op1 op2) :=
  fun _ _ => .inr ⟨_, _, rfl, formatByte0_fields _ _ _⟩

theorem EncodingHead.tst (size : Option Size) (op1 : Option RegOperand) (op2 : Option Operand) :
    EncodingHead.Statement (.tst size op1 op2) :=
  fun _ _ => .inr ⟨_, _, rfl, formatByte0_fields _ _ _⟩

theorem EncodingHead.and (size : Option Size) (op1 : Option RegOperand) (op2 : Option Operand) :
    EncodingHead.Statement (.and size op1 op2) :=
  fun _ _ => .inr ⟨_, _, rfl, formatByte0_fields _ _ _⟩

theorem EncodingHead.or (size : Option Size) (op1 : Option RegOperand) (op2 : Option Operand) :
    EncodingHead.Statement (.or size op1 op2) :=
  fun _ _ => .inr ⟨_, _, rfl, formatByte0_fields _ _ _⟩

theorem EncodingHead.xor (size : Option Size) (op1 : Option RegOperand) (op2 : Option Operand) :
    EncodingHead.Statement (.xor size op1 op2) :=
  fun _ _ => .inr ⟨_, _, rfl, formatByte0_fields _ _ _⟩

theorem EncodingHead.lsl (size : Option Size) (op1 : Option RegOperand) (op2 : Option Operand) :
    EncodingHead.Statement (.lsl size op1 op2) :=
  fun _ _ => .inr ⟨_, _, rfl, formatByte0_fields _ _ _⟩

theorem EncodingHead.lsr (size : Option Size) (op1 : Option RegOperand) (op2 : Option Operand) :
    EncodingHead.Statement (.lsr size op1 op2) :=
  fun _ _ => .inr ⟨_, _, rfl, formatByte0_fields _ _ _⟩

theorem EncodingHead.mov (size : Option Size) (op1 : Option RegOperand) (op2 : Option Operand) :
    EncodingHead.Statement (.mov size op1 op2) :=
  fun _ _ => .inr ⟨_, _, rfl, formatByte0_fields _ _ _⟩

theorem EncodingHead.reset : EncodingHead.Statement .reset :=
  fun _ _ => .inl ⟨_, _, rfl, headerCmd_mkHeader _ _ _ _⟩

theorem EncodingHead.addLabel (name : SymName) : EncodingHead.Statement (.addLabel name) :=
  fun _ _ => .inl ⟨_, _, rfl, headerCmd_mkHeader _ _ _ _⟩

theorem EncodingHead.addInstr (opc : Opcode) : EncodingHead.Statement (.addInstr opc) :=
  fun _ _ => .inl ⟨_, _, rfl, headerCmd_mkHeader _ _ _ _⟩

theorem EncodingHead.setCond (cond : Cond) : EncodingHead.Statement (.setCond cond) :=
  fun _ _ => .inl ⟨_, _, rfl, headerCmd_mkHeader _ _ _ _⟩

theorem EncodingHead.setSize (size : Size) : EncodingHead.Statement (.setSize size) :=
  fun _ _ => .inl ⟨_, _, rfl, headerCmd_mkHeader _ _ _ _⟩

theorem EncodingHead.setOp1 (operand : Operand) : EncodingHead.Statement (.setOp1 operand) := fun c _ => by
  obtain ⟨h, rest, he, hc⟩ := encodeOperand_head c 0x5 operand
  exact .inl ⟨h, rest, congrArg some he, hc⟩

theorem EncodingHead.setOp2 (operand : Operand) : EncodingHead.Statement (.setOp2 operand) := fun c _ => by
  obtain ⟨h, rest, he, hc⟩ := encodeOperand_head c 0x6 operand
  exact .inl ⟨h, rest, congrArg some he, hc⟩

theorem EncodingHead.addNop : EncodingHead.Statement .addNop :=
  fun _ _ => .inl ⟨_, _, rfl, headerCmd_mkHeader _ _ _ _⟩

theorem EncodingHead.assemble : EncodingHead.Statement .assemble :=
  fun _ _ => .inl ⟨_, _, rfl, headerCmd_mkHeader _ _ _ _⟩

theorem EncodingHead.readOut (addr : Word) : EncodingHead.Statement (.readOut addr) :=
  fun _ _ => .inl ⟨_, _, rfl, headerCmd_mkHeader _ _ _ _⟩

theorem EncodingHead.readReg (sel : BitVec 4) : EncodingHead.Statement (.readReg sel) :=
  fun _ _ => .inl ⟨_, _, rfl, headerCmd_mkHeader _ _ _ _⟩

theorem EncodingHead.addRet : EncodingHead.Statement .addRet :=
  fun _ _ => .inl ⟨_, _, rfl, headerCmd_mkHeader _ _ _ _⟩

theorem EncodingHead.reservedC : EncodingHead.Statement .reservedC :=
  fun _ _ => .inl ⟨_, _, rfl, headerCmd_mkHeader _ _ _ _⟩

theorem EncodingHead.reservedD : EncodingHead.Statement .reservedD :=
  fun _ _ => .inl ⟨_, _, rfl, headerCmd_mkHeader _ _ _ _⟩

theorem EncodingHead.reservedE : EncodingHead.Statement .reservedE :=
  fun _ _ => .inl ⟨_, _, rfl, headerCmd_mkHeader _ _ _ _⟩

theorem EncodingHead.reservedF : EncodingHead.Statement .reservedF :=
  fun _ _ => .inl ⟨_, _, rfl, headerCmd_mkHeader _ _ _ _⟩

end Sys2Proof.Laws
end

