-- ==== Sys2Proof/Tests/Slice0.lean ====
section
/-! SUPPORT. Tests. The expected bytes, codes and states are those of spec/95_test_vectors.md and of the
rules' own examples; each is one step, or one decoding, on a small state. -/

namespace Sys2Proof.Tests
open Sys2Proof Sys2Proof.Machine

/-! ## Helpers -/

/-- The next state of an outcome. -/
def nextOf : Host.Outcome State Fault Refusal → Option State
  | .next s => some s
  | .fault _ => none
  | .refused _ => none

/-- The state after reset with these records and labels, the last record under construction. -/
def building (rs : List Record) (ls : List Label) : State :=
  { State.reset with instrs := rs, labels := ls, curV := !rs.isEmpty }

/-- The same with small capacities and a wide literal port. -/
def small (outMax nFixupMax litW : Nat) (s : State) : State :=
  { s with cfg := { s.cfg with outMax := outMax, nFixupMax := nFixupMax, litW := litW } }

/-- The bytes an instruction appends when the pass meets it first. -/
def emitted (i : Instr) (ls : List Label) : Option (List Byte) :=
  (nextOf (exec i (building [] ls))).map fun t => t.out.map Prod.snd

/-- The bytes of an assembled program. -/
def stream (rs : List Record) (ls : List Label) : Option (List Byte) :=
  (nextOf (exec .assemble (building rs ls))).map fun t => t.out.map Prod.snd

/-- A name of `n` bytes. -/
def longName (n : Nat) : SymName := List.replicate n 0x61

/-- "main", "printf", "data", "m". -/
def nMain : SymName := [0x6D, 0x61, 0x69, 0x6E]
def nPrintf : SymName := [0x70, 0x72, 0x69, 0x6E, 0x74, 0x66]
def nData : SymName := [0x64, 0x61, 0x74, 0x61]
def nM : SymName := [0x6D]

/-! ## WellFormed refuses -/

theorem test_wf_refuses_label_name_beyond_16_bits (c : Config) (n : SymName)
    (h : 65536 ≤ n.length) : (Instr.addLabel n).wf c = false :=
  decide_eq_false (Nat.not_lt.mpr h)

theorem test_wf_refuses_symbol_operand_beyond_16_bits (c : Config) (n : SymName)
    (h : 65536 ≤ n.length) : (Instr.setOp2 (.symbol n)).wf c = false :=
  decide_eq_false (Nat.not_lt.mpr h)

/-- There is such a name. -/
theorem test_wf_names_beyond_16_bits_exist : ∃ n : SymName, 65536 ≤ n.length :=
  ⟨longName 65536, Nat.le_of_eq (List.length_replicate ..).symm⟩

theorem test_wf_refuses_literal_beyond_port :
    (Instr.setOp1 (.literal (2 ^ 64))).wf Config.default = false := by decide

theorem test_wf_refuses_record_name_too_long :
    (Instr.jmp none (some (.symbol (longName 64)))).wf Config.default = false := by decide

theorem test_wf_refuses_record_literal_too_wide :
    (Instr.add none none (some (.literal (2 ^ 64)))).wf Config.default = false := by decide

theorem test_wf_refuses_literal_on_call :
    (Instr.call (some (.literal 5))).wf Config.default = false := by decide

theorem test_wf_refuses_narrow_literal_port :
    ¬({ Config.default with litW := 63 } : Config).wf := by decide

theorem test_wf_refuses_offsets_beyond_32_bits :
    ¬({ Config.default with outMax := 2 ^ 32 } : Config).wf := by decide

theorem test_wf_refuses_empty_stores :
    ¬({ Config.default with nInstrMax := 0 } : Config).wf ∧
      ¬({ Config.default with nLabelMax := 0 } : Config).wf ∧
      ¬({ Config.default with nFixupMax := 0 } : Config).wf ∧
      ¬({ Config.default with nameMax := 65536 } : Config).wf := by decide

/-! ## Decoding: words written out from R71, R87, R96, R97 -/

/-- V-C3. -/
theorem test_decode_jmp :
    decodeBytecode none [0x02, 0x94] =
      .ok (.jmp (some .zr) (some (.indirect 2)), []) := by decide

/-- V-C4. -/
theorem test_decode_jmp_literal :
    decodeBytecode none [0x06, 0x80, 0x44, 0x33, 0x22, 0x11] =
      .ok (.jmp (some .al) (some (.literal 0x11223344)), []) := by decide

/-- V-C10. -/
theorem test_decode_call :
    decodeBytecode none [0xE2, 0x80] =
      .ok (.call (some (.indirect 4)), []) := by decide

/-- V-C12. -/
theorem test_decode_ret_bytes_as_jmp_lr :
    decodeBytecode none [0x00, 0x8E] =
      .ok (.jmp (some .al) (some (.register 7)), []) := by decide

/-- V-C13. -/
theorem test_decode_nop :
    decodeBytecode none [0x06, 0x00, 0x00] =
      .ok (.nop, []) := by decide

/-- V-U3. -/
theorem test_decode_not :
    decodeBytecode none [0xA8, 0x30] =
      .ok (.not (some .byte) (some (.indirect 6)), []) := by decide

/-- V-N8. -/
theorem test_decode_sub :
    decodeBytecode none [0x26, 0x48, 0xDE, 0xBC] =
      .ok (.sub (some .hword) (some (.register 1)) (some (.literal 0xBCDE)), []) := by decide

/-- V-N17. -/
theorem test_decode_mul :
    decodeBytecode none [0x32, 0xD3] =
      .ok (.mul (some .dword) (some (.register 2)) (some (.indirect 3)), []) := by decide

/-- V-N18. -/
theorem test_decode_div :
    decodeBytecode none [0x48, 0x25] =
      .ok (.div (some .byte) (some (.indirect 4)) (some (.register 5)), []) := by decide

/-- V-N19. -/
theorem test_decode_cmp :
    decodeBytecode none [0x56, 0x00, 0x00] =
      .ok (.cmp (some .byte) (some (.register 0)) (some (.literal 0)), []) := by decide

/-- V-N20. -/
theorem test_decode_tst :
    decodeBytecode none [0x6E, 0x08, 0x80] =
      .ok (.tst (some .byte) (some (.indirect 1)) (some (.literal 0x80)), []) := by decide

/-- V-N11. -/
theorem test_decode_and :
    decodeBytecode none [0x76, 0x70, 0xFF, 0x00] =
      .ok (.and (some .hword) (some (.register 6)) (some (.literal 0xFF)), []) := by decide

/-- V-N21. -/
theorem test_decode_or :
    decodeBytecode none [0x80, 0xB8] =
      .ok (.or (some .word) (some (.register 7)) (some (.register 0)), []) := by decide

/-- V-N22. -/
theorem test_decode_xor :
    decodeBytecode none [0x90, 0xAD] =
      .ok (.xor (some .word) (some (.register 5)) (some (.register 5)), []) := by decide

/-- V-N23. -/
theorem test_decode_lsl :
    decodeBytecode none [0xB6, 0x10, 0x03] =
      .ok (.lsl (some .byte) (some (.register 2)) (some (.literal 3)), []) := by decide

/-- V-N24. -/
theorem test_decode_lsr :
    decodeBytecode none [0xC8, 0xC1] =
      .ok (.lsr (some .dword) (some (.indirect 0)) (some (.register 1)), []) := by decide

/-- V-N5. -/
theorem test_decode_add :
    decodeBytecode none [0x1A, 0x3F] =
      .ok (.add (some .byte) (some (.indirect 7)) (some (.indirect 7)), []) := by decide

/-- V-N25. -/
theorem test_decode_mov :
    decodeBytecode none [0xD2, 0x81] =
      .ok (.mov (some .word) (some (.register 0)) (some (.indirect 1)), []) := by decide

/-- V-N13, V-N15: the reader is told whether the symbol is external or local (U3). -/
theorem test_decode_symbol :
    decodeBytecode (some (.externalName 4)) [0xD4, 0xA0, 0x64, 0x61, 0x74, 0x61] =
        .ok (.mov (some .word) (some (.register 4)) (some (.symbol nData)), []) ∧
      decodeBytecode (some (.localLabel nData)) [0xD4, 0x08, 0x06, 0, 0, 0] =
        .ok (.mov (some .byte) (some (.register 1)) (some (.symbol nData)), []) ∧
      decodeBytecode none [0xD4, 0xA0, 0x64] = .error .symbolExtent := by decide

/-- R89 (1) to (6), and a literal JMP of condition NV that is no NOP. -/
theorem test_decode_refuses_reserved :
    decodeBytecode none [0x01, 0x80] = .error .reservedBit0 ∧
      decodeBytecode none [0xF0, 0x80] = .error .reservedOpcode ∧
      decodeBytecode none [0x08, 0x80] = .error .reservedOp1Kind ∧
      decodeBytecode none [0xE6, 0, 0, 0, 0] = .error .reservedOp2Kind ∧
      decodeBytecode none [0xA2, 0x80] = .error .reservedOp2Kind ∧
      decodeBytecode none [0x00, 0x81] = .error .reservedPadding ∧
      decodeBytecode none [0x06, 0x00, 0x05, 0, 0, 0] = .error .reservedNop := by decide

theorem test_decode_reset :
    decodeCommand Config.default [.word 0x00000000] =
      .ok (.reset, []) := by decide

theorem test_decode_addLabel :
    decodeCommand Config.default [.word 0x10000400, .byte 0x6D, .byte 0x61, .byte 0x69, .byte 0x6E] =
      .ok (.addLabel nMain, []) := by decide

theorem test_decode_addInstr :
    decodeCommand Config.default [.word 0x2000000D] =
      .ok (.addInstr .mov, []) := by decide

theorem test_decode_setCond :
    decodeCommand Config.default [.word 0x30000008] =
      .ok (.setCond .al, []) := by decide

theorem test_decode_setSize :
    decodeCommand Config.default [.word 0x40000002] =
      .ok (.setSize .word, []) := by decide

theorem test_decode_setOp1 :
    decodeCommand Config.default [.word 0x50000013] =
      .ok (.setOp1 (.indirect 3), []) := by decide

theorem test_decode_setOp2 :
    decodeCommand Config.default [.word 0x60000030, .word 0x05060708, .word 0x01020304] =
      .ok (.setOp2 (.literal 0x0102030405060708), []) := by decide

theorem test_decode_addNop :
    decodeCommand Config.default [.word 0x70000000] =
      .ok (.addNop, []) := by decide

theorem test_decode_assemble :
    decodeCommand Config.default [.word 0x80000000] =
      .ok (.assemble, []) := by decide

theorem test_decode_readOut :
    decodeCommand Config.default [.word 0x90000000, .word 0x00000007] =
      .ok (.readOut 7, []) := by decide

theorem test_decode_readReg :
    decodeCommand Config.default [.word 0xA0000004] =
      .ok (.readReg 4, []) := by decide

theorem test_decode_addRet :
    decodeCommand Config.default [.word 0xB0000000] =
      .ok (.addRet, []) := by decide

theorem test_decode_reservedC :
    decodeCommand Config.default [.word 0xC0000000] =
      .ok (.reservedC, []) := by decide

theorem test_decode_reservedD :
    decodeCommand Config.default [.word 0xD0000000] =
      .ok (.reservedD, []) := by decide

theorem test_decode_reservedE :
    decodeCommand Config.default [.word 0xE0000000] =
      .ok (.reservedE, []) := by decide

theorem test_decode_reservedF :
    decodeCommand Config.default [.word 0xF0000000] =
      .ok (.reservedF, []) := by decide

/-- A symbol operand with the ignored header bits set (R96), and a payload that has not arrived whole. -/
theorem test_decode_ignores_unused_bits_and_waits :
    decodeCommand Config.default [.word 0x6F0001EF, .byte 0x6D] = .ok (.setOp2 (.symbol nM), []) ∧
      decodeCommand Config.default [.word 0x10000200, .byte 0x6D] = .error .incomplete ∧
      decodeCommand Config.default [.byte 0x6D] = .error .framing := by decide

/-- Rows of spec/opcode_table.json by their match words. -/
theorem test_table_words :
    decodeTableWord 32 0x80000000 = some .assemble ∧
      decodeTableWord 32 0x60000000 = some (.setOp2 (.register 0)) ∧
      decodeTableWord 8 0xE4 = some (.call (some (.symbol []))) ∧
      decodeTableWord 8 0x16 = some (.add (some .byte) (some (.register 0)) (some (.literal 0))) ∧
      decodeTableWord 8 0x06 = some .nop := by decide

/-! ## Encoding -/

/-- V-S1's second instruction, V-N4, V-N16: encodings from the format table. -/
theorem test_encode_formats :
    encodeBytecode Config.default (fun _ => some 0x21) (.jmp none (some (.symbol nMain))) =
        some [0x04, 0x80, 0x21, 0, 0, 0] ∧
      encodeBytecode Config.default (fun _ => none) (.add none none (some (.register 7))) =
        some [0x10, 0xB8] ∧
      encodeBytecode Config.default (fun _ => none) (.add none none (some (.symbol [0x78]))) =
        some [0x14, 0x80, 0x78] := by decide

/-! ## Emission, one instruction each -/

/-- V-C1. -/
theorem test_emit_jmp :
    emitted (.jmp none none) [] =
      some [0x00, 0x80] := by decide

/-- V-C2. -/
theorem test_emit_jmp_register :
    emitted (.jmp (some .gt) (some (.register 5))) [] =
      some [0x00, 0xFA] := by decide

/-- V-C9. -/
theorem test_emit_call :
    emitted (.call (some (.register 7))) [] =
      some [0xE0, 0xE0] := by decide

/-- V-S2. -/
theorem test_emit_call_external :
    emitted (.call (some (.symbol nPrintf))) [] =
      some [0xE4, 0x70, 0x72, 0x69, 0x6E, 0x74, 0x66] := by decide

/-- V-C12. -/
theorem test_emit_ret :
    emitted (.ret) [] =
      some [0x00, 0x8E] := by decide

/-- V-C13. -/
theorem test_emit_nop :
    emitted (.nop) [] =
      some [0x06, 0x00, 0x00] := by decide

/-- V-U2. -/
theorem test_emit_not :
    emitted (.not none (some (.register 3))) [] =
      some [0xA0, 0x98] := by decide

/-- V-U6. -/
theorem test_emit_not_dword :
    emitted (.not (some .dword) (some (.indirect 6))) [] =
      some [0xA8, 0xF0] := by decide

/-- V-N7. -/
theorem test_emit_add :
    emitted (.add (some .byte) (some (.register 0)) (some (.literal 0x1FF))) [] =
      some [0x16, 0x00, 0xFF] := by decide

/-- V-N4. -/
theorem test_emit_add_only_op2 :
    emitted (.add none none (some (.register 7))) [] =
      some [0x10, 0xB8] := by decide

/-- V-N8. -/
theorem test_emit_sub :
    emitted (.sub (some .hword) (some (.register 1)) (some (.literal 0xABCDE))) [] =
      some [0x26, 0x48, 0xDE, 0xBC] := by decide

/-- V-N17. -/
theorem test_emit_mul :
    emitted (.mul (some .dword) (some (.register 2)) (some (.indirect 3))) [] =
      some [0x32, 0xD3] := by decide

/-- V-N18. -/
theorem test_emit_div :
    emitted (.div (some .byte) (some (.indirect 4)) (some (.register 5))) [] =
      some [0x48, 0x25] := by decide

/-- V-N19. -/
theorem test_emit_cmp :
    emitted (.cmp none (some (.register 0)) (some (.literal 0))) [] =
      some [0x56, 0x80, 0, 0, 0, 0] := by decide

/-- V-N20. -/
theorem test_emit_tst :
    emitted (.tst (some .byte) (some (.indirect 1)) (some (.literal 0x80))) [] =
      some [0x6E, 0x08, 0x80] := by decide

/-- V-N11. -/
theorem test_emit_and :
    emitted (.and (some .hword) (some (.register 6)) (some (.literal 0xFF))) [] =
      some [0x76, 0x70, 0xFF, 0x00] := by decide

/-- V-N21. -/
theorem test_emit_or :
    emitted (.or none (some (.register 7)) (some (.register 0))) [] =
      some [0x80, 0xB8] := by decide

/-- V-N12. -/
theorem test_emit_xor :
    emitted (.xor (some .hword) none (some (.literal 0x1234))) [] =
      some [0x96, 0x40, 0x34, 0x12] := by decide

/-- V-N23. -/
theorem test_emit_lsl :
    emitted (.lsl (some .word) (some (.register 2)) (some (.literal 3))) [] =
      some [0xB6, 0x90, 3, 0, 0, 0] := by decide

/-- V-N24. -/
theorem test_emit_lsr :
    emitted (.lsr (some .dword) (some (.indirect 0)) (some (.register 1))) [] =
      some [0xC8, 0xC1] := by decide

/-- V-N10. -/
theorem test_emit_mov :
    emitted (.mov (some .dword) (some (.register 3)) (some (.literal 0x0102030405060708))) [] =
      some [0xD6, 0xD8, 8, 7, 6, 5, 4, 3, 2, 1] := by decide

/-- V-C6: the placeholder of a local CALL stands at offset 1, and the queue holds (1, "m"). -/
theorem test_emit_local_call :
    (nextOf (exec (.call (some (.symbol nM))) (building [] [⟨nM, 0, some 0⟩]))).map
        (fun t => (t.out.map Prod.snd, t.fixups)) =
      some ([0xE4, 0, 0, 0, 0], [⟨1, nM⟩]) := by decide

/-! ## Commands -/

/-- V-B2 and R115's example. -/
theorem test_addInstr :
    nextOf (exec (.addInstr .mov) State.reset) =
      some { State.reset with
        instrs := [newRecord .mov], curV := true, resp := some ⟨.ok, 0⟩ } := by decide

/-- V-B3: the second record's index is 1. -/
theorem test_addInstr_index :
    (nextOf (exec (.addInstr .add) (building [newRecord .mov] []))).map (fun t => t.resp) =
      some (some ⟨.ok, 1⟩) := by decide

/-- R113's example, and V-Q6. -/
theorem test_addLabel :
    (nextOf (exec (.addLabel nMain) State.reset)).map (fun t => t.labels) =
        some [⟨nMain, 0, none⟩] ∧
      errOf (exec (.addLabel nM) (building [] [⟨nM, 0, none⟩])) = some .duplicateLabel := by decide

/-- V-B7: a name of 64 bytes. -/
theorem test_addLabel_too_long :
    errOf (exec (.addLabel (longName 64)) State.reset) = some .capacityExceeded := by decide

/-- R117's example, and V-E3. -/
theorem test_setCond :
    (nextOf (exec (.setCond .zr) (building [newRecord .jmp] []))).map (fun t => t.instrs) =
        some [jmpRecord (some .zr) none] ∧
      errOf (exec (.setCond .zr) (building [newRecord .add] [])) = some .invalidOperand := by decide

/-- R118's example: a size on ADD, none on JMP. -/
theorem test_setSize :
    (nextOf (exec (.setSize .byte) (building [newRecord .add] []))).map (fun t => t.instrs) =
        some [sizedRecord .add (some .byte) none none] ∧
      errOf (exec (.setSize .byte) (building [newRecord .jmp] [])) = some .invalidOperand := by
  decide

/-- R119's example, and V-E16: the kind is checked before the length. -/
theorem test_setOp1 :
    (nextOf (exec (.setOp1 (.register 0)) (building [newRecord .mov] []))).map
        (fun t => t.instrs) = some [sizedRecord .mov none (some (.register 0)) none] ∧
      errOf (exec (.setOp1 (.symbol (longName 100))) (building [newRecord .add] [])) =
        some .invalidOperand := by decide

/-- R121's example, and V-E4. -/
theorem test_setOp2 :
    (nextOf (exec (.setOp2 (.symbol nMain)) (building [newRecord .jmp] []))).map
        (fun t => t.instrs) = some [jmpRecord none (some (.symbol nMain))] ∧
      errOf (exec (.setOp2 (.literal 5)) (building [newRecord .call] [])) =
        some .invalidOperand := by decide

/-- V-B9's record, and V-B9: no setting command changes it. -/
theorem test_addNop :
    (nextOf (exec .addNop State.reset)).map (fun t => t.instrs) = some [nopRecord] ∧
      errOf (exec (.setSize .byte) (building [nopRecord] [])) = some .invalidOperand := by decide

/-- V-B10: a RET allows nothing. -/
theorem test_addRet :
    (nextOf (exec .addRet State.reset)).map (fun t => t.instrs) = some [newRecord .ret] ∧
      errOf (exec (.setOp2 (.register 7)) (building [newRecord .ret] [])) =
        some .invalidOperand := by decide

/-- V-E1: no instruction under construction. -/
theorem test_setting_without_instruction :
    errOf (exec (.setCond .al) State.reset) = some .invalidState := by decide

/-- V-B16: `LAST_ERR` is read as 1 after the failed SET_COND and reading does not change it. -/
theorem test_readReg :
    (nextOf (exec (.readReg 5) { State.reset with lastErr := .invalidOperand })).map
        (fun t => (t.resp, t.lastErr)) =
      some (some ⟨.ok, 1⟩, .invalidOperand) := by decide

/-- V-A7: READ_OUT(0) gives 0xD2 and the first address beyond the buffer is refused. -/
theorem test_readOut :
    (nextOf (exec (.readOut 0) { State.reset with phase := .done, out := [(0, 0xD2)], olen := 1 })).map
        (fun t => t.resp) = some (some ⟨.ok, 0xD2⟩) ∧
      errOf (exec (.readOut 1) { State.reset with phase := .done, out := [(0, 0xD2)], olen := 1 }) =
        some .badCommand := by decide

/-- P5, command 6: RESET leaves FAILED. -/
theorem test_reset :
    nextOf (exec .reset { building [nopRecord] [] with
        phase := .failed, lastErr := .invalidState, firstErr := .capacityExceeded }) =
      some { State.reset with resp := some ⟨.ok, 0⟩ } := by decide

/-- V-E6. -/
theorem test_reserved :
    [Instr.reservedC, .reservedD, .reservedE, .reservedF].map (fun i => errOf (exec i State.reset)) =
      List.replicate 4 (some .badCommand) := by decide

/-! ## ASSEMBLE -/

/-- V-S1, Scenario A. -/
theorem test_assemble_scenario_a :
    stream
        [sizedRecord .mov (some .word) (some (.register 0)) (some (.indirect 1)),
          jmpRecord (some .al) (some (.symbol nMain))]
        [⟨nMain, 0, none⟩] =
      some [0xD2, 0x81, 0x04, 0x80, 0, 0, 0, 0] := by decide

/-- V-A3: a forward and a backward reference to one label. -/
theorem test_assemble_forward_and_backward :
    stream [jmpRecord none (some (.symbol nM)), jmpRecord none (some (.symbol nM))] [⟨nM, 1, none⟩] =
      some [0x04, 0x80, 6, 0, 0, 0, 0x04, 0x80, 6, 0, 0, 0] := by decide

/-- V-A9: with `LIT_W` = 128 a literal of 2^64 fails the pass. -/
theorem test_assemble_wide_literal :
    (nextOf (exec .assemble (small 65535 1024 128
        (building [sizedRecord .mov (some .dword) (some (.register 3)) (some (.literal (2 ^ 64)))]
          [])))).map (fun t => (t.lastErr, t.phase, t.olen)) =
      some (.unsupportedEncoding, .failed, 0) := by decide

/-- V-E12: with `OUT_MAX` = 4 the fifth byte does not fit. -/
theorem test_assemble_output_full :
    (nextOf (exec .assemble (small 4 1024 64 (building [nopRecord, nopRecord] [])))).map
        (fun t => (t.lastErr, t.phase, t.olen, t.out)) =
      some (.capacityExceeded, .failed, 0, []) := by decide

/-- V-E13: with `N_FIXUP_MAX` = 1 the second placeholder is refused. -/
theorem test_assemble_fixups_full :
    errOf (exec .assemble (small 65535 1 64
        (building [jmpRecord none (some (.symbol nM)), jmpRecord none (some (.symbol nM))]
          [⟨nM, 0, none⟩]))) = some .capacityExceeded := by decide

/-! ## The step -/

/-- From reset, a command row and a bytecode row run in the very next step. -/
theorem test_step_runs_table_words :
    (nextOf (step (State.reset.withFetchWord 32 0x2000000D))).map (fun t => t.instrs) =
        some [newRecord .mov] ∧
      (nextOf (step (State.reset.withFetchWord 8 0xA8))).map (fun t => t.out) =
        some [(0, 0xA8), (1, 0)] := by decide

/-- A step with nothing on the port waits. -/
theorem test_step_waits : nextOf (step State.reset) = some State.reset := by decide

/-! ## Witnesses: states and operands that meet the hypotheses of the statements -/

/-- A MOV record under construction, one label before it. -/
def oneMov : State := building [newRecord .mov] [⟨nMain, 0, none⟩]

/-- `main: JMP main`, a local reference, an external one, a literal; nothing under construction. -/
def threeRecords : State :=
  { building
      [jmpRecord none (some (.symbol nMain)), callRecord (some (.symbol nPrintf)),
        sizedRecord .add (some .byte) (some (.register 1)) (some (.literal 0x1FF))]
      [⟨nMain, 0, none⟩, ⟨nData, 3, none⟩] with curV := false }

/-- What ASSEMBLE leaves of `main: JMP main`. -/
def doneState : State :=
  { building [jmpRecord none (some (.symbol nMain))] [⟨nMain, 0, some 0⟩] with
    phase := .done
    curV := false
    fixups := [⟨2, nMain⟩]
    out := [(0, 0x04), (1, 0x80), (2, 0), (3, 0), (4, 0), (5, 0)]
    olen := 6
    resp := some ⟨.ok, 0⟩ }

/-- A program whose one literal is beyond the ceiling, on a wide port. -/
def wideLiteral : State :=
  small 65535 1024 128 (building [sizedRecord .add none none (some (.literal (2 ^ 64)))] [])

/-- Two NOPs for a buffer of four bytes. -/
def overLong : State := small 4 1024 64 (building [nopRecord, nopRecord] [])

/-- Full stores: one record, one label and one fixup allowed, one of each there. -/
def fullStores : State :=
  { building [newRecord .jmp] [⟨nMain, 0, none⟩] with
    cfg := { Config.default with nInstrMax := 1, nLabelMax := 1, nFixupMax := 1 }
    fixups := [⟨0, nMain⟩] }

theorem witness_FirstCommandAfterReset :
    (settingField (.setCond .nv)).isSome ∧ (settingField (.setSize .dword)).isSome ∧
      (settingField (.setOp1 (.literal 0))).isSome ∧
      (settingField (.setOp2 (.symbol []))).isSome := by decide

/-- A name of exactly `NAME_MAX` bytes, in a table one short of full. -/
theorem witness_AddLabelAppendsEntry :
    ∃ (s : State) (n : SymName), s.phase = .build ∧ lookup s.labels n = none ∧
      n.length = s.cfg.nameMax ∧ s.nl ≠ s.cfg.nLabelMax ∧ s.nl + 1 = s.cfg.nLabelMax :=
  ⟨{ oneMov with cfg := { Config.default with nLabelMax := 2, nameMax := 1 } }, nM, by decide⟩

/-- The name is there, too long and the table full; and the second clause. -/
theorem witness_DuplicateLabelHasOneCause :
    (∃ (s : State) (n : SymName) (l : Label), s.phase = .build ∧ l ∈ s.labels ∧ l.name = n ∧
      s.cfg.nameMax < n.length ∧ s.nl = s.cfg.nLabelMax) ∧
    ∃ (i : Instr) (s : State), i.isCommand = true ∧ errOf (exec i s) = some .duplicateLabel :=
  ⟨⟨{ fullStores with cfg := { fullStores.cfg with nameMax := 3 } }, nMain, ⟨nMain, 0, none⟩,
      by decide⟩,
    .addLabel nMain, oneMov, by decide⟩

/-- The last free place of the store. -/
theorem witness_AddInstrAppendsRecord :
    ∃ s : State, s.phase = .build ∧ s.ni ≠ s.cfg.nInstrMax ∧ s.ni + 1 = s.cfg.nInstrMax :=
  ⟨{ oneMov with cfg := { Config.default with nInstrMax := 2 } }, by decide⟩

theorem witness_AddNopAppendsPresetJump :
    ∃ s : State, s.phase = .build ∧ s.ni ≠ s.cfg.nInstrMax := ⟨oneMov, by decide⟩

theorem witness_AddRetIsAddInstrOfRet :
    ∃ s : State, s.phase = .build ∧ s.ni ≠ s.cfg.nInstrMax := ⟨State.reset, by decide⟩

theorem witness_SetCondWritesCondition :
    ∃ (s : State) (rs : List Record) (r : Record), s.phase = .build ∧ s.curV = true ∧
      s.instrs = rs ++ [r] ∧ r.opc = .jmp ∧ r.cond = none :=
  ⟨building [newRecord .mov, newRecord .jmp] [], [newRecord .mov], newRecord .jmp, by decide⟩

theorem witness_SetSizeWritesSize :
    ∃ (s : State) (rs : List Record) (r : Record), s.phase = .build ∧ s.curV = true ∧
      s.instrs = rs ++ [r] ∧ r.opc ∈ Opcode.not :: binaryOpcodes ∧ r.size = none :=
  ⟨building [newRecord .not] [], [], newRecord .not, by decide⟩

theorem witness_SetOp1WritesRegisterOperand :
    ∃ (s : State) (rs : List Record) (r : Record), s.phase = .build ∧ s.curV = true ∧
      s.instrs = rs ++ [r] ∧ r.opc ∈ Opcode.not :: binaryOpcodes ∧ r.op1 = none :=
  ⟨oneMov, [], newRecord .mov, by decide⟩

/-- A name of `NAME_MAX` bytes on a JMP, and a CALL with an operand that is no literal. -/
theorem witness_SetOp2WritesOperand :
    (∃ (s : State) (rs : List Record) (r : Record) (o : Operand), s.phase = .build ∧
      s.curV = true ∧ s.instrs = rs ++ [r] ∧ r.op2 = none ∧
      (r.opc ∈ Opcode.jmp :: binaryOpcodes ∨ r.opc = .call ∧ ∀ v, o ≠ .literal v) ∧
      (∀ n, o = .symbol n → n.length ≤ s.cfg.nameMax) ∧ o = .symbol (longName 63)) ∧
    ∃ (s : State) (rs : List Record) (r : Record) (o : Operand), s.phase = .build ∧
      s.curV = true ∧ s.instrs = rs ++ [r] ∧ r.op2 = none ∧
      (r.opc ∈ Opcode.jmp :: binaryOpcodes ∨ r.opc = .call ∧ ∀ v, o ≠ .literal v) ∧
      (∀ n, o = .symbol n → n.length ≤ s.cfg.nameMax) :=
  ⟨⟨building [newRecord .jmp] [], [], newRecord .jmp, .symbol (longName 63), rfl, rfl, rfl, rfl,
      .inl (by decide), by rintro _ ⟨⟩; decide, rfl⟩,
    building [newRecord .call] [], [], newRecord .call, .indirect 3, rfl, rfl, rfl, rfl,
    .inr ⟨rfl, nofun⟩, nofun⟩

theorem witness_LegalityTableDecidesFreshRecord :
    (∀ opc, ∃ (s : State) (rs : List Record), s.phase = .build ∧ s.curV = true ∧
      s.instrs = rs ++ [⟨opc, none, none, none, none⟩]) ∧
    (longName 63).length ≤ State.reset.cfg.nameMax :=
  ⟨fun opc => ⟨building [newRecord opc] [], [], rfl, rfl, rfl⟩, by decide⟩

theorem witness_SecondSettingOfAFieldRefused :
    ∃ (i j : Instr) (s t : State), (settingField i).isSome ∧ settingField j = settingField i ∧
      exec i s = .next t ∧ t.resp = some ⟨.ok, 0⟩ :=
  ⟨.setOp2 (.register 1), .setOp2 (.literal 5), oneMov, _, rfl, rfl, rfl, rfl⟩

theorem witness_Op1SymbolOrLiteralRefused :
    ∃ (s : State) (rs : List Record) (r : Record), s.phase = .build ∧ s.curV = true ∧
      s.instrs = rs ++ [r] := ⟨oneMov, [], newRecord .mov, by decide⟩

theorem witness_PseudoRecordsAreClosed :
    (∃ t, exec .addNop State.reset = .next t ∧ t.curV = true ∧ t.lastErr = .ok) ∧
      (∃ t, exec .addRet State.reset = .next t ∧ t.curV = true ∧ t.lastErr = .ok) ∧
      (settingField (.setCond .nv)).isSome := ⟨⟨_, rfl, rfl, rfl⟩, ⟨_, rfl, rfl, rfl⟩, rfl⟩

/-- Both succeed; one succeeds and one is refused. -/
theorem witness_SettingOrderIsFree :
    (∃ t u t' u', exec (.setSize .byte) oneMov = .next t ∧ exec (.setOp1 (.register 2)) t = .next u ∧
      exec (.setOp1 (.register 2)) oneMov = .next t' ∧ exec (.setSize .byte) t' = .next u') ∧
    (∃ t u t' u', exec (.setSize .byte) oneMov = .next t ∧ exec (.setCond .al) t = .next u ∧
      exec (.setCond .al) oneMov = .next t' ∧ exec (.setSize .byte) t' = .next u') ∧
    settingField (.setSize .byte) ≠ settingField (.setOp1 (.register 2)) ∧
    settingField (.setSize .byte) ≠ settingField (.setCond .al) :=
  ⟨⟨_, _, _, _, rfl, rfl, rfl, rfl⟩, ⟨_, _, _, _, rfl, rfl, rfl, rfl⟩, by decide, by decide⟩

/-- One state and its names for the four clauses, at the first length beyond `NAME_MAX`. -/
theorem witness_BuilderCapacityRefused :
    ∃ s : State, s.phase = .build ∧ s.cfg.nameMax = 4 ∧
      (lookup s.labels (longName 5) = none ∧ s.cfg.nameMax < (longName 5).length) ∧
      (lookup s.labels nM = none ∧ s.nl = s.cfg.nLabelMax) ∧
      s.ni = s.cfg.nInstrMax ∧
      (∃ rs r, s.curV = true ∧ s.instrs = rs ++ [r] ∧ r.op2 = none ∧
        r.opc ∈ Opcode.jmp :: .call :: binaryOpcodes) :=
  ⟨{ fullStores with cfg := { fullStores.cfg with nameMax := 4 } }, by decide, by decide, by decide,
    by decide, by decide, [], newRecord .jmp, by decide⟩

theorem witness_BuilderFailureLeavesProgram :
    ∃ t, builderCommand (.setOp2 (.literal 5)) = true ∧
      exec (.setOp2 (.literal 5)) (building [newRecord .call] []) = .next t ∧ t.lastErr ≠ .ok :=
  ⟨_, rfl, rfl, by decide⟩

/-- Each of the three causes, and a command with none of them. -/
theorem witness_PhaseTableDecidesInvalidState :
    errOf (exec .assemble doneState) = some .invalidState ∧
      errOf (exec (.setCond .al) State.reset) = some .invalidState ∧
      errOf (exec (.readOut 0) State.reset) = some .invalidState ∧
      errOf (exec (.readOut 0) doneState) = some .ok := by decide

/-- The codes 0xC and 0xF, the address `OLEN` and the one below it. -/
theorem witness_BadCommandHasTwoCauses :
    0xC ≤ (BitVec.extractLsb' 28 4 (0xC0000000 : Word)).toNat ∧
      0xC ≤ (BitVec.extractLsb' 28 4 (0xF0000031 : Word)).toNat ∧
      ¬0xC ≤ (BitVec.extractLsb' 28 4 (0xBFFFFFFF : Word)).toNat ∧
      doneState.phase = .done ∧ doneState.olen ≤ (6 : Word).toNat ∧
      errOf (exec (.readOut 6) doneState) = some .badCommand ∧
      errOf (exec (.readOut 5) doneState) = some .ok ∧
      reservedCommands.map (fun i => errOf (exec i doneState)) =
        List.replicate 4 (some .badCommand) := by decide

/-- The last selector that has a register and the first that has none. -/
theorem witness_ReadRegAnswersRegister :
    8 ≤ (8 : BitVec 4).toNat ∧ ¬8 ≤ (7 : BitVec 4).toNat ∧
      (nextOf (exec (.readReg 7) oneMov)).map State.resp = some (some ⟨.ok, 1⟩) ∧
      (nextOf (exec (.readReg 8) oneMov)).map State.resp = some (some ⟨.ok, 0⟩) ∧
      (nextOf (exec (.readReg 4) doneState)).map State.resp = some (some ⟨.ok, 6⟩) := by decide

/-- The last byte of the buffer. -/
theorem witness_ReadOutAnswersByte :
    ∃ (s : State) (a : Word) (b : Byte), s.phase = .done ∧ a.toNat < s.olen ∧
      Memory.read s.out a.toNat = some b ∧ a.toNat + 1 = s.olen := ⟨doneState, 5, 0, by decide⟩

theorem witness_ErrorRegistersFollowResponse :
    (∃ t, exec (.readOut 6) doneState = .next t ∧ t.lastErr = .badCommand) ∧
      (∃ t, exec .reset doneState = .next t ∧ t.firstErr = .ok) ∧
      Instr.isCommand (.readOut 6) = true ∧ (∀ sel, Instr.readOut 6 ≠ .readReg sel) ∧
      Instr.isCommand .reset = true ∧ ∀ sel, Instr.reset ≠ .readReg sel :=
  ⟨⟨_, rfl, rfl⟩, ⟨_, rfl, rfl⟩, rfl, nofun, rfl, nofun⟩

theorem witness_OnlyResetLeavesFinalPhase :
    ∃ t, Instr.isCommand .addNop = true ∧ Instr.addNop ≠ .reset ∧ doneState.phase ≠ .build ∧
      exec .addNop doneState = .next t := ⟨_, rfl, by decide, by decide, rfl⟩

theorem witness_OutputImmutableInDone :
    ∃ t, Instr.isCommand .assemble = true ∧ Instr.assemble ≠ .reset ∧ doneState.phase = .done ∧
      exec .assemble doneState = .next t := ⟨_, rfl, by decide, rfl, rfl⟩

/-- With an instruction under construction, and without. -/
theorem witness_ProgramIsAppendOnly :
    (∃ t, exec (.setSize .word) oneMov = .next t) ∧
      (∃ t, exec .addNop threeRecords = .next t) ∧ threeRecords.curV = false ∧
      Instr.isCommand .addNop = true ∧ Instr.isCommand (.setSize .word) = true ∧
      (∃ t, exec .reset threeRecords = .next t) :=
  ⟨⟨_, rfl⟩, ⟨_, rfl⟩, rfl, rfl, rfl, _, rfl⟩

theorem witness_InstructionsKeepParametersAndPort :
    (∃ t, exec .assemble overLong = .next t) ∧ ∃ t, exec .nop oneMov = .next t := ⟨⟨_, rfl⟩, _, rfl⟩

/-! The emission statements: the state before the first instruction, with and without a label. -/

theorem witness_JmpEmitsConditionAndTarget :
    let o := some (Operand.symbol nMain)
    let p := opPayload oneMov (oneMov.olen + 2) 4 o
    litBelowCeiling o = true ∧ p = ([0, 0, 0, 0], [⟨2, nMain⟩]) ∧
      Ready oneMov (2 + p.1.length) p.2.length := by decide

theorem witness_CallEmitsTarget :
    (∀ v, some (Operand.symbol nPrintf) ≠ some (.literal v)) ∧
      opPayload oneMov (oneMov.olen + 1) 4 (some (.symbol nPrintf)) = (nPrintf, []) ∧
      Ready oneMov (1 + nPrintf.length) 0 := ⟨nofun, by decide, by decide⟩

/-- The last two and three bytes of a buffer. -/
theorem witness_RetEmitsJumpThroughLinkRegister : Ready (small 2 1 64 oneMov) 2 0 := by decide

theorem witness_NopEmitsCanonicalBytes : Ready (small 3 1 64 oneMov) 3 0 := by decide

theorem witness_NotEmitsTwoBytes : Ready (small 2 1 64 oneMov) 2 0 := by decide

/-- The largest literal below the ceiling, in a DWORD. -/
theorem witness_BinaryEmitsSizeOperandsPayload :
    ((0x1, .add) : Byte × (Option Size → Option RegOperand → Option Operand → Instr)) ∈
        binaryInstrs ∧
      litBelowCeiling (some (.literal (2 ^ 64 - 1))) = true ∧
      opPayload oneMov 2 (2 ^ sizeNum (some .dword)) (some (.literal (2 ^ 64 - 1))) =
        (List.replicate 8 0xFF, []) ∧ Ready oneMov 10 0 :=
  ⟨.head _, by decide, by decide, by decide⟩

/-- A NOP for a buffer of two bytes. -/
theorem witness_EmissionBeyondBufferFailsPass :
    ∃ (i : Instr) (r : Record) (s : State), recordOf i = some r ∧ s.scr = 0 ∧ s.scrn = 0 ∧
      litBelowCeiling r.op2 = true ∧ s.nf + refsOf s.labels r ≤ s.cfg.nFixupMax ∧
      s.olen ≤ s.cfg.outMax ∧ s.cfg.outMax < s.olen + recordLen s.cfg s.labels r :=
  ⟨.nop, nopRecord, small 2 1 64 oneMov, by decide⟩

theorem witness_FullFixupQueueFailsPass :
    ∃ (i : Instr) (r : Record) (n : SymName) (s : State), recordOf i = some r ∧
      r.op2 = some (.symbol n) ∧ (lookup s.labels n).isSome ∧ s.scr = 0 ∧ s.scrn = 0 ∧
      s.olen + headLen r ≤ s.cfg.outMax ∧ s.nf = s.cfg.nFixupMax :=
  ⟨.call (some (.symbol nMain)), callRecord (some (.symbol nMain)), nMain, fullStores, by decide⟩

theorem witness_LiteralBeyondCeilingFailsPass :
    ∃ (i : Instr) (r : Record) (v : Nat) (s : State), recordOf i = some r ∧
      r.op2 = some (.literal v) ∧ 2 ^ 64 ≤ v ∧ s.scr = 0 ∧ s.scrn = 0 ∧
      s.olen + headLen r ≤ s.cfg.outMax :=
  ⟨.add none none (some (.literal (2 ^ 64))), sizedRecord .add none none (some (.literal (2 ^ 64))),
    2 ^ 64, wideLiteral, by decide⟩

theorem witness_EmissionAgreesWithFormatTable :
    ∃ (i : Instr) (r : Record) (s : State) (bs : List Byte), recordOf i = some r ∧
      litBelowCeiling r.op2 = true ∧
      encodeBytecode s.cfg (fun n => (lookup s.labels n).map fun _ => 0) i = some bs ∧
      Ready s bs.length (refsOf s.labels r) ∧ refsOf s.labels r = 1 :=
  ⟨.jmp none (some (.symbol nMain)), jmpRecord none (some (.symbol nMain)), oneMov,
    [0x04, 0x80, 0, 0, 0, 0], by decide⟩

theorem witness_EmittedLengthFollowsFormula :
    ∃ (i : Instr) (r : Record) (s : State), recordOf i = some r ∧ litBelowCeiling r.op2 = true ∧
      Ready s (recordLen s.cfg s.labels r) (refsOf s.labels r) ∧ s.cfg.outMax = s.olen + 3 :=
  ⟨.nop, nopRecord, small 3 1 64 oneMov, by decide⟩

/-- A JMP, a CALL and a NOT, the instructions with clauses of their own. -/
theorem witness_ReservedInstructionBytesNeverEmitted :
    let s := oneMov
    ∀ p ∈ [(Instr.jmp none none, jmpRecord none none),
        (.call (some (.register 7)), callRecord (some (.register 7))),
        (.not none (some (.indirect 6)), sizedRecord .not none (some (.indirect 6)) none)],
      recordOf p.1 = some p.2 ∧ p.2.legal s.cfg = true ∧ litBelowCeiling p.2.op2 = true ∧
        Ready s (recordLen s.cfg s.labels p.2) (refsOf s.labels p.2) := by decide

/-- An instruction that completes, and one that fails the pass. -/
theorem witness_EmissionFrame :
    Instr.isCommand .nop = false ∧ (∃ t, exec .nop oneMov = .next t ∧ t.olen = 3) ∧
      ∃ t, exec .nop (small 2 1 64 oneMov) = .next t ∧ t.phase = .failed :=
  ⟨rfl, ⟨_, rfl, rfl⟩, _, rfl, rfl⟩

/-! ASSEMBLE and the invariant. -/

theorem threeRecords_inv : Inv threeRecords := by constructor <;> decide

theorem overLong_inv : Inv overLong := by constructor <;> decide

theorem wideLiteral_inv : Inv wideLiteral := by constructor <;> decide

/-- In every phase. -/
theorem doneState_inv : Inv doneState := by constructor <;> decide

theorem failed_inv : Inv (failedWith overLong .capacityExceeded) := by constructor <;> decide

theorem witness_AssembleEncodesProgram :
    ∃ s : State, Inv s ∧ s.phase = .build ∧ Assemblable s ∧ s.ni = 3 :=
  ⟨threeRecords, threeRecords_inv, by decide⟩

theorem witness_AssembleResolvesLabels :
    ∃ s t : State, Inv s ∧ s.phase = .build ∧ exec .assemble s = .next t ∧ t.phase = .done ∧
      t.nl = 2 ∧ t.nf = 1 := ⟨threeRecords, _, threeRecords_inv, rfl, rfl, by decide⟩

theorem witness_AssembleFailureIsAllOrNothing :
    ∃ s t : State, s.phase = .build ∧ exec .assemble s = .next t ∧ t.lastErr ≠ .ok :=
  ⟨overLong, _, rfl, rfl, by decide⟩

/-- The three outcomes. -/
theorem witness_AssembleRaisesOnlyEncodingOrCapacity :
    (∃ s t : State, Inv s ∧ s.phase = .build ∧ exec .assemble s = .next t ∧ t.lastErr = .ok) ∧
      (∃ s t : State, Inv s ∧ s.phase = .build ∧ exec .assemble s = .next t ∧
        t.lastErr = .unsupportedEncoding) ∧
      ∃ s t : State, Inv s ∧ s.phase = .build ∧ exec .assemble s = .next t ∧
        t.lastErr = .capacityExceeded :=
  ⟨⟨threeRecords, _, threeRecords_inv, rfl, rfl, by decide⟩,
    ⟨wideLiteral, _, wideLiteral_inv, rfl, rfl, by decide⟩,
    overLong, _, overLong_inv, rfl, rfl, by decide⟩

/-- The run that ends in BUILD and the run that leaves it. -/
theorem witness_AssembleRunsEachInstruction :
    (∃ s t : State, Inv s ∧ s.phase = .build ∧
      execPass 0 s.instrs { s with curV := false } = .next t ∧ t.phase = .build) ∧
    ∃ s t : State, Inv s ∧ s.phase = .build ∧
      execPass 0 s.instrs { s with curV := false } = .next t ∧ t.phase ≠ .build :=
  ⟨⟨threeRecords, _, threeRecords_inv, rfl, rfl, by decide⟩,
    overLong, _, overLong_inv, rfl, rfl, by decide⟩

/-- Two states that differ in `FIRST_ERR`. -/
theorem witness_AssembleDependsOnProgramOnly :
    ∃ s s' t t' : State, Inv s ∧ Inv s' ∧ s.phase = .build ∧ s'.phase = .build ∧ s.cfg = s'.cfg ∧
      s.instrs = s'.instrs ∧ s.labels = s'.labels ∧ exec .assemble s = .next t ∧
      exec .assemble s' = .next t' ∧ s ≠ s' :=
  ⟨threeRecords, { threeRecords with firstErr := .badCommand }, _, _, threeRecords_inv,
    by constructor <;> decide, rfl, rfl, rfl, rfl, rfl, rfl, rfl, by decide⟩

theorem witness_StepKeepsInvariant :
    ∃ s t : State, Inv s ∧ step s = .next t ∧ t.phase = .done :=
  ⟨{ threeRecords with port := [.word 0x80000000] }, _, by constructor <;> decide, rfl, by decide⟩

theorem witness_ResetMeetsInvariant : Config.default.wf := by decide

/-- In each phase, with a command that succeeds there. -/
theorem witness_EveryCommandAnswers :
    Inv threeRecords ∧ Inv doneState ∧ Inv (failedWith overLong .capacityExceeded) ∧
      Instr.isCommand .assemble = true ∧ Instr.isCommand (.readOut 5) = true ∧
      Instr.isCommand .reset = true :=
  ⟨threeRecords_inv, doneState_inv, failed_inv, rfl, rfl, rfl⟩

/-! Encodings and the step. -/

/-- A name and the largest literal of a 64-bit port. -/
theorem witness_CommandDecodeEncode :
    (∃ bs, (Instr.addLabel nMain).wf Config.default = true ∧
      encodeCommand Config.default (.addLabel nMain) = some bs) ∧
    ∃ bs, (Instr.setOp2 (.literal (2 ^ 64 - 1))).wf Config.default = true ∧
      encodeCommand Config.default (.setOp2 (.literal (2 ^ 64 - 1))) = some bs :=
  ⟨⟨_, rfl, rfl⟩, _, rfl, rfl⟩

theorem witness_BytecodeDecodeEncode :
    (Instr.mov (some .byte) (some (.register 1)) (some (.symbol nData))).decodable = true ∧
      encodeBytecode Config.default (fun _ => some 6)
        (.mov (some .byte) (some (.register 1)) (some (.symbol nData))) =
          some [0xD4, 0x08, 0x06, 0, 0, 0] := by decide

/-- With no symbol and with an external one. -/
theorem witness_BytecodeEncodeDecode :
    decodeBytecode none [0x06, 0x00, 0x00, 0xA0] = .ok (.nop, [0xA0]) ∧
      decodeBytecode (some (.externalName 4)) [0xD4, 0xA0, 0x64, 0x61, 0x74, 0x61] =
        .ok (.mov (some .word) (some (.register 4)) (some (.symbol nData)), []) ∧
      ∀ n, some (SymInfo.externalName 4) ≠ some (.localLabel n) :=
  ⟨by decide, by decide, nofun⟩

theorem witness_DecodedCommandIsWellFormed :
    decodeCommand Config.default [.word 0x10000100, .byte 0x6D, .word 0] =
      .ok (.addLabel nM, [.word 0]) := by decide

/-- A whole command on the port, part of one, an empty port, and a byte for a header. -/
theorem witness_StepRunsDecodedCommand :
    decodeCommand Config.default [.word 0x30000008, .word 0] = .ok (.setCond .al, [.word 0]) ∧
      decodeCommand Config.default [.word 0x90000000] = .error .incomplete ∧
      State.reset.port = [] ∧ decodeCommand Config.default [.byte 0] = .error .framing := by decide

end Sys2Proof.Tests
end

section
/-! SUPPORT. What the passes of ASSEMBLE never look at (spec/00_scope.md R13, spec/41_assemble.md R160):
the error registers, the port and the last response. Each operation of the pass commutes with replacing
them, so what it computes, and whether it stops, does not depend on them. -/

namespace Sys2Proof.Machine

/-! ## The client's side of the state -/

/-- State `s` with the error registers, the port and the last response of `o`: what the client has been
told and what it has still to say. -/
def State.withClientOf (o s : State) : State :=
  { s with lastErr := o.lastErr, firstErr := o.firstErr, port := o.port, resp := o.resp }

@[simp] theorem State.withClientOf_labels (o s : State) :
    (o.withClientOf s).labels = s.labels := rfl

/-- An operation of the pass that neither reads nor writes the client's side. -/
def ClientBlind (f : State → Pass) : Prop :=
  ∀ o s : State, f (o.withClientOf s) = (f s).map o.withClientOf

namespace ClientBlind

theorem pure : ClientBlind .ok := fun _ _ => rfl

theorem stop (x : Stop) : ClientBlind fun _ => .error x := fun _ _ => rfl

theorem bind {f g : State → Pass} (hf : ClientBlind f) (hg : ClientBlind g) :
    ClientBlind fun s => f s >>= g := fun o s => by
  simp only [hf o s]
  cases f s with
  | error x => rfl
  | ok t => exact hg o t

theorem ite {p : State → Prop} [DecidablePred p] {f g : State → Pass}
    (hp : ∀ o s : State, p (o.withClientOf s) ↔ p s) (hf : ClientBlind f) (hg : ClientBlind g) :
    ClientBlind fun s => if p s then f s else g s := fun o s => by
  simp only [hp]
  split
  · exact hf o s
  · exact hg o s

/-- A change of the state before the operation, itself blind. -/
theorem comp {f : State → Pass} {u : State → State}
    (hu : ∀ o s : State, u (o.withClientOf s) = o.withClientOf (u s)) (hf : ClientBlind f) :
    ClientBlind fun s => f (u s) := fun o s => by
  simp only [hu]
  exact hf o (u s)

/-- A change of the state after the operation, itself blind. -/
theorem map {f : State → Pass} {u : State → State}
    (hu : ∀ o s : State, u (o.withClientOf s) = o.withClientOf (u s)) (hf : ClientBlind f) :
    ClientBlind fun s => (f s).map u := fun o s => by
  simp only [hf o s]
  cases f s with
  | error x => rfl
  | ok t => exact congrArg Except.ok (hu o t)

/-- An operation whose argument is taken from outside the client's side. -/
theorem read {α : Type} {f : α → State → Pass} {a : State → α}
    (ha : ∀ o s : State, a (o.withClientOf s) = a s) (hf : ∀ x, ClientBlind (f x)) :
    ClientBlind fun s => f (a s) s := fun o s => by
  simp only [ha]
  exact hf (a s) o s

end ClientBlind

/-! ## The bit packer (R54, R145, R146) -/

theorem emitByte_clientBlind (b : Byte) : ClientBlind (emitByte b) :=
  .ite (fun _ _ => Iff.rfl) (.stop _) (.comp (fun _ _ => rfl) .pure)

theorem emitBytes_clientBlind (bs : List Byte) : ClientBlind (emitBytes bs) := by
  induction bs with
  | nil => exact .pure
  | cons b bs ih => exact (emitByte_clientBlind b).bind ih

/-- Emitting the scratch and emptying it. -/
theorem flush_clientBlind :
    ClientBlind fun s => (emitByte s.scr s).map fun u => { u with scr := 0, scrn := 0 } :=
  .map (fun _ _ => rfl) (.read (fun _ _ => rfl) emitByte_clientBlind)

theorem put_clientBlind (v w : Nat) : ClientBlind (put v w) :=
  .ite (fun _ _ => Iff.rfl) (.stop _) <|
    .comp (u := fun s => { s with scr := packed v w s, scrn := s.scrn + w }) (fun _ _ => rfl) <|
      .ite (p := fun t => t.scrn = 8) (fun _ _ => Iff.rfl) flush_clientBlind .pure

theorem align_clientBlind : ClientBlind align :=
  .ite (fun _ _ => Iff.rfl) flush_clientBlind .pure

theorem putWhen_clientBlind (p : Bool) (v w : Nat) : ClientBlind (putWhen p v w) :=
  .ite (fun _ _ => Iff.rfl) (put_clientBlind v w) .pure

/-! ## Operands and records (R141, R149 to R153) -/

theorem emitPlaceholder_clientBlind (n : SymName) : ClientBlind (emitPlaceholder n) :=
  .ite (fun _ _ => Iff.rfl) (.stop _) (.comp (fun _ _ => rfl) (emitBytes_clientBlind _))

theorem emitSymbol_clientBlind (n : SymName) : ClientBlind (emitSymbol n) :=
  .ite (fun _ _ => Iff.rfl) (emitPlaceholder_clientBlind n) (emitBytes_clientBlind n)

theorem emitLiteral_clientBlind (z : Option Size) (v : Nat) : ClientBlind (emitLiteral z v) :=
  .ite (fun _ _ => Iff.rfl) (.stop _) (emitBytes_clientBlind _)

theorem alignForReg_clientBlind : ClientBlind alignForReg :=
  .ite (fun _ _ => Iff.rfl) align_clientBlind .pure

theorem emitOp1_clientBlind (e : Record) : ClientBlind (emitOp1 e) := by
  unfold emitOp1
  cases e.op1 with
  | none => exact .pure
  | some o => exact put_clientBlind _ _

theorem emitOp2_clientBlind (e : Record) : ClientBlind (emitOp2 e) := by
  unfold emitOp2
  match e.op2 with
  | none => exact .pure
  | some (.register r) => exact alignForReg_clientBlind.bind (put_clientBlind _ _)
  | some (.indirect r) => exact alignForReg_clientBlind.bind (put_clientBlind _ _)
  | some (.symbol n) => exact align_clientBlind.bind (emitSymbol_clientBlind n)
  | some (.literal v) => exact align_clientBlind.bind (emitLiteral_clientBlind _ v)

theorem emitLowered_clientBlind (e : Record) : ClientBlind (emitLowered e) :=
  (((((emitByte_clientBlind _).bind (putWhen_clientBlind _ _ _)).bind
    (putWhen_clientBlind _ _ _)).bind (emitOp1_clientBlind e)).bind
    (emitOp2_clientBlind e)).bind align_clientBlind

theorem emitRecord_clientBlind (r : Record) : ClientBlind (emitRecord r) :=
  .read (a := fun s => lower s.cfg r) (fun _ _ => rfl) emitLowered_clientBlind

/-! ## The passes (R140, R141, R156) -/

theorem emitPass_clientBlind (i : Nat) (rs : List Record) : ClientBlind (emitPass i rs) := by
  induction rs generalizing i with
  | nil => exact .pure
  | cons r rs ih =>
    exact (ClientBlind.comp (u := recordLabels i) (fun _ _ => rfl) (emitRecord_clientBlind r)).bind
      (ih (i + 1))

theorem memWrite_clientBlind (a n v : Nat) : ClientBlind (memWrite a n v) :=
  .ite (fun _ _ => Iff.rfl) (.comp (fun _ _ => rfl) .pure) (.stop _)

theorem patch_clientBlind (f : Fixup) : ClientBlind (patch f) := fun o s => by
  simp only [patch, State.withClientOf_labels]
  cases resolvedOff s.labels f.name with
  | none => rfl
  | some off => exact memWrite_clientBlind f.off 4 off o s

theorem fixupPass_clientBlind (fs : List Fixup) : ClientBlind (fixupPass fs) := by
  induction fs with
  | nil => exact .pure
  | cons f fs ih => exact (patch_clientBlind f).bind ih

theorem assemblePass_clientBlind : ClientBlind assemblePass :=
  have emit : ClientBlind fun s => emitPass 0 s.instrs s :=
    .read (fun _ _ => rfl) (emitPass_clientBlind 0)
  have fixup : ClientBlind fun t => fixupPass (resolveEndLabels t).fixups (resolveEndLabels t) :=
    .comp (f := fun u => fixupPass u.fixups u) (fun _ _ => rfl)
      (.read (fun _ _ => rfl) fixupPass_clientBlind)
  emit.bind (fixup.bind (.comp (fun _ _ => rfl) .pure))

end Sys2Proof.Machine
end

section
/-! The obligations of the scope: what ASSEMBLE produces depends on the program alone
(spec/00_scope.md R13, spec/41_assemble.md R160), and what one step is (R12). -/

namespace Sys2Proof.Machine

/-! ## What ASSEMBLE starts from -/

/-- In BUILD nothing has been emitted: the buffer, the queue and the scratch are empty (R29, R38 (1),
R38 (2)). -/
theorem Inv.nothing_emitted {s : State} (hs : Inv s) (hb : s.phase = .build) :
    s.fixups = [] ∧ s.out = [] ∧ s.olen = 0 ∧ s.scr = 0 ∧ s.scrn = 0 := by
  obtain ⟨hfix, holen, -⟩ := hs.building hb
  obtain ⟨hscr, hscrn⟩ := hs.scratch
  have hout : s.out = [] := by simpa [holen] using hs.buffer
  exact ⟨hfix, hout, holen, hscr, hscrn⟩

/-- Two states between commands that build the same program differ, once ASSEMBLE has cleared `CUR_V`,
in the client's side alone. -/
theorem Inv.eq_withClientOf {s s' : State} (hs : Inv s) (hs' : Inv s') (hb : s.phase = .build)
    (hb' : s'.phase = .build) (hcfg : s.cfg = s'.cfg) (hinstrs : s.instrs = s'.instrs)
    (hlabels : s.labels = s'.labels) :
    { s' with curV := false } = s'.withClientOf { s with curV := false } := by
  obtain ⟨hfix, hout, holen, hscr, hscrn⟩ := hs.nothing_emitted hb
  obtain ⟨hfix', hout', holen', hscr', hscrn'⟩ := hs'.nothing_emitted hb'
  simp [State.withClientOf, *]

/-- ASSEMBLE in BUILD is the pass with `CUR_V` cleared, and an answer (R140). -/
theorem exec_assemble_build {s : State} (hb : s.phase = .build) :
    exec .assemble s =
      passOutcome { s with curV := false }
        ((assemblePass { s with curV := false }).map fun t => t.answer 0) :=
  if_neg (not_not.mpr hb)

/-- Settles O47: the pass does not see the client's side, and in BUILD two states with one program
differ in nothing else. -/
theorem assembleDependsOnProgramOnly : Obligations.AssembleDependsOnProgramOnly := by
  intro s s' t t' hs hs' hb hb' hcfg hinstrs hlabels ht ht'
  rw [exec_assemble_build hb] at ht
  rw [exec_assemble_build hb', hs.eq_withClientOf hs' hb hb' hcfg hinstrs hlabels,
    assemblePass_clientBlind] at ht'
  cases hpass : assemblePass { s with curV := false } with
  | ok u =>
    rw [hpass] at ht ht'
    cases ht
    cases ht'
    exact ⟨rfl, rfl, rfl, rfl, rfl, rfl⟩
  | error x =>
    rw [hpass] at ht ht'
    cases x with
    | fault f => cases ht
    | raise e =>
      cases ht
      cases ht'
      exact ⟨rfl, rfl, rfl, rfl, rfl, rfl⟩

/-! ## The step -/

theorem step_of_command {s : State} {i : Instr} {rest : List Beat}
    (h : decodeCommand s.cfg s.port = .ok (i, rest)) : step s = exec i { s with port := rest } := by
  simp [step, h]

/-- The machine waits for the rest of a command (log 8). -/
theorem step_of_incomplete {s : State} (h : decodeCommand s.cfg s.port = .error .incomplete) :
    step s = .next s := by
  simp [step, h]

/-- Input that breaks the framing is refused (log 9). -/
theorem step_of_framing {s : State} (h : decodeCommand s.cfg s.port = .error .framing) :
    step s = .refused .portFraming := by
  simp [step, h]

/-- Settles O55: the branches of `step`, an empty port being the shortest incomplete command. -/
theorem stepRunsDecodedCommand : Obligations.StepRunsDecodedCommand :=
  have empty (s : State) (h : s.port = []) : decodeCommand s.cfg s.port = .error .incomplete := by
    rw [h]
    rfl
  ⟨fun _ _ _ => step_of_command, fun _ => step_of_incomplete,
    fun s h => step_of_incomplete (empty s h), fun _ => step_of_framing⟩

end Sys2Proof.Machine
end

section
/-! Facts about the state that every later proof needs: what reset and READ_REG give (spec/10_state.md
R34, R37), and what the client's side of the state has no part in (R38). -/

namespace Sys2Proof.Machine

/-! ## The invariant and the client's side -/

/-- R38 says nothing of the error registers, the port and the response. -/
theorem Inv.withClientOf {s : State} (hs : Inv s) (o : State) : Inv (o.withClientOf s) :=
  { hs with }

theorem Inv.raise {s : State} (hs : Inv s) (e : ErrCode) : Inv (s.raise e) :=
  hs.withClientOf (s.raise e)

theorem Inv.answer {s : State} (hs : Inv s) (d : Word) : Inv (s.answer d) :=
  hs.withClientOf (s.answer d)

theorem Inv.with_port {s : State} (hs : Inv s) (bs : List Beat) : Inv { s with port := bs } :=
  hs.withClientOf { s with port := bs }

theorem Inv.with_resp {s : State} (hs : Inv s) (r : Option Response) : Inv { s with resp := r } :=
  hs.withClientOf { s with resp := r }

/-! ## Reset -/

/-- After reset every store is empty, so each clause of R38 is about nothing (R37). -/
theorem inv_resetOf {c : Config} (hc : c.wf) : Inv (State.resetOf c) where
  config := hc
  scratch := ⟨rfl, rfl⟩
  building _ := ⟨rfl, rfl, by simp⟩
  labelIdx := by simp
  labelOrder := by simp
  labelNames := by simp
  current := by simp
  records := by simp
  assembled := by simp
  failed := by simp
  capacity := ⟨Nat.zero_le _, Nat.zero_le _, Nat.zero_le _⟩
  labelLength := by simp
  buffer := by simp
  outCapacity := Nat.zero_le _

theorem default_wf : Config.default.wf := by decide

/-- Settles O49: the stores are empty after reset, and the defaults meet R7. -/
theorem resetMeetsInvariant : Obligations.ResetMeetsInvariant :=
  ⟨inv_resetOf default_wf, fun _ hc => inv_resetOf hc⟩

/-! ## The status registers (R34) -/

theorem ErrCode.code_setWidth (e : ErrCode) : e.code.setWidth 32 = errNum e := by
  cases e <;> rfl

theorem ofBool_setWidth (b : Bool) : (BitVec.ofBool b).setWidth 32 = if b then (1 : Word) else 0 := by
  cases b <;> rfl

/-- A reserved selector reads as 0. -/
theorem statusReg_reserved {sel : BitVec 4} (h : 8 ≤ sel.toNat) (s : State) :
    statusReg sel s = 0 := by
  unfold statusReg
  split
  case h_9 => rfl
  all_goals omega

/-- Settles O22: each selector of the table of R34 in turn. -/
theorem readRegAnswersRegister : Obligations.ReadRegAnswersRegister := by
  intro s sel
  refine ⟨statusReg sel s, rfl, ?phase, ?ni, ?nl, ?nf, ?olen, ?lastErr, ?firstErr, ?curV,
    fun h => statusReg_reserved h s⟩
  case phase =>
    rintro rfl
    show s.phase.code.setWidth 32 = _
    cases s.phase <;> rfl
  case lastErr => rintro rfl; exact s.lastErr.code_setWidth
  case firstErr => rintro rfl; exact s.firstErr.code_setWidth
  case curV => rintro rfl; exact ofBool_setWidth s.curV
  case ni | nl | nf | olen => rintro rfl; rfl

end Sys2Proof.Machine
end

section
/-! What each operation of the emit pass can change, and what it keeps true of the buffer, the fixup
queue and the scratch byte (spec/20_memory.md R54, spec/41_assemble.md R141 to R153). -/

namespace Sys2Proof.Machine

/-! ## The addresses of the output buffer -/

/-- A write above every listed address is listed last. -/
theorem Memory.keys_write_above {m : Memory} {a : Nat} (b : Byte)
    (h : ∀ x ∈ m.map Prod.fst, x < a) :
    (Memory.write m a b).map Prod.fst = m.map Prod.fst ++ [a] := by
  induction m with
  | nil => rfl
  | cons p m ih =>
    obtain ⟨c, v⟩ := p
    obtain ⟨hc, hm⟩ := List.forall_mem_cons.mp h
    have hca : c < a := hc
    simp only [Memory.write, if_neg (show ¬a < c by omega), if_neg (show ¬a = c by omega),
      List.map_cons, ih hm, List.cons_append]

/-- A write to a listed address lists no other. -/
theorem Memory.keys_write_listed {m : Memory} {a : Nat} (b : Byte) (hm : Memory.wf m)
    (ha : a ∈ m.map Prod.fst) : (Memory.write m a b).map Prod.fst = m.map Prod.fst := by
  induction m with
  | nil => simp at ha
  | cons p m ih =>
    obtain ⟨c, v⟩ := p
    obtain ⟨hc, hm⟩ := List.pairwise_cons.mp hm
    rcases List.mem_cons.mp ha with hac | ha
    · have hac : a = c := hac
      simp [Memory.write, hac]
    · have hca : c < a := hc a ha
      simp only [Memory.write, if_neg (show ¬a < c by omega), if_neg (show ¬a = c by omega),
        List.map_cons, ih hm ha]

/-- Bytes emitted at the end extend the buffer (R29, R54). -/
theorem Memory.keys_writeBytes_end {m : Memory} {n : Nat} (bs : List Byte)
    (h : m.map Prod.fst = List.range n) :
    (Memory.writeBytes m n bs).map Prod.fst = List.range (n + bs.length) := by
  induction bs generalizing m n with
  | nil => exact h
  | cons b bs ih =>
    have hw : (Memory.write m n b).map Prod.fst = List.range (n + 1) := by
      rw [Memory.keys_write_above b (by simp [h]), h, List.range_succ]
    rw [Memory.writeBytes, ih hw, List.length_cons, Nat.add_right_comm, Nat.add_assoc]

/-- Bytes written inside the buffer leave its extent (R29, R53). -/
theorem Memory.keys_writeBytes_inside {m : Memory} {n a : Nat} {bs : List Byte}
    (h : m.map Prod.fst = List.range n) (ha : a + bs.length ≤ n) :
    (Memory.writeBytes m a bs).map Prod.fst = List.range n := by
  induction bs generalizing m a with
  | nil => exact h
  | cons b bs ih =>
    rw [List.length_cons] at ha
    have hmem : a ∈ m.map Prod.fst := by rw [h, List.mem_range]; omega
    have hw := (Memory.keys_write_listed b (Memory.wf_of_keys h) hmem).trans h
    exact ih hw (by omega)

/-! ## What holds while the pass emits -/

/-- What every operation of the emit pass keeps: the buffer is `OUT[0 .. OLEN-1]` and within `OUT_MAX`,
an empty scratch byte is 0, and the placeholders of the queue lie in the buffer, none over another. -/
structure EmissionInv (s : State) : Prop where
  buffer : s.out.map Prod.fst = List.range s.olen
  outCapacity : s.olen ≤ s.cfg.outMax
  scratch : s.scrn = 0 → s.scr = 0
  fixupCapacity : s.nf ≤ s.cfg.nFixupMax
  fixupsInside : ∀ f ∈ s.fixups, f.off + 4 ≤ s.olen
  fixupsApart : s.fixups.Pairwise fun f g => f.off + 4 ≤ g.off

/-- Where nothing has been emitted, the pass can begin (R38 (2)). -/
theorem Inv.emissionInv {s : State} (hs : Inv s) (hb : s.phase = .build) : EmissionInv s := by
  obtain ⟨hfix, -, -, hscr, -⟩ := hs.nothing_emitted hb
  obtain ⟨-, -, hnf⟩ := hs.capacity
  exact ⟨hs.buffer, hs.outCapacity, fun _ => hscr, hnf, by simp [hfix], by simp [hfix]⟩

theorem EmissionInv.emit {s : State} (hs : EmissionInv s) (bs : List Byte)
    (h : s.olen + bs.length ≤ s.cfg.outMax) :
    EmissionInv
      { s with out := Memory.writeBytes s.out s.olen bs, olen := s.olen + bs.length } where
  buffer := Memory.keys_writeBytes_end bs hs.buffer
  outCapacity := h
  scratch := hs.scratch
  fixupCapacity := hs.fixupCapacity
  fixupsInside f hf := Nat.le_add_right_of_le (hs.fixupsInside f hf)
  fixupsApart := hs.fixupsApart

theorem EmissionInv.with_scratch {s : State} (hs : EmissionInv s) {b : Byte} {n : Nat}
    (h : n = 0 → b = 0) : EmissionInv { s with scr := b, scrn := n } :=
  { hs with scratch := h }

/-- The queue entry of a placeholder of four bytes (R152). -/
theorem EmissionInv.placeholder {s : State} (hs : EmissionInv s) (n : SymName)
    (hq : s.nf ≠ s.cfg.nFixupMax) (h : s.olen + 4 ≤ s.cfg.outMax) :
    EmissionInv { s with
      fixups := s.fixups ++ [⟨s.olen, n⟩]
      out := Memory.writeBytes s.out s.olen [0, 0, 0, 0]
      olen := s.olen + 4 } where
  buffer := Memory.keys_writeBytes_end [0, 0, 0, 0] hs.buffer
  outCapacity := h
  scratch := hs.scratch
  fixupCapacity := List.length_append.trans_le (Nat.lt_of_le_of_ne hs.fixupCapacity hq)
  fixupsInside f hf := by
    rcases List.mem_append.mp hf with hf | hf
    · exact Nat.le_add_right_of_le (hs.fixupsInside f hf)
    · rw [List.mem_singleton.mp hf]
  fixupsApart := by
    refine List.pairwise_append.mpr ⟨hs.fixupsApart, List.pairwise_singleton _ _, ?_⟩
    intro f hf g hg
    rw [List.mem_singleton.mp hg]
    exact hs.fixupsInside f hf

/-! ## One operation of the emission -/

/-- From `s` to `t` nothing but the buffer, the queue and the scratch changes. -/
def EmitFrame (s t : State) : Prop :=
  t = { s with
    out := t.out, olen := t.olen, fixups := t.fixups, scr := t.scr, scrn := t.scrn }

theorem EmitFrame.trans {s t u : State} (h : EmitFrame s t) (h' : EmitFrame t u) :
    EmitFrame s u :=
  Eq.trans h' <| congrArg
    (fun x : State => { x with
      out := u.out, olen := u.olen, fixups := u.fixups, scr := u.scr, scrn := u.scrn })
    (show t = _ from h)

theorem EmitFrame.cfg {s t : State} (h : EmitFrame s t) : t.cfg = s.cfg := by rw [h]

theorem EmitFrame.port {s t : State} (h : EmitFrame s t) : t.port = s.port := by rw [h]

theorem EmitFrame.labels {s t : State} (h : EmitFrame s t) : t.labels = s.labels := by rw [h]

theorem EmitFrame.with_labels {s t : State} (h : EmitFrame s t) (ls : List Label) :
    EmitFrame { s with labels := ls } { t with labels := ls } := by
  have heq : { t with labels := ls } = { s with
      labels := ls
      out := t.out, olen := t.olen, fixups := t.fixups, scr := t.scr, scrn := t.scrn } :=
    congrArg (fun x : State => { x with labels := ls }) h
  exact heq

/-- What an operation of the emission does to the state when it succeeds. -/
structure EmitStep (s t : State) : Prop where
  frame : EmitFrame s t
  keeps : EmissionInv s → EmissionInv t

/-- An operation that, when it succeeds, changes nothing but the buffer, the queue and the scratch, and
keeps what holds while the pass emits. -/
def Emitting (f : State → Pass) : Prop := ∀ s t : State, f s = .ok t → EmitStep s t

namespace Emitting

theorem pure : Emitting .ok := fun s _ h => by
  cases h
  exact ⟨rfl, id⟩

theorem stop (x : Stop) : Emitting fun _ => .error x := fun _ _ h => by cases h

theorem bind {f g : State → Pass} (hf : Emitting f) (hg : Emitting g) :
    Emitting fun s => f s >>= g := fun s t h => by
  obtain ⟨u, hu, ht⟩ := pass_bind_ok h
  have hsu := hf s u hu
  have hut := hg u t ht
  exact ⟨hsu.frame.trans hut.frame, hut.keeps ∘ hsu.keeps⟩

theorem ite {p : State → Prop} [DecidablePred p] {f g : State → Pass} (hf : Emitting f)
    (hg : Emitting g) : Emitting fun s => if p s then f s else g s := fun s t h => by
  by_cases hp : p s
  · exact hf s t (by simpa only [if_pos hp] using h)
  · exact hg s t (by simpa only [if_neg hp] using h)

end Emitting

/-! ## The bit packer (R54, R145, R146) -/

theorem emitByte_emitting (b : Byte) : Emitting (emitByte b) := fun s t h => by
  obtain ⟨hroom, rfl⟩ := emitByte_ok h
  exact ⟨rfl, fun hs => hs.emit [b] (Nat.lt_of_le_of_ne hs.outCapacity hroom)⟩

theorem emitBytes_emitting (bs : List Byte) : Emitting (emitBytes bs) := by
  induction bs with
  | nil => exact .pure
  | cons b bs ih => exact (emitByte_emitting b).bind ih

theorem align_emitting : Emitting align := fun s t h => by
  obtain ⟨-, rfl⟩ | ⟨-, hroom, rfl⟩ := align_ok h
  · exact ⟨rfl, id⟩
  · exact ⟨rfl, fun hs =>
      (hs.emit [s.scr] (Nat.lt_of_le_of_ne hs.outCapacity hroom)).with_scratch fun _ => rfl⟩

/-- A field has at least one bit, so a byte that holds one is not empty. -/
theorem put_emitting (v : Nat) {w : Nat} (hw : 0 < w) : Emitting (put v w) := fun s t h => by
  obtain ⟨-, rfl⟩ | ⟨-, hroom, rfl⟩ := put_ok h
  · exact ⟨rfl, fun hs => hs.with_scratch fun h0 => by omega⟩
  · exact ⟨rfl, fun hs =>
      (hs.emit [packed v w s] (Nat.lt_of_le_of_ne hs.outCapacity hroom)).with_scratch fun _ => rfl⟩

theorem putWhen_emitting (p : Bool) (v : Nat) {w : Nat} (hw : 0 < w) :
    Emitting (putWhen p v w) :=
  .ite (p := fun _ => p = true) (put_emitting v hw) .pure

theorem alignForReg_emitting : Emitting alignForReg := .ite align_emitting .pure

/-! ## Operands and records (R141, R149 to R153) -/

theorem emitPlaceholder_emitting (n : SymName) : Emitting (emitPlaceholder n) := fun s t h => by
  unfold emitPlaceholder at h
  split at h
  · cases h
  · next hq =>
    obtain ⟨rfl, hroom⟩ := emitBytes_ok h
    exact ⟨rfl, fun hs => hs.placeholder n hq (hroom hs.outCapacity)⟩

theorem emitSymbol_emitting (n : SymName) : Emitting (emitSymbol n) :=
  .ite (emitPlaceholder_emitting n) (emitBytes_emitting n)

theorem emitLiteral_emitting (z : Option Size) (v : Nat) : Emitting (emitLiteral z v) :=
  .ite (p := fun _ => 2 ^ 64 ≤ v) (.stop _) (emitBytes_emitting _)

theorem emitOp1_emitting (e : Record) : Emitting (emitOp1 e) := by
  unfold emitOp1
  cases e.op1 with
  | none => exact .pure
  | some o => exact put_emitting _ (by decide)

theorem emitOp2_emitting (e : Record) : Emitting (emitOp2 e) := by
  unfold emitOp2
  match e.op2 with
  | none => exact .pure
  | some (.register r) => exact alignForReg_emitting.bind (put_emitting _ (by decide))
  | some (.indirect r) => exact alignForReg_emitting.bind (put_emitting _ (by decide))
  | some (.symbol n) => exact align_emitting.bind (emitSymbol_emitting n)
  | some (.literal v) => exact align_emitting.bind (emitLiteral_emitting _ v)

theorem emitLowered_emitting (e : Record) : Emitting (emitLowered e) :=
  (((((emitByte_emitting _).bind (putWhen_emitting _ _ (by decide))).bind
    (putWhen_emitting _ _ (by decide))).bind (emitOp1_emitting e)).bind
    (emitOp2_emitting e)).bind align_emitting

theorem emitRecord_emitting (r : Record) : Emitting (emitRecord r) :=
  fun s => emitLowered_emitting (lower s.cfg r) s

/-- After an alignment the scratch is empty (R146). -/
theorem align_scrn {s t : State} (h : align s = .ok t) : t.scrn = 0 := by
  obtain ⟨h0, rfl⟩ | ⟨-, -, rfl⟩ := align_ok h
  · exact h0
  · rfl

/-- Every record ends with an alignment (R141). -/
theorem emitRecord_scrn {r : Record} {s t : State} (h : emitRecord r s = .ok t) : t.scrn = 0 := by
  obtain ⟨u, -, hu⟩ := pass_bind_ok h
  exact align_scrn hu

end Sys2Proof.Machine
end

section
/-! What the passes of ASSEMBLE can change, and that the fixup pass leaves every fixup patched
(spec/41_assemble.md R140 to R142, R155 to R159). -/

namespace Sys2Proof.Machine

/-! ## The emit pass -/

/-- From `s` to `t` nothing but the buffer, the queue, the scratch and the labels' offsets changes. -/
structure PassFrame (s t : State) : Prop where
  frame : EmitFrame { s with labels := t.labels } t
  labelKeys : t.labels.map labelKey = s.labels.map labelKey

theorem PassFrame.cfg {s t : State} (h : PassFrame s t) : t.cfg = s.cfg := h.frame.cfg

theorem PassFrame.port {s t : State} (h : PassFrame s t) : t.port = s.port := h.frame.port

theorem PassFrame.instrs {s t : State} (h : PassFrame s t) : t.instrs = s.instrs := by rw [h.frame]

theorem PassFrame.curV {s t : State} (h : PassFrame s t) : t.curV = s.curV := by rw [h.frame]

theorem PassFrame.refl (s : State) : PassFrame s s := ⟨rfl, rfl⟩

theorem PassFrame.trans {s t u : State} (h : PassFrame s t) (h' : PassFrame t u) :
    PassFrame s u where
  frame := (h.frame.with_labels u.labels).trans h'.frame
  labelKeys := h'.labelKeys.trans h.labelKeys

theorem EmitFrame.passFrame {s t : State} (h : EmitFrame s t) : PassFrame s t := by
  refine ⟨?_, by rw [h.labels]⟩
  rw [h.labels]
  exact h

/-- A change of the labels' offsets alone. -/
theorem PassFrame.of_map {s : State} {f : Label → Label} (hf : ∀ l, labelKey (f l) = labelKey l) :
    PassFrame s { s with labels := s.labels.map f } :=
  ⟨rfl, by simp [List.map_map, Function.comp_def, hf]⟩

theorem recordLabels_passFrame (i : Nat) (s : State) : PassFrame s (recordLabels i s) :=
  .of_map fun l => by simp [labelKey]

theorem resolveEndLabels_passFrame (s : State) : PassFrame s (resolveEndLabels s) :=
  .of_map fun l => by simp [labelKey]

theorem recordLabels_emissionInv {s : State} (hs : EmissionInv s) (i : Nat) :
    EmissionInv (recordLabels i s) :=
  { hs with }

/-- Everything the emit pass can change. -/
theorem emitPass_passFrame {rs : List Record} {i : Nat} {s t : State}
    (h : emitPass i rs s = .ok t) : PassFrame s t := by
  induction rs generalizing i s with
  | nil => cases h; exact .refl _
  | cons r rs ih =>
    obtain ⟨u, hu, ht⟩ := pass_bind_ok h
    have hru := (emitRecord_emitting r _ u hu).frame.passFrame
    exact ((recordLabels_passFrame i s).trans hru).trans (ih ht)

theorem emitPass_keeps {rs : List Record} {i : Nat} {s t : State}
    (h : emitPass i rs s = .ok t) (hs : EmissionInv s) : EmissionInv t := by
  induction rs generalizing i s with
  | nil => cases h; exact hs
  | cons r rs ih =>
    obtain ⟨u, hu, ht⟩ := pass_bind_ok h
    exact ih ht ((emitRecord_emitting r _ u hu).keeps (recordLabels_emissionInv hs i))

/-- The emit pass that begins with an empty scratch ends with one (R38 (1)). -/
theorem emitPass_scrn {rs : List Record} {i : Nat} {s t : State} (h : emitPass i rs s = .ok t)
    (hs : s.scrn = 0) : t.scrn = 0 := by
  induction rs generalizing i s with
  | nil => cases h; exact hs
  | cons r rs ih =>
    obtain ⟨u, hu, ht⟩ := pass_bind_ok h
    exact ih ht (emitRecord_scrn hu)

/-! ## The fixup pass -/

/-- The fixup pass changes the buffer alone (R156). -/
theorem fixupPass_ok {fs : List Fixup} {s t : State} (h : fixupPass fs s = .ok t) :
    t = { s with out := t.out } := by
  induction fs generalizing s with
  | nil => cases h; rfl
  | cons f fs ih =>
    obtain ⟨u, hu, ht⟩ := pass_bind_ok h
    obtain ⟨off, -, -, rfl⟩ := patch_ok hu
    exact (ih ht :)

theorem fixupPass_passFrame {fs : List Fixup} {s t : State} (h : fixupPass fs s = .ok t) :
    PassFrame s t :=
  EmitFrame.passFrame (by rw [fixupPass_ok h]; rfl)

/-- The fixup pass leaves the extent of the buffer (R53). -/
theorem fixupPass_keys {fs : List Fixup} {s t : State} (h : fixupPass fs s = .ok t)
    (hs : s.out.map Prod.fst = List.range s.olen) : t.out.map Prod.fst = List.range s.olen := by
  induction fs generalizing s with
  | nil => cases h; exact hs
  | cons f fs ih =>
    obtain ⟨u, hu, ht⟩ := pass_bind_ok h
    obtain ⟨off, -, hle, rfl⟩ := patch_ok hu
    have hin := Memory.keys_writeBytes_inside (bs := leBytes 4 off) hs (by rwa [leBytes_length])
    exact (ih ht hin :)

/-- The fixup pass leaves every byte below the placeholders it patches. -/
theorem fixupPass_read_below {fs : List Fixup} {s t : State} {x : Nat}
    (h : fixupPass fs s = .ok t) (hx : ∀ f ∈ fs, x < f.off) :
    Memory.read t.out x = Memory.read s.out x := by
  induction fs generalizing s with
  | nil => cases h; rfl
  | cons f fs ih =>
    obtain ⟨hxf, hxs⟩ := List.forall_mem_cons.mp hx
    obtain ⟨u, hu, ht⟩ := pass_bind_ok h
    obtain ⟨off, -, -, rfl⟩ := patch_ok hu
    rw [ih ht hxs, Memory.read_writeBytes, if_neg (by omega)]

/-- One fixup leaves its four bytes patched (R156, R157). -/
theorem patch_fixupPatched {f : Fixup} {s t : State} (h : patch f s = .ok t) : fixupPatched t f := by
  obtain ⟨off, hoff, -, rfl⟩ := patch_ok h
  simp only [fixupPatched, hoff, Option.map_some, Option.some.injEq]
  refine List.ext_getElem (by simp) fun k hk _ => ?_
  have hk4 : k < 4 := by simpa using hk
  simp [Memory.read_writeBytes, hk4]

/-- Being patched depends on the labels and the four bytes alone. -/
theorem fixupPatched_congr {f : Fixup} {s t : State} (hl : t.labels = s.labels)
    (hr : ∀ k < 4, Memory.read t.out (f.off + k) = Memory.read s.out (f.off + k))
    (h : fixupPatched s f) : fixupPatched t f := by
  rw [fixupPatched, hl, h]
  exact congrArg some (List.map_congr_left fun k hk => (hr k (List.mem_range.mp hk)).symm)

/-- Placeholders that lie one after another are all patched in the end: what comes later in the queue
writes above (R38 (7)). -/
theorem fixupPass_patched {fs : List Fixup} {s t : State} (h : fixupPass fs s = .ok t)
    (hfs : fs.Pairwise fun f g => f.off + 4 ≤ g.off) : ∀ f ∈ fs, fixupPatched t f := by
  induction fs generalizing s with
  | nil => simp
  | cons f fs ih =>
    obtain ⟨hf, hfs⟩ := List.pairwise_cons.mp hfs
    obtain ⟨u, hu, ht⟩ := pass_bind_ok h
    refine List.forall_mem_cons.mpr ⟨?_, ih ht hfs⟩
    refine fixupPatched_congr (by rw [fixupPass_ok ht]) (fun k hk => ?_) (patch_fixupPatched hu)
    refine fixupPass_read_below ht fun g hg => ?_
    have := hf g hg
    omega

/-! ## The whole pass -/

/-- The parts of a pass that succeeds, and everything it can change but for the phase (R140). -/
theorem assemblePass_ok {s t : State} (h : assemblePass s = .ok t) :
    ∃ u v, emitPass 0 s.instrs s = .ok u ∧ fixupPass u.fixups (resolveEndLabels u) = .ok v ∧
      PassFrame s v ∧ t = { v with phase := .done } := by
  obtain ⟨u, hu, h⟩ := pass_bind_ok h
  obtain ⟨v, hv, h⟩ := pass_bind_ok h
  cases h
  have hresolved := (emitPass_passFrame hu).trans (resolveEndLabels_passFrame u)
  exact ⟨u, v, hu, hv, hresolved.trans (fixupPass_passFrame hv), rfl⟩

/-- Everything ASSEMBLE can do (R140, R159). -/
theorem execAssemble_next {s t : State} (h : execAssemble s = .next t) :
    (s.phase ≠ .build ∧ t = s.raise .invalidState) ∨
      (s.phase = .build ∧
        ((∃ u, assemblePass { s with curV := false } = .ok u ∧ t = u.answer 0) ∨
          ∃ e, assemblePass { s with curV := false } = .error (.raise e) ∧
            t = State.failPass { s with curV := false } e)) := by
  by_cases hb : s.phase = .build
  · refine .inr ⟨hb, ?_⟩
    change exec .assemble s = .next t at h
    rw [exec_assemble_build hb] at h
    cases hp : assemblePass { s with curV := false } with
    | ok u =>
      rw [hp] at h
      cases h
      exact .inl ⟨u, rfl, rfl⟩
    | error x =>
      rw [hp] at h
      cases x with
      | fault f => cases h
      | raise e =>
        cases h
        exact .inr ⟨e, rfl, rfl⟩
  · rw [execAssemble, if_pos hb] at h
    cases h
    exact .inl ⟨hb, rfl⟩

/-! ## What ASSEMBLE leaves between two commands -/

/-- The parameters, the records and the names and indices of the labels are the same. -/
structure SameProgram (s t : State) : Prop where
  cfg : t.cfg = s.cfg
  instrs : t.instrs = s.instrs
  labelKeys : t.labels.map labelKey = s.labels.map labelKey

theorem PassFrame.sameProgram {s t : State} (h : PassFrame s t) : SameProgram s t :=
  ⟨h.cfg, h.instrs, h.labelKeys⟩

/-- The number of labels is that of their keys. -/
theorem SameProgram.nl {s t : State} (h : SameProgram s t) : t.nl = s.nl := by
  simpa using congrArg List.length h.labelKeys

/-- What holds of every label's name and index still does. -/
theorem SameProgram.forall_labels {s t : State} (h : SameProgram s t) {p : SymName × Nat → Prop}
    (hp : ∀ l ∈ s.labels, p (labelKey l)) : ∀ l ∈ t.labels, p (labelKey l) :=
  List.forall_mem_map.mp (h.labelKeys ▸ List.forall_mem_map.mpr hp)

/-- What holds of the names and indices of every two labels still does. -/
theorem SameProgram.pairwise_labels {s t : State} (h : SameProgram s t)
    {p : SymName × Nat → SymName × Nat → Prop}
    (hp : s.labels.Pairwise fun l m => p (labelKey l) (labelKey m)) :
    t.labels.Pairwise fun l m => p (labelKey l) (labelKey m) :=
  List.pairwise_map.mp (h.labelKeys ▸ List.pairwise_map.mpr hp)

/-- Outside BUILD the invariant is that of the program, with no instruction under construction, and what
R38 asks of the buffer, the queue, the scratch and the labels' offsets. -/
theorem Inv.of_sameProgram {s t : State} (hs : Inv s) (h : SameProgram s t)
    (hphase : t.phase ≠ .build) (hcur : t.curV = false) (hscratch : t.scr = 0 ∧ t.scrn = 0)
    (hfixups : t.nf ≤ t.cfg.nFixupMax) (hbuffer : t.out.map Prod.fst = List.range t.olen)
    (hout : t.olen ≤ t.cfg.outMax)
    (hdone : t.phase = .done → (∀ l ∈ t.labels, l.off ≠ none) ∧ ∀ f ∈ t.fixups, fixupPatched t f)
    (hfailed : t.phase = .failed → t.olen = 0 ∧ t.fixups = []) : Inv t where
  config := h.cfg ▸ hs.config
  scratch := hscratch
  building hb := absurd hb hphase
  labelIdx :=
    h.forall_labels (p := fun k => k.2 ≤ t.ni) (by rw [State.ni, h.instrs]; exact hs.labelIdx)
  labelOrder := h.pairwise_labels (p := fun k l => k.2 ≤ l.2) hs.labelOrder
  labelNames := h.pairwise_labels (p := fun k l => k.1 ≠ l.1) hs.labelNames
  current hc := by simp [hcur] at hc
  records := by rw [h.instrs, h.cfg]; exact hs.records
  assembled := hdone
  failed := hfailed
  capacity := by
    obtain ⟨hni, hnl, -⟩ := hs.capacity
    refine ⟨?_, ?_, hfixups⟩
    · rwa [State.ni, h.instrs, h.cfg]
    · rwa [h.nl, h.cfg]
  labelLength :=
    h.forall_labels (p := fun k => k.1.length ≤ t.cfg.nameMax) (by rw [h.cfg]; exact hs.labelLength)
  buffer := hbuffer
  outCapacity := hout

/-- A failed pass discards what it emitted (R159). -/
theorem Inv.failPass {s : State} (hs : Inv s) (e : ErrCode) : Inv (s.failPass e) := by
  have hprogram : SameProgram s (s.failPass e) :=
    ⟨rfl, rfl, by simp [Function.comp_def, labelKey]⟩
  exact hs.of_sameProgram hprogram (by simp) rfl ⟨rfl, rfl⟩ (Nat.zero_le _) rfl (Nat.zero_le _)
    (by simp) (by simp)

/-- A pass that succeeds leaves the scratch empty, every label with its offset and every fixup patched
(R162). -/
theorem Inv.of_assemblePass {s t : State} (hs : Inv s) (hb : s.phase = .build) (hc : s.curV = false)
    (h : assemblePass s = .ok t) : Inv t := by
  obtain ⟨u, v, hu, hv, hsv, rfl⟩ := assemblePass_ok h
  have hemit : EmissionInv u := emitPass_keeps hu (hs.emissionInv hb)
  have hscrn : u.scrn = 0 := emitPass_scrn hu hs.scratch.2
  have hkeys := fixupPass_keys hv hemit.buffer
  have hpatched := fixupPass_patched hv hemit.fixupsApart
  obtain ⟨m, rfl⟩ : ∃ m, v = { resolveEndLabels u with out := m } := ⟨_, fixupPass_ok hv⟩
  refine hs.of_sameProgram ⟨hsv.cfg, hsv.instrs, hsv.labelKeys⟩ (by simp) (hsv.curV.trans hc)
    ⟨hemit.scratch hscrn, hscrn⟩ hemit.fixupCapacity hkeys hemit.outCapacity (fun _ => ⟨?_, hpatched⟩)
    (by simp)
  simp [Label.recordEnd_off]

end Sys2Proof.Machine
end

section
/-! What a command can do to the state, once for all commands (spec/40_builder_commands.md,
spec/60_exceptions.md), and which records the builder makes (spec/10_state.md R38 (6)). -/

namespace Sys2Proof.Machine

/-! ## The instructions by their shared operation -/

/-- The record a command appends (R115, R123, R124). -/
def appendedRecord : Instr → Option Record
  | .addInstr opc => some (newRecord opc)
  | .addNop => some nopRecord
  | .addRet => some (newRecord .ret)
  | _ => none

theorem exec_of_appendedRecord {i : Instr} {r : Record} (h : appendedRecord i = some r) (s : State) :
    exec i s = appendRecord r s := by
  cases i <;> cases h <;> rfl

/-- The checks and the write of a setting command (R111). -/
def settingCheck (c : Config) : Instr → Option (Record → Except ErrCode Record)
  | .setCond cond => some (setCondIn cond)
  | .setSize size => some (setSizeIn size)
  | .setOp1 o => some (setOp1In o)
  | .setOp2 o => some (setOp2In c o)
  | _ => none

theorem exec_of_settingCheck {i : Instr} {s : State} {f : Record → Except ErrCode Record}
    (h : settingCheck s.cfg i = some f) : exec i s = setCurrent f s := by
  cases i <;> cases h <;> rfl

/-- A bytecode instruction is emitted as its record (log 5). -/
theorem exec_of_recordOf {i : Instr} {r : Record} (h : recordOf i = some r) (s : State) :
    exec i s = emitInstr r s := by
  cases i <;> cases h <;> rfl

/-- What is no command is a bytecode instruction. -/
theorem exists_recordOf {i : Instr} (h : i.isCommand = false) : ∃ r, recordOf i = some r := by
  cases hr : recordOf i with
  | some r => exact ⟨r, rfl⟩
  | none => cases i <;> cases h <;> cases hr

/-! ## Everything a command can do -/

/-- The next states a command has from `s`: it is refused and only the error shows, or it has the
effect of its rule under the checks of its rule. -/
inductive CommandEffect (s : State) : Instr → State → Prop
  | refused (i : Instr) (e : ErrCode) : CommandEffect s i (s.raise e)
  | reset : CommandEffect s .reset (State.answer { State.resetOf s.cfg with port := s.port } 0)
  | addLabel (name : SymName) (hb : s.phase = .build) (hnew : lookup s.labels name = none)
      (hlen : name.length ≤ s.cfg.nameMax) (hroom : s.nl ≠ s.cfg.nLabelMax) :
      CommandEffect s (.addLabel name)
        (State.answer { s with labels := s.labels ++ [⟨name, s.ni, none⟩], curV := false } 0)
  | append {i : Instr} {r : Record} (hi : appendedRecord i = some r) (hb : s.phase = .build)
      (hroom : s.ni ≠ s.cfg.nInstrMax) :
      CommandEffect s i
        (State.answer { s with instrs := s.instrs ++ [r], curV := true } (BitVec.ofNat 32 s.ni))
  | set {i : Instr} {f : Record → Except ErrCode Record} {rs : List Record} {r r' : Record}
      (hi : settingCheck s.cfg i = some f) (hb : s.phase = .build) (hc : s.curV = true)
      (hrs : s.instrs = rs ++ [r]) (hf : f r = .ok r') :
      CommandEffect s i (State.answer { s with instrs := rs ++ [r'] } 0)
  | assembled {t : State} (hb : s.phase = .build)
      (hp : assemblePass { s with curV := false } = .ok t) :
      CommandEffect s .assemble (t.answer 0)
  | passFailed {e : ErrCode} (hb : s.phase = .build)
      (hp : assemblePass { s with curV := false } = .error (.raise e)) :
      CommandEffect s .assemble (State.failPass { s with curV := false } e)
  | readOut (addr : Word) (b : Byte) (hd : s.phase = .done) (hlt : addr.toNat < s.olen)
      (hread : Memory.read s.out addr.toNat = some b) :
      CommandEffect s (.readOut addr) (s.answer (b.setWidth 32))
  | readReg (sel : BitVec 4) :
      CommandEffect s (.readReg sel) { s with resp := some ⟨.ok, statusReg sel s⟩ }

theorem execAddLabel_effect {name : SymName} {s t : State} (h : execAddLabel name s = .next t) :
    CommandEffect s (.addLabel name) t := by
  unfold execAddLabel raised at h
  split at h
  · cases h; exact .refused _ _
  next hb =>
  split at h
  · cases h; exact .refused _ _
  next hnew =>
  split at h
  · cases h; exact .refused _ _
  next hlen =>
  split at h
  · cases h; exact .refused _ _
  next hroom =>
  cases h
  exact .addLabel name (not_not.mp hb) (by simpa using hnew) (by omega) hroom

theorem appendRecord_effect {i : Instr} {r : Record} {s t : State}
    (hi : appendedRecord i = some r) (h : appendRecord r s = .next t) : CommandEffect s i t := by
  obtain ⟨-, rfl⟩ | ⟨-, -, rfl⟩ | ⟨hb, hroom, rfl⟩ := appendRecord_next h
  · exact .refused _ _
  · exact .refused _ _
  · exact .append hi hb hroom

theorem setCurrent_effect {i : Instr} {f : Record → Except ErrCode Record} {s t : State}
    (hi : settingCheck s.cfg i = some f) (h : setCurrent f s = .next t) : CommandEffect s i t := by
  obtain ⟨-, rfl⟩ | ⟨rs, r, hb, hc, hrs, ⟨e, -, rfl⟩ | ⟨r', hf, rfl⟩⟩ := setCurrent_next h
  · exact .refused _ _
  · exact .refused _ _
  · exact .set hi hb hc hrs hf

theorem execAssemble_effect {s t : State} (h : execAssemble s = .next t) :
    CommandEffect s .assemble t := by
  obtain ⟨-, rfl⟩ | ⟨hb, ⟨u, hp, rfl⟩ | ⟨e, hp, rfl⟩⟩ := execAssemble_next h
  · exact .refused _ _
  · exact .assembled hb hp
  · exact .passFailed hb hp

theorem execReadOut_effect {addr : Word} {s t : State} (h : execReadOut addr s = .next t) :
    CommandEffect s (.readOut addr) t := by
  unfold execReadOut raised at h
  split at h
  · cases h; exact .refused _ _
  next hd =>
  split at h
  · cases h; exact .refused _ _
  next hlt =>
  split at h
  · cases h
  next b hread =>
  cases h
  exact .readOut addr b (not_not.mp hd) (by omega) hread

/-- Every next state of a command is one of its effects. -/
theorem exec_effect {i : Instr} {s t : State} (hi : i.isCommand = true) (h : exec i s = .next t) :
    CommandEffect s i t := by
  cases i with
  | reset => cases h; exact .reset
  | addLabel name => exact execAddLabel_effect h
  | addInstr _ | addNop | addRet =>
    exact appendRecord_effect rfl ((exec_of_appendedRecord rfl s).symm.trans h)
  | setCond _ | setSize _ | setOp1 _ | setOp2 _ =>
    exact setCurrent_effect rfl ((exec_of_settingCheck rfl).symm.trans h)
  | assemble => exact execAssemble_effect h
  | readOut addr => exact execReadOut_effect h
  | readReg sel => cases h; exact .readReg sel
  | reservedC | reservedD | reservedE | reservedF => cases h; exact .refused _ _
  | _ => cases hi

/-- Everything a bytecode instruction can do: it is emitted, or the pass fails. -/
theorem emitInstr_next {r : Record} {s t : State} (h : emitInstr r s = .next t) :
    EmitFrame s t ∨ ∃ e, t = s.failPass e := by
  obtain hok | ⟨e, -, rfl⟩ := passOutcome_next h
  · exact .inl (emitRecord_emitting r s t hok).frame
  · exact .inr ⟨e, rfl⟩

/-! ## The phase, the parameters and the port -/

/-- Settles O25: outside BUILD a command is refused, reads, or is RESET. -/
theorem onlyResetLeavesFinalPhase : Obligations.OnlyResetLeavesFinalPhase := by
  intro i s t hi hreset hphase h
  cases exec_effect hi h with
  | reset => exact absurd rfl hreset
  | addLabel _ hb | append _ hb | set _ hb | assembled hb | passFailed hb => exact absurd hb hphase
  | refused | readOut | readReg => rfl

theorem CommandEffect.cfg_port {i : Instr} {s t : State} (h : CommandEffect s i t) :
    t.cfg = s.cfg ∧ t.port = s.port := by
  cases h with
  | assembled _ hp =>
    obtain ⟨-, v, -, -, hframe, rfl⟩ := assemblePass_ok hp
    exact ⟨hframe.cfg, hframe.port⟩
  | refused | reset | addLabel | append | set | passFailed | readOut | readReg => exact ⟨rfl, rfl⟩

theorem emitInstr_cfg_port {r : Record} {s t : State} (h : emitInstr r s = .next t) :
    t.cfg = s.cfg ∧ t.port = s.port := by
  obtain hframe | ⟨e, rfl⟩ := emitInstr_next h
  · exact ⟨hframe.cfg, hframe.port⟩
  · exact ⟨rfl, rfl⟩

/-- Settles O28: a command by its effect, a bytecode row as its emission. -/
theorem instructionsKeepParametersAndPort : Obligations.InstructionsKeepParametersAndPort := by
  intro i s t h
  cases hi : i.isCommand with
  | true => exact (exec_effect hi h).cfg_port
  | false =>
    obtain ⟨r, hr⟩ := exists_recordOf hi
    exact emitInstr_cfg_port ((exec_of_recordOf hr s).symm.trans h)

end Sys2Proof.Machine
end

section
/-! A command the port decodes is well-formed (spec/30_encoding.md R95, R96): the operands that reach the
builder are within their widths. -/

namespace Sys2Proof

theorem takeBytes_length {n : Nat} {bs rest : List Beat} {name : SymName}
    (h : takeBytes n bs = .ok (name, rest)) : name.length = n := by
  induction n generalizing bs name rest with
  | zero => cases h; rfl
  | succ n ih =>
    match bs, h with
    | .byte b :: bs, h =>
      simp only [takeBytes] at h
      split at h
      · next hname => cases h; rw [List.length_cons, ih hname]
      · cases h

/-- A name on the port has the length of a 16-bit field (R96). -/
theorem takeBytes_headerNameLen_lt {h : Word} {bs rest : List Beat} {name : SymName}
    (hname : takeBytes (headerNameLen h) bs = .ok (name, rest)) : name.length < 65536 := by
  rw [takeBytes_length hname]
  exact (h.extractLsb' 8 16).isLt

theorem decodeOperand_onPort {c : Config} {h : Word} {bs rest : List Beat} {o : Operand}
    (ho : decodeOperand c h bs = .ok (o, rest)) : o.onPort c = true := by
  unfold decodeOperand at ho
  split at ho
  case h_1 | h_2 => cases ho; rfl
  case h_3 =>
    split at ho
    · next hname => cases ho; exact decide_eq_true (takeBytes_headerNameLen_lt hname)
    · cases ho
  case h_4 =>
    split at ho
    · cases ho; exact decide_eq_true (Nat.mod_lt _ (Nat.two_pow_pos _))
    · cases ho

theorem decodeHeader_wf {c : Config} {h : Word} {bs rest : List Beat} {i : Instr}
    (hd : decodeHeader c h bs = .ok (i, rest)) : i.isCommand = true ∧ i.wf c = true := by
  unfold decodeHeader at hd
  split at hd
  case h_2 => -- ADD_LABEL
    split at hd
    · next hname => cases hd; exact ⟨rfl, decide_eq_true (takeBytes_headerNameLen_lt hname)⟩
    · cases hd
  case h_6 | h_7 => -- SET_OP1, SET_OP2
    split at hd
    · next ho => cases hd; exact ⟨rfl, decodeOperand_onPort ho⟩
    · cases hd
  case h_10 => -- READ_OUT
    split at hd
    · cases hd; exact ⟨rfl, rfl⟩
    · cases hd
  all_goals cases hd; exact ⟨rfl, rfl⟩

theorem decodeCommand_wf {c : Config} {bs rest : List Beat} {i : Instr}
    (h : decodeCommand c bs = .ok (i, rest)) : i.isCommand = true ∧ i.wf c = true := by
  match bs, h with
  | .word _ :: _, h => exact decodeHeader_wf h

end Sys2Proof
end

section
/-! The invariant of spec/10_state.md R38: every command of the port keeps it, and so does the step. -/

namespace Sys2Proof.Machine

/-! ## The records the builder makes (R38 (6)) -/

/-- A field is set only where the opcode of the record allows it (R112), within its width (R24). -/
structure FieldsAllowed (c : Config) (r : Record) : Prop where
  cond : r.cond.isSome → allowsCondition r.opc = true
  size : r.size.isSome → allowsSize r.opc = true
  op1 : r.op1.isSome → allowsOp1 r.opc = true
  op2 : ∀ o ∈ r.op2, o.kind ∈ kindsOp2 r.opc ∧ o.inRecord c = true

theorem Record.legal_iff {c : Config} {r : Record} :
    r.legal c = true ↔ r = nopRecord ∨ FieldsAllowed c r := by
  have himp (a b : Bool) : (!a || b) = true ↔ (a = true → b = true) := by cases a <;> simp
  have hop2 : optAll (fun o => decide (o.kind ∈ kindsOp2 r.opc) && o.inRecord c) r.op2 = true ↔
      ∀ o ∈ r.op2, o.kind ∈ kindsOp2 r.opc ∧ o.inRecord c = true := by
    cases r.op2 <;> simp [optAll]
  simp only [Record.legal, Bool.or_eq_true, Bool.and_eq_true, himp, hop2, decide_eq_true_eq]
  refine or_congr Iff.rfl ⟨?_, ?_⟩
  · rintro ⟨⟨⟨hcond, hsize⟩, hop1⟩, hop2⟩
    exact ⟨hcond, hsize, hop1, hop2⟩
  · rintro ⟨hcond, hsize, hop1, hop2⟩
    exact ⟨⟨⟨hcond, hsize⟩, hop1⟩, hop2⟩

theorem nopRecord_legal (c : Config) : nopRecord.legal c = true := Record.legal_iff.mpr (.inl rfl)

theorem newRecord_legal (c : Config) (opc : Opcode) : (newRecord opc).legal c = true :=
  Record.legal_iff.mpr (.inr ⟨nofun, nofun, nofun, nofun⟩)

theorem appendedRecord_legal {i : Instr} {r : Record} (h : appendedRecord i = some r) (c : Config) :
    r.legal c = true := by
  cases i with
  | addInstr opc => cases h; exact newRecord_legal c opc
  | addNop => cases h; exact nopRecord_legal c
  | addRet => cases h; exact newRecord_legal c .ret
  | _ => cases h

/-! Everything a setting command does when it succeeds (R117 to R121). -/

theorem setCondIn_ok {cond : Cond} {r r' : Record} (h : setCondIn cond r = .ok r') :
    allowsCondition r.opc = true ∧ r.cond = none ∧ r' = { r with cond := some cond } := by
  unfold setCondIn at h
  split at h
  · cases h
  next hallow =>
  split at h
  · cases h
  next hunset =>
  cases h
  exact ⟨by simpa using hallow, by simpa using hunset, rfl⟩

theorem setSizeIn_ok {size : Size} {r r' : Record} (h : setSizeIn size r = .ok r') :
    allowsSize r.opc = true ∧ r.size = none ∧ r' = { r with size := some size } := by
  unfold setSizeIn at h
  split at h
  · cases h
  next hallow =>
  split at h
  · cases h
  next hunset =>
  cases h
  exact ⟨by simpa using hallow, by simpa using hunset, rfl⟩

theorem setOp1In_ok {o : Operand} {r r' : Record} (h : setOp1In o r = .ok r') :
    ∃ o1, asOp1 o = some o1 ∧ allowsOp1 r.opc = true ∧ r.op1 = none ∧
      r' = { r with op1 := some o1 } := by
  unfold setOp1In at h
  split at h
  · cases h
  next o1 ho1 =>
  split at h
  · cases h
  next hallow =>
  split at h
  · cases h
  next hunset =>
  cases h
  exact ⟨o1, ho1, by simpa using hallow, by simpa using hunset, rfl⟩

theorem setOp2In_ok {c : Config} {o : Operand} {r r' : Record} (h : setOp2In c o r = .ok r') :
    o.kind ∈ kindsOp2 r.opc ∧ r.op2 = none ∧ nameTooLong c o = false ∧
      r' = { r with op2 := some o } := by
  unfold setOp2In at h
  split at h
  · cases h
  split at h
  · cases h
  next hkind =>
  split at h
  · cases h
  next hunset =>
  split at h
  · cases h
  next hname =>
  cases h
  exact ⟨not_not.mp hkind, by simpa using hunset, by simpa using hname, rfl⟩

/-- An operand of the port whose name is short enough fits a record (R24, R121). -/
theorem inRecord_of_onPort {c : Config} {o : Operand} (hport : o.onPort c = true)
    (hname : nameTooLong c o = false) : o.inRecord c = true := by
  cases o with
  | register r | indirect r => rfl
  | symbol n => simpa [nameTooLong, Operand.inRecord] using hname
  | literal v => exact hport

/-- A setting command keeps the record legal: it writes an allowed field, and it refuses ADD_NOP's
record, whose condition and op2 are set and whose opcode allows no size and no op1. -/
theorem settingCheck_legal {c : Config} {i : Instr} {f : Record → Except ErrCode Record}
    {r r' : Record} (hi : settingCheck c i = some f) (hwf : i.wf c = true) (hf : f r = .ok r')
    (hr : r.legal c = true) : r'.legal c = true := by
  obtain rfl | hr := Record.legal_iff.mp hr
  · cases i with
    | setCond _ => cases hi; cases hf
    | setSize _ => cases hi; cases hf
    | setOp1 o =>
      cases hi
      obtain ⟨-, -, hallow, -⟩ := setOp1In_ok hf
      cases hallow
    | setOp2 o =>
      cases hi
      obtain ⟨-, hunset, -⟩ := setOp2In_ok hf
      cases hunset
    | _ => cases hi
  · refine Record.legal_iff.mpr (.inr ?_)
    cases i with
    | setCond _ =>
      cases hi
      obtain ⟨hallow, -, rfl⟩ := setCondIn_ok hf
      exact { hr with cond := fun _ => hallow }
    | setSize _ =>
      cases hi
      obtain ⟨hallow, -, rfl⟩ := setSizeIn_ok hf
      exact { hr with size := fun _ => hallow }
    | setOp1 o =>
      cases hi
      obtain ⟨o1, -, hallow, -, rfl⟩ := setOp1In_ok hf
      exact { hr with op1 := fun _ => hallow }
    | setOp2 o =>
      cases hi
      obtain ⟨hkind, -, hname, rfl⟩ := setOp2In_ok hf
      refine { hr with op2 := fun o' ho' => ?_ }
      cases ho'
      exact ⟨hkind, inRecord_of_onPort hwf hname⟩
    | _ => cases hi

/-! ## The invariant through each effect -/

/-- ADD_LABEL: a new name, and the highest index so far (R113, R38 (3), R38 (4)). -/
theorem Inv.addLabel {s : State} {name : SymName} (hs : Inv s) (hb : s.phase = .build)
    (hnew : lookup s.labels name = none) (hlen : name.length ≤ s.cfg.nameMax)
    (hroom : s.nl ≠ s.cfg.nLabelMax) :
    Inv { s with labels := s.labels ++ [⟨name, s.ni, none⟩], curV := false } := by
  obtain ⟨hfix, holen, hoff⟩ := hs.building hb
  obtain ⟨hni, hnl, hnf⟩ := hs.capacity
  exact { hs with
    building := fun _ => ⟨hfix, holen, List.forall_mem_append.mpr ⟨hoff, by simp⟩⟩
    labelIdx := List.forall_mem_append.mpr ⟨hs.labelIdx, by simp⟩
    labelOrder := List.pairwise_append.mpr
      ⟨hs.labelOrder, List.pairwise_singleton _ _, fun l hl _ hm =>
        List.mem_singleton.mp hm ▸ hs.labelIdx l hl⟩
    labelNames := List.pairwise_append.mpr
      ⟨hs.labelNames, List.pairwise_singleton _ _, fun l hl _ hm =>
        List.mem_singleton.mp hm ▸ lookup_eq_none.mp hnew l hl⟩
    current := nofun
    assembled := fun hd => nomatch hb.symm.trans hd
    capacity := ⟨hni, List.length_append.trans_le (Nat.lt_of_le_of_ne hnl hroom), hnf⟩
    labelLength := List.forall_mem_append.mpr ⟨hs.labelLength, by simpa using hlen⟩ }

/-- A legal record at the end of the program, with room (R115, R123, R124). -/
theorem Inv.appendRecord {s : State} {r : Record} (hs : Inv s) (hb : s.phase = .build)
    (hr : r.legal s.cfg = true) (hroom : s.ni ≠ s.cfg.nInstrMax) :
    Inv { s with instrs := s.instrs ++ [r], curV := true } := by
  obtain ⟨hni, hnl, hnf⟩ := hs.capacity
  exact { hs with
    labelIdx := fun l hl => (hs.labelIdx l hl).trans (by simp [State.ni])
    current := fun _ => ⟨by simp [State.ni], hb⟩
    records := List.forall_mem_append.mpr ⟨hs.records, by simpa using hr⟩
    capacity := ⟨List.length_append.trans_le (Nat.lt_of_le_of_ne hni hroom), hnl, hnf⟩ }

/-- Another legal record in place of the last (R111). -/
theorem Inv.setLast {s : State} {rs : List Record} {r r' : Record} (hs : Inv s)
    (hrs : s.instrs = rs ++ [r]) (hr : r.legal s.cfg = true → r'.legal s.cfg = true) :
    Inv { s with instrs := rs ++ [r'] } := by
  have hni : State.ni { s with instrs := rs ++ [r'] } = s.ni := by simp [State.ni, hrs]
  have hrecords := hs.records
  rw [hrs, List.forall_mem_append] at hrecords
  obtain ⟨hinit, hlast⟩ := hrecords
  exact { hs with
    labelIdx := by rw [hni]; exact hs.labelIdx
    current := by rw [hni]; exact hs.current
    records := List.forall_mem_append.mpr ⟨hinit, by simpa using hr (hlast r (by simp))⟩
    capacity := by rw [hni]; exact hs.capacity }

/-- ASSEMBLE clears `CUR_V` first (R140). -/
theorem Inv.clear_curV {s : State} (hs : Inv s) : Inv { s with curV := false } :=
  { hs with current := nofun }

/-- Every command the port can carry keeps the invariant. -/
theorem CommandEffect.keeps_inv {i : Instr} {s t : State} (h : CommandEffect s i t) (hs : Inv s)
    (hwf : i.wf s.cfg = true) : Inv t := by
  cases h with
  | refused _ e => exact hs.raise e
  | reset => exact ((inv_resetOf hs.config).with_port s.port).answer 0
  | addLabel name hb hnew hlen hroom => exact (hs.addLabel hb hnew hlen hroom).answer 0
  | append hi hb hroom => exact (hs.appendRecord hb (appendedRecord_legal hi s.cfg) hroom).answer _
  | set hi _ _ hrs hf => exact (hs.setLast hrs (settingCheck_legal hi hwf hf)).answer 0
  | assembled hb hp => exact (hs.clear_curV.of_assemblePass hb rfl hp).answer 0
  | passFailed _ _ => exact hs.clear_curV.failPass _
  | readOut => exact hs.answer _
  | readReg => exact hs.with_resp _

/-- Settles O48: a step waits, or performs a command the port carries. -/
theorem stepKeepsInvariant : Obligations.StepKeepsInvariant := by
  intro s t hs h
  cases hd : decodeCommand s.cfg s.port with
  | ok p =>
    obtain ⟨i, rest⟩ := p
    rw [step_of_command hd] at h
    obtain ⟨hcmd, hwf⟩ := decodeCommand_wf hd
    exact (exec_effect hcmd h).keeps_inv (hs.with_port rest) hwf
  | error x =>
    simp only [step, hd] at h
    split at h
    · next heq => cases heq
    · cases h
    · cases h
      exact hs

end Sys2Proof.Machine
end

section
/-! Where the bit packer stands while a record is emitted, and the record whose bytes do not all fit
(spec/20_memory.md R54, spec/30_encoding.md R92, spec/60_exceptions.md R205, R212). From the position
`8 * OLEN + SCRN` each operation of the emission comes to one that does not depend on what has been
emitted, or it stops for want of room; so a success would have the whole length of R92 inside the
buffer. -/

namespace Sys2Proof.Machine

/-! ## The position of the bit packer -/

/-- From `s` an emission has come to `t`, within the buffer, at bit `q` of the output. -/
structure PackedTo (s : State) (q : Nat) (t : State) : Prop where
  frame : EmitFrame s t
  scratch : t.scrn < 8
  room : t.olen ≤ t.cfg.outMax
  position : 8 * t.olen + t.scrn = q

/-- An emission begun in `s` comes to bit `q` of the output, or stops with CapacityExceeded. -/
structure PacksTo (s : State) (q : Nat) (p : Pass) : Prop where
  ok : ∀ t, p = .ok t → PackedTo s q t
  stop : ∀ x, p = .error x → x = .raise .capacityExceeded

theorem PacksTo.bind {s : State} {q q' : Nat} {p : Pass} {f : State → Pass} (hp : PacksTo s q p)
    (hf : ∀ t, PackedTo s q t → PacksTo s q' (f t)) : PacksTo s q' (p >>= f) where
  ok u h := by
    obtain ⟨t, ht, hu⟩ := pass_bind_ok h
    exact (hf t (hp.ok t ht)).ok u hu
  stop x h := by
    obtain hx | ⟨t, ht, hx⟩ := pass_bind_error h
    · exact hp.stop x hx
    · exact (hf t (hp.ok t ht)).stop x hx

section
variable {s t : State} {q : Nat}

/-- The pass may begin where the scratch is empty. -/
theorem PackedTo.begin (hscrn : s.scrn = 0) (hroom : s.olen ≤ s.cfg.outMax) :
    PackedTo s (8 * s.olen) s where
  frame := rfl
  scratch := by omega
  room := hroom
  position := by omega

/-- Doing nothing stays where the packer stands. -/
theorem PackedTo.stays (h : PackedTo s q t) : PacksTo s q (.ok t) where
  ok u hu := by cases hu; exact h
  stop _ hx := by cases hx

/-- Stopping for want of room, whatever was to come. -/
theorem PacksTo.full : PacksTo s q (.error (.raise .capacityExceeded)) where
  ok _ hu := by cases hu
  stop _ hx := by cases hx; rfl

theorem PackedTo.with_fixups (h : PackedTo s q t) (fx : List Fixup) :
    PackedTo s q { t with fixups := fx } :=
  { h with frame := h.frame.trans rfl }

/-! ## The bit packer (R54, R145, R146) -/

theorem emitBytes_packs (h : PackedTo s q t) (bs : List Byte) :
    PacksTo s (q + 8 * bs.length) (emitBytes bs t) where
  ok u hu := by
    obtain ⟨rfl, hroom⟩ := emitBytes_ok hu
    have hpos := h.position
    exact ⟨h.frame.trans rfl, h.scratch, hroom h.room, by dsimp only; omega⟩
  stop x hx := (emitBytes_error hx).1

theorem emitByte_packs (h : PackedTo s q t) (b : Byte) : PacksTo s (q + 8) (emitByte b t) where
  ok u hu := by
    obtain ⟨hroom, rfl⟩ := emitByte_ok hu
    have hpos := h.position
    exact ⟨h.frame.trans rfl, h.scratch, Nat.lt_of_le_of_ne h.room hroom, by dsimp only; omega⟩
  stop x hx := (emitByte_error hx).2

/-- A field that fits what is left of the current byte (R145). -/
theorem put_packs (h : PackedTo s q t) (v : Nat) {w : Nat} (hfit : q % 8 + w ≤ 8) :
    PacksTo s (q + w) (put v w t) := by
  obtain ⟨hframe, hscrn, holen, hpos⟩ := h
  constructor
  case ok =>
    intro u hu
    obtain ⟨hpart, rfl⟩ | ⟨hfull, hroom, rfl⟩ := put_ok hu
    · exact ⟨hframe.trans rfl, hpart, holen, by dsimp only; omega⟩
    · exact ⟨hframe.trans rfl, Nat.zero_lt_succ 7, Nat.lt_of_le_of_ne holen hroom,
        by dsimp only; omega⟩
  case stop =>
    intro x hx
    obtain ⟨hcap, -, -⟩ | ⟨-, hover⟩ := put_error hx
    · exact hcap
    · omega

theorem putWhen_packs (h : PackedTo s q t) (p : Bool) (v : Nat) {w : Nat} (hfit : q % 8 + w ≤ 8) :
    PacksTo s (q + if p then w else 0) (putWhen p v w t) := by
  cases p with
  | false => exact h.stays
  | true => exact put_packs h v hfit

/-- An alignment comes to the next byte boundary, or stays on one (R146). -/
theorem align_packs (h : PackedTo s q t) : PacksTo s (8 * ((q + 7) / 8)) (align t) where
  ok u hu := by
    obtain ⟨hframe, hscrn, holen, hpos⟩ := h
    obtain ⟨hempty, rfl⟩ | ⟨hpart, hroom, rfl⟩ := align_ok hu
    · exact ⟨hframe, hscrn, holen, by omega⟩
    · exact ⟨hframe.trans rfl, Nat.zero_lt_succ 7, Nat.lt_of_le_of_ne holen hroom,
        by dsimp only; omega⟩
  stop x hx := (align_error hx).1

/-- An emission that ends with an alignment need only be in the right byte before it. -/
theorem PacksTo.aligned {p : Pass} {n : Nat} (hp : PacksTo s q p) (hq : (q + 7) / 8 = n) :
    PacksTo s (8 * n) (p >>= align) :=
  hp.bind fun _ ht => hq ▸ align_packs ht

/-! ## Operands (R149 to R153) -/

theorem emitOp1_packs (h : PackedTo s q t) (e : Record) (hfit : q % 8 ≤ 5) :
    PacksTo s (q + if e.op1.isSome then 3 else 0) (emitOp1 e t) := by
  unfold emitOp1
  cases e.op1 with
  | none => exact h.stays
  | some o => exact put_packs h _ (show q % 8 + 3 ≤ 8 by omega)

/-- With three bits free there is no flush before the register code (R150). -/
theorem alignForReg_put_packs (h : PackedTo s q t) (r : Reg) (hfit : q % 8 ≤ 5) :
    PacksTo s (q + 3) (alignForReg t >>= put r.toNat 3) := by
  have hfree : ¬ 8 - t.scrn < 3 := by have := h.position; have := h.scratch; omega
  rw [alignForReg, if_neg hfree, pass_ok_bind]
  exact put_packs h _ (by omega)

theorem emitPlaceholder_packs (h : PackedTo s q t) (n : SymName) :
    PacksTo s (q + 8 * 4) (emitPlaceholder n t) := by
  unfold emitPlaceholder
  split
  · exact .full
  · exact emitBytes_packs (h.with_fixups (t.fixups ++ [⟨t.olen, n⟩])) [0, 0, 0, 0]

theorem emitSymbol_packs (h : PackedTo s q t) (n : SymName) :
    PacksTo s (q + 8 * symbolLen s.labels n) (emitSymbol n t) := by
  unfold emitSymbol symbolLen
  rw [h.frame.labels]
  split
  · exact emitPlaceholder_packs h n
  · exact emitBytes_packs h n

theorem emitLiteral_packs (h : PackedTo s q t) (z : Option Size) {v : Nat} (hv : v < 2 ^ 64) :
    PacksTo s (q + 8 * (sizeOrWord z).bytes) (emitLiteral z v t) := by
  have hbytes := emitBytes_packs h (leBytes (sizeOrWord z).bytes v)
  rw [leBytes_length] at hbytes
  rwa [emitLiteral, if_neg (by omega)]

end

/-! ## One record (R92, R141) -/

/-- Before op2 at least three bits of the tail byte are free: a JMP has a condition and no op1, every
other record at most a size and an op1. -/
theorem headBits_le_five {e : Record} (hop1 : e.op1.isSome → allowsSize e.opc = true) :
    headBits e ≤ 5 := by
  unfold headBits
  by_cases hjmp : e.opc = .jmp
  · have hnone : e.op1 = none := by simpa [hjmp, allowsSize] using hop1
    simp [hjmp, hnone, allowsSize]
  · rw [if_neg hjmp]
    split <;> split <;> omega

/-- The instruction byte and the fields before op2. -/
theorem emitHead_packs (e : Record) {s : State} (hscrn : s.scrn = 0)
    (hroom : s.olen ≤ s.cfg.outMax) :
    PacksTo s (8 * s.olen + 8 + headBits e)
      (emitByte (instrByte e) s >>=
        putWhen (e.opc = .jmp) (condOrAl e.cond).code.toNat 4 >>=
        putWhen (allowsSize e.opc) (sizeOrWord e.size).code.toNat 2 >>=
        emitOp1 e) := by
  have hfields :
      (if decide (e.opc = .jmp) then 4 else 0) + (if allowsSize e.opc then 2 else 0) ≤ 4 := by
    cases e.opc <;> decide
  have hbyte := emitByte_packs (.begin hscrn hroom) (instrByte e)
  have hcond := hbyte.bind fun _ ht => putWhen_packs ht (e.opc = .jmp)
    (condOrAl e.cond).code.toNat (w := 4) (by omega)
  have hsize := hcond.bind fun _ ht => putWhen_packs ht (allowsSize e.opc)
    (sizeOrWord e.size).code.toNat (w := 2) (by omega)
  have hop1 := hsize.bind fun _ ht => emitOp1_packs ht e (by omega)
  simpa [headBits, Nat.add_assoc] using hop1

/-- Op2 and the last alignment. -/
theorem emitTail_packs {e : Record} {s t : State} (hop1 : e.op1.isSome → allowsSize e.opc = true)
    (hlit : litBelowCeiling e.op2 = true) (h : PackedTo s (8 * s.olen + 8 + headBits e) t) :
    PacksTo s (8 * (s.olen + loweredLen s.labels e)) (emitOp2 e t >>= align) := by
  have hhead := headBits_le_five hop1
  unfold emitOp2 loweredLen
  match e.op2, hlit with
  | none, _ => exact h.stays.aligned (by dsimp only; omega)
  | some (.register r), _ | some (.indirect r), _ =>
    exact (alignForReg_put_packs h r (by omega)).aligned (by dsimp only; omega)
  | some (.symbol n), _ =>
    exact ((align_packs h).bind fun _ hu => emitSymbol_packs hu n).aligned (by dsimp only; omega)
  | some (.literal v), hlit =>
    have hv : v < 2 ^ 64 := by simpa [litBelowCeiling] using hlit
    exact ((align_packs h).bind fun _ hu => emitLiteral_packs hu e.size hv).aligned
      (by dsimp only; omega)

/-- A lowered record is packed to the length of R92. -/
theorem emitLowered_packs {e : Record} {s : State}
    (hop1 : e.op1.isSome → allowsSize e.opc = true) (hlit : litBelowCeiling e.op2 = true)
    (hscrn : s.scrn = 0) (hroom : s.olen ≤ s.cfg.outMax) :
    PacksTo s (8 * (s.olen + loweredLen s.labels e)) (emitLowered e s) := by
  unfold emitLowered
  rw [bind_assoc]
  exact (emitHead_packs e hscrn hroom).bind fun _ ht => emitTail_packs hop1 hlit ht

/-- A RET becomes a JMP through the link register (R143). -/
theorem lower_ret {c : Config} {r : Record} (h : r.opc = .ret) :
    lower c r = jmpRecord none (some (.register c.lrReg)) := if_pos h

theorem lower_of_ne_ret {c : Config} {r : Record} (h : r.opc ≠ .ret) : lower c r = r := if_neg h

/-- A bytecode instruction has an op1 only where the table of R112 allows one, as it does a size. -/
theorem recordOf_op1_allowsSize {i : Instr} {r : Record} (h : recordOf i = some r) :
    r.op1.isSome → allowsSize r.opc = true := by
  cases i <;> cases h
  case jmp | call | ret | nop => exact nofun
  all_goals exact fun _ => rfl

theorem emitRecord_packs {i : Instr} {r : Record} {s : State} (hr : recordOf i = some r)
    (hlit : litBelowCeiling r.op2 = true) (hscrn : s.scrn = 0) (hroom : s.olen ≤ s.cfg.outMax) :
    PacksTo s (8 * (s.olen + recordLen s.cfg s.labels r)) (emitRecord r s) := by
  unfold emitRecord recordLen
  by_cases hret : r.opc = .ret
  · rw [lower_ret hret]
    exact emitLowered_packs nofun rfl hscrn hroom
  · rw [lower_of_ne_ret hret]
    exact emitLowered_packs (recordOf_op1_allowsSize hr) hlit hscrn hroom

/-! ## The record that does not fit -/

theorem State.failPass_eq_failedWith (s : State) (e : ErrCode) : s.failPass e = failedWith s e := rfl

/-- Settles O35: had the record been emitted, its whole length would lie within the buffer; and
nothing but CapacityExceeded stops it. -/
theorem emissionBeyondBufferFailsPass : Obligations.EmissionBeyondBufferFailsPass := by
  intro i r s hr _ hscrn hlit _ hroom hlong
  have hpacks := emitRecord_packs hr hlit hscrn hroom
  rw [exec_of_recordOf hr, emitInstr, ← State.failPass_eq_failedWith]
  cases hemit : emitRecord r s with
  | ok t =>
    obtain ⟨hframe, hscratch, hfits, hpos⟩ := hpacks.ok t hemit
    rw [hframe.cfg] at hfits
    omega
  | error x =>
    rw [hpacks.stop x hemit]
    rfl

end Sys2Proof.Machine
end

section
/-! The emission of one record as one equation (spec/30_encoding.md R87, R92, spec/41_assemble.md
R141 to R153): the bit packer appends the bytes of the format table to `OUT` and queues at most one
fixup. -/

namespace Sys2Proof

/-- The kind fields of an instruction byte (R71). -/
theorem formatByte0_kinds (opc : Opcode) (a : BitVec 1) (kk : BitVec 2) :
    (formatByte0 opc a kk).extractLsb' 3 1 = a ∧ (formatByte0 opc a kk).extractLsb' 1 2 = kk := by
  revert a kk
  cases opc <;> decide

/-- The opcode field names one opcode (R72). -/
theorem Opcode.code_inj {o o' : Opcode} (h : o.code = o'.code) : o = o' := by
  rw [← Opcode.ofCode_code o, h, Opcode.ofCode_code]

end Sys2Proof

namespace Sys2Proof.Machine

/-! ## Appending to the output -/

/-- State `s` with these bytes at the end of `OUT` and these entries at the end of the queue. -/
def State.appended (s : State) (bs : List Byte) (fx : List Fixup) : State :=
  { s with
    out := Memory.writeBytes s.out s.olen bs
    olen := s.olen + bs.length
    fixups := s.fixups ++ fx }

@[simp] theorem State.appended_cfg (s : State) (bs : List Byte) (fx : List Fixup) :
    (s.appended bs fx).cfg = s.cfg := rfl
@[simp] theorem State.appended_labels (s : State) (bs : List Byte) (fx : List Fixup) :
    (s.appended bs fx).labels = s.labels := rfl
@[simp] theorem State.appended_olen (s : State) (bs : List Byte) (fx : List Fixup) :
    (s.appended bs fx).olen = s.olen + bs.length := rfl
@[simp] theorem State.appended_fixups (s : State) (bs : List Byte) (fx : List Fixup) :
    (s.appended bs fx).fixups = s.fixups ++ fx := rfl
@[simp] theorem State.appended_nf (s : State) (bs : List Byte) (fx : List Fixup) :
    (s.appended bs fx).nf = s.nf + fx.length := List.length_append
@[simp] theorem State.appended_scr (s : State) (bs : List Byte) (fx : List Fixup) :
    (s.appended bs fx).scr = s.scr := rfl
@[simp] theorem State.appended_scrn (s : State) (bs : List Byte) (fx : List Fixup) :
    (s.appended bs fx).scrn = s.scrn := rfl

@[simp] theorem State.appended_nil (s : State) : s.appended [] [] = s := by
  simp [State.appended, Memory.writeBytes]

@[simp] theorem State.appended_appended (s : State) (bs cs : List Byte) (fx gx : List Fixup) :
    (s.appended bs fx).appended cs gx = s.appended (bs ++ cs) (fx ++ gx) := by
  simp [State.appended, Memory.writeBytes_append, Nat.add_assoc]

theorem State.read_appended (s : State) (bs : List Byte) (fx : List Fixup) (a : Nat) :
    Memory.read (s.appended bs fx).out a =
      if s.olen ≤ a ∧ a < s.olen + bs.length then bs[a - s.olen]? else Memory.read s.out a :=
  Memory.read_writeBytes s.out s.olen a bs

theorem emits_of_appended {i : Instr} {s : State} {bs : List Byte} {fx : List Fixup}
    (h : exec i s = .next (s.appended bs fx)) : Emits i s bs fx :=
  ⟨_, h, s.read_appended bs fx⟩

theorem emitByte_appended {b : Byte} {s : State} (h : s.olen < s.cfg.outMax) :
    emitByte b s = .ok (s.appended [b] []) := by
  simp [emitByte_room h, State.appended, Memory.writeBytes]

theorem emitBytes_appended {bs : List Byte} {s : State} (h : s.olen + bs.length ≤ s.cfg.outMax) :
    emitBytes bs s = .ok (s.appended bs []) := by
  simp [emitBytes_room h, State.appended]

/-! ## The scratch byte (R145, R146) -/

/-- State `s` with a partly packed byte in the scratch. -/
def State.withScratch (s : State) (b : Byte) (n : Nat) : State := { s with scr := b, scrn := n }

theorem State.withScratch_empty {s : State} (hscr : s.scr = 0) (hscrn : s.scrn = 0) :
    s.withScratch 0 0 = s := by
  simp [State.withScratch, ← hscr, ← hscrn]

theorem put_withScratch (s : State) (b : Byte) (v : Nat) {n w : Nat} (h : n + w < 8) :
    put v w (s.withScratch b n) =
      .ok (s.withScratch (b ||| BitVec.ofNat 8 (v <<< (8 - n - w))) (n + w)) :=
  put_partial h

/-- What an alignment emits of a scratch of `n` bits: nothing when it is empty (R146). -/
def flushed (b : Byte) (n : Nat) : List Byte := if n = 0 then [] else [b]

theorem flushed_length (b : Byte) {n : Nat} (h : n ≤ 8) : (flushed b n).length = (n + 7) / 8 := by
  unfold flushed
  split <;> simp <;> omega

theorem align_withScratch {s : State} {b : Byte} {n : Nat} (hscr : s.scr = 0) (hscrn : s.scrn = 0)
    (hb : n = 0 → b = 0) (hroom : s.olen + (flushed b n).length ≤ s.cfg.outMax) :
    align (s.withScratch b n) = .ok (s.appended (flushed b n) []) := by
  by_cases hn : n = 0
  · rw [hn, hb hn, State.withScratch_empty hscr hscrn, align_empty hscrn]
    simp [flushed]
  · rw [flushed, if_neg hn] at hroom ⊢
    rw [align_flush (s := s.withScratch b n) (Nat.pos_of_ne_zero hn) hroom]
    simp [State.withScratch, State.appended, Memory.writeBytes, ← hscr, ← hscrn]

/-- A register code that completes the byte or leaves part of it is out after the next alignment. -/
theorem put_align_withScratch {s : State} {b : Byte} {n w : Nat} (v : Nat) (hscr : s.scr = 0)
    (hscrn : s.scrn = 0) (hw : 0 < w) (hfit : n + w ≤ 8) (hroom : s.olen < s.cfg.outMax) :
    (put v w (s.withScratch b n) >>= align) =
      .ok (s.appended [b ||| BitVec.ofNat 8 (v <<< (8 - n - w))] []) := by
  obtain hpart | hfull := Nat.lt_or_eq_of_le hfit
  · rw [put_withScratch s b v hpart, pass_ok_bind,
      align_withScratch hscr hscrn (by omega) (by rw [flushed_length _ hfit]; omega),
      flushed, if_neg (by omega)]
  · rw [put_full (s := s.withScratch b n) hfull hroom, pass_ok_bind, align_empty rfl]
    simp [State.withScratch, State.appended, Memory.writeBytes, packed, ← hscr, ← hscrn]

/-! ## The bytes of a record -/

/-- The bits of the tail byte before op2 (R87): the condition of a JMP, or size and op1. -/
def headByte (e : Record) : Byte :=
  if e.opc = .jmp then (condOrAl e.cond).code ++ (0 : BitVec 4)
  else if allowsSize e.opc then (sizeOrWord e.size).code ++ op1Bits e.op1 ++ (0 : BitVec 3)
  else 0

/-- The bytes from op2 on, below `q` bits `b` of the tail byte (R150 to R153); `n` is a literal's
width. -/
def packedOp2 (resolve : SymName → Option Nat) (b : Byte) (q n : Nat) : Option Operand → List Byte
  | none => flushed b q
  | some (.register r) | some (.indirect r) => [b ||| BitVec.ofNat 8 (r.toNat <<< (8 - q - 3))]
  | some (.symbol name) => flushed b q ++ symbolPayload resolve name
  | some (.literal v) => flushed b q ++ leBytes n v

/-- The bytes of a lowered record, as the packer makes them. -/
def packedRecord (resolve : SymName → Option Nat) (e : Record) : List Byte :=
  formatByte0 e.opc (op1KindBit e.op1) (op2KindBits e.op2) ::
    packedOp2 resolve (headByte e) (headBits e) (sizeOrWord e.size).bytes e.op2

/-- Zeros in the field of every local label, as the emit pass writes them (R152). -/
def placeholders (ls : List Label) (n : SymName) : Option Nat := (lookup ls n).map fun _ => 0

/-- The fixup of an op2 whose payload stands at offset `p`, if it names a local label (R152). -/
def localRef (ls : List Label) (p : Nat) (o : Option Operand) : List Fixup :=
  ((opSymbol o).toList.filter fun n => (lookup ls n).isSome).map fun n => ⟨p, n⟩

/-! ### Against the format table (R87) -/

theorem instrByte_eq_formatByte0 (e : Record) :
    instrByte e = formatByte0 e.opc (op1KindBit e.op1) (op2KindBits e.op2) := by
  unfold instrByte
  generalize op1KindBit e.op1 = a, op2KindBits e.op2 = k
  revert a k
  cases e.opc <;> decide

/-- A register code below a condition (format JR). -/
theorem cond_or_reg (c : BitVec 4) (r : Reg) :
    (c ++ (0 : BitVec 4) : Byte) ||| BitVec.ofNat 8 (r.toNat <<< 1) = c ++ r ++ (0 : BitVec 1) := by
  revert c r
  decide

/-- A register code alone (format CR). -/
theorem zero_or_reg (r : Reg) :
    (0 : Byte) ||| BitVec.ofNat 8 (r.toNat <<< 5) = r ++ (0 : BitVec 5) := by
  revert r
  decide

/-- A register code below a size (formats B0R and B10). -/
theorem size_or_reg (z : BitVec 2) (r : Reg) :
    (z ++ (0 : BitVec 3) ++ (0 : BitVec 3) : Byte) ||| BitVec.ofNat 8 (r.toNat <<< 3) =
      z ++ r ++ (0 : BitVec 3) := by
  revert z r
  decide

/-- A register code below a size and an op1 (format B1R). -/
theorem size_op1_or_reg (z : BitVec 2) (q r : Reg) :
    (z ++ q ++ (0 : BitVec 3) : Byte) ||| BitVec.ofNat 8 (r.toNat <<< 0) = z ++ q ++ r := by
  revert z q r
  decide

theorem packedRecord_jmp (resolve : SymName → Option Nat) (cond : Option Cond)
    (o2 : Option Operand) :
    packedRecord resolve (jmpRecord cond o2) = encodeJmp resolve cond o2 := by
  refine congrArg (List.cons _) ?_
  match o2 with
  | none | some (.symbol _) | some (.literal _) => rfl
  | some (.register r) | some (.indirect r) =>
    exact congrArg (fun t : Byte => [t]) (cond_or_reg (condOrAl cond).code r)

theorem packedRecord_call (resolve : SymName → Option Nat) (o2 : Option Operand) :
    packedRecord resolve (callRecord o2) = encodeCall resolve o2 := by
  refine congrArg (List.cons _) ?_
  match o2 with
  | none | some (.symbol _) | some (.literal _) => rfl
  | some (.register r) | some (.indirect r) =>
    exact congrArg (fun t : Byte => [t]) (zero_or_reg r)

/-- The canonical NOP (R174): its literal has the one byte of its size. -/
theorem packedRecord_nop (resolve : SymName → Option Nat) :
    packedRecord resolve nopRecord = [0x06, 0x00, 0x00] := by
  have head : headByte nopRecord = 0 ∧ headBits nopRecord = 4 := by decide
  have literal : leBytes (Size.bytes .byte) 0 = [0] := by decide
  have byte0 : formatByte0 .jmp 0 0b11 = 0x06 := by decide
  rw [packedRecord, head.1, head.2]
  exact congrArg₂ (fun b bs => b :: 0 :: bs) byte0 literal

theorem headByte_sized {opc : Opcode} (h : allowsSize opc = true) (s : Option Size)
    (o1 : Option RegOperand) (o2 : Option Operand) :
    headByte (sizedRecord opc s o1 o2) =
      (sizeOrWord s).code ++ op1Bits o1 ++ (0 : BitVec 3) := by
  cases opc <;> cases h <;> rfl

theorem headBits_sized {opc : Opcode} (h : allowsSize opc = true) (s : Option Size)
    (o1 : Option RegOperand) (o2 : Option Operand) :
    headBits (sizedRecord opc s o1 o2) = 2 + if o1.isSome then 3 else 0 := by
  cases opc <;> cases h <;> rfl

theorem packedRecord_sized {opc : Opcode} (h : allowsSize opc = true)
    (resolve : SymName → Option Nat) (s : Option Size) (o1 : Option RegOperand)
    (o2 : Option Operand) :
    packedRecord resolve (sizedRecord opc s o1 o2) = encodeBinary resolve opc s o1 o2 := by
  refine congrArg (List.cons _) ?_
  rw [headByte_sized h, headBits_sized h]
  have flushes (b : Byte) : flushed b (2 + if o1.isSome then 3 else 0) = [b] :=
    if_neg (by omega)
  match o2 with
  | none => exact flushes _
  | some (.symbol _) | some (.literal _) => exact congrArg (· ++ _) (flushes _)
  | some (.register r) | some (.indirect r) =>
    cases o1 with
    | none => exact congrArg (fun t : Byte => [t]) (size_or_reg (sizeOrWord s).code r)
    | some o => exact congrArg (fun t : Byte => [t]) (size_op1_or_reg (sizeOrWord s).code o.reg r)

/-- The packer and the format table agree on every instruction. -/
theorem encodeBytecode_of_recordOf {i : Instr} {r : Record} (h : recordOf i = some r) (c : Config)
    (resolve : SymName → Option Nat) :
    encodeBytecode c resolve i = some (packedRecord resolve (lower c r)) := by
  cases i <;> cases h
  case ret => rw [lower_ret rfl, packedRecord_jmp]; rfl
  all_goals rw [lower_of_ne_ret (by rintro ⟨⟩)]
  case jmp => rw [packedRecord_jmp]; rfl
  case call => rw [packedRecord_call]; rfl
  case nop => rw [packedRecord_nop]; rfl
  all_goals rw [packedRecord_sized rfl]; rfl

/-! ### Lengths (R92) -/

theorem symbolPayload_length {resolve : SymName → Option Nat} {ls : List Label} {n : SymName}
    (h : (resolve n).isSome = (lookup ls n).isSome) :
    (symbolPayload resolve n).length = symbolLen ls n := by
  unfold symbolPayload symbolLen
  rw [← h]
  cases resolve n with
  | none => rfl
  | some off => exact leBytes_length 4 off

/-- A record's bytes have the length of R92 when the same symbols are local. -/
theorem packedRecord_length {resolve : SymName → Option Nat} {ls : List Label} {e : Record}
    (h : ∀ n, (resolve n).isSome = (lookup ls n).isSome) (hhead : headBits e ≤ 5) :
    (packedRecord resolve e).length = loweredLen ls e := by
  have hflush := flushed_length (headByte e) (n := headBits e) (by omega)
  unfold packedRecord packedOp2 loweredLen
  match e.op2 with
  | none => simp [hflush, Nat.add_comm]
  | some (.register r) | some (.indirect r) => rfl
  | some (.symbol n) => simp [hflush, symbolPayload_length (h n), Nat.add_comm]
  | some (.literal v) => simp [hflush, Nat.add_comm]

theorem placeholders_isSome (ls : List Label) (n : SymName) :
    (placeholders ls n).isSome = (lookup ls n).isSome :=
  Option.isSome_map

end Sys2Proof.Machine
end

section
/-! The statements about the emission of one instruction: its bytes are those of the format table
(spec/30_encoding.md R87), as many as R92 says, and begin with no reserved pattern (R89). -/

namespace Sys2Proof.Machine

/-! ## The packer, operation by operation -/

/-- The first field after a byte boundary stands in the top bits (R145). -/
theorem put_empty {s : State} (hscr : s.scr = 0) (hscrn : s.scrn = 0) (v : Nat) {w : Nat}
    (h : w < 8) : put v w s = .ok (s.withScratch (BitVec.ofNat 8 (v <<< (8 - w))) w) := by
  rw [put_partial (by omega), packed, hscr, hscrn]
  simp [State.withScratch]

theorem cond_field (c : BitVec 4) : BitVec.ofNat 8 (c.toNat <<< 4) = c ++ 0#4 := by
  revert c
  decide

theorem size_field (z : BitVec 2) : BitVec.ofNat 8 (z.toNat <<< 6) = z ++ 0#3 ++ 0#3 := by
  revert z
  decide

/-- The fields before op2 stay in the scratch: they never fill the tail byte. -/
theorem emitHead_appended {e : Record} {s : State} (hop1 : e.op1.isSome → allowsSize e.opc = true)
    (hscr : s.scr = 0) (hscrn : s.scrn = 0) (hroom : s.olen < s.cfg.outMax) :
    (emitByte (instrByte e) s >>=
        putWhen (e.opc = .jmp) (condOrAl e.cond).code.toNat 4 >>=
        putWhen (allowsSize e.opc) (sizeOrWord e.size).code.toNat 2 >>=
        emitOp1 e) =
      .ok ((s.appended [instrByte e] []).withScratch (headByte e) (headBits e)) := by
  rw [emitByte_appended hroom, pass_ok_bind]
  generalize hu : s.appended [instrByte e] [] = u
  have hput (v : Nat) {w : Nat} (hw : w < 8) :=
    put_empty (s := u) (hu ▸ hscr) (hu ▸ hscrn) v hw
  by_cases hjmp : e.opc = .jmp
  · have hnone : e.op1 = none := by simpa [hjmp, allowsSize] using hop1
    simp [putWhen, emitOp1, headByte, headBits, hjmp, hnone, allowsSize, hput, cond_field]
  · cases hsize : allowsSize e.opc with
    | true =>
      cases hop : e.op1 with
      | none =>
        simp [putWhen, emitOp1, headByte, headBits, hjmp, hop, hsize, hput, size_field, op1Bits]
      | some o =>
        have hreg := size_or_reg (sizeOrWord e.size).code o.reg
        rw [BitVec.ofNat_eq_ofNat] at hreg
        simp [putWhen, emitOp1, headByte, headBits, hjmp, hop, hsize, hput, size_field, op1Bits,
          put_withScratch, hreg]
    | false =>
      have hnone : e.op1 = none := by simpa [hsize] using hop1
      have hempty : u.withScratch 0 0 = u := State.withScratch_empty (hu ▸ hscr) (hu ▸ hscrn)
      rw [BitVec.ofNat_eq_ofNat] at hempty
      simp [putWhen, emitOp1, headByte, headBits, hjmp, hnone, hsize, hempty]

theorem localRef_length (ls : List Label) (p : Nat) (r : Record) :
    (localRef ls p r.op2).length = refsOf ls r := by
  unfold localRef refsOf
  cases opSymbol r.op2 with
  | none => rfl
  | some n => by_cases h : (lookup ls n).isSome <;> simp [h]

/-- A symbol is its payload with a placeholder and a queue entry for a local label (R151, R152). -/
theorem emitSymbol_appended {n : SymName} {s : State}
    (hroom : s.olen + (symbolPayload (placeholders s.labels) n).length ≤ s.cfg.outMax)
    (hqueue : s.nf + (localRef s.labels s.olen (some (.symbol n))).length ≤ s.cfg.nFixupMax) :
    emitSymbol n s =
      .ok (s.appended (symbolPayload (placeholders s.labels) n)
        (localRef s.labels s.olen (some (.symbol n)))) := by
  unfold emitSymbol
  cases hl : lookup s.labels n with
  | none =>
    have hpayload : symbolPayload (placeholders s.labels) n = n := by
      simp [symbolPayload, placeholders, hl]
    have href : localRef s.labels s.olen (some (.symbol n)) = [] := by
      simp [localRef, opSymbol, hl]
    rw [hpayload] at hroom ⊢
    rw [href]
    exact emitBytes_appended hroom
  | some j =>
    have hpayload : symbolPayload (placeholders s.labels) n = [0, 0, 0, 0] := by
      have : leBytes 4 0 = [0, 0, 0, 0] := by decide
      simp [symbolPayload, placeholders, hl, this]
    have href : localRef s.labels s.olen (some (.symbol n)) = [⟨s.olen, n⟩] := by
      simp [localRef, opSymbol, hl]
    rw [hpayload] at hroom ⊢
    rw [href] at hqueue ⊢
    have hfree : s.nf ≠ s.cfg.nFixupMax := Nat.ne_of_lt hqueue
    rw [if_pos (show (some j).isSome from rfl), emitPlaceholder, if_neg hfree,
      emitBytes_appended (by exact hroom)]
    simp [State.appended]

theorem emitLiteral_appended {z : Option Size} {v : Nat} {s : State} (hv : v < 2 ^ 64)
    (hroom : s.olen + (sizeOrWord z).bytes ≤ s.cfg.outMax) :
    emitLiteral z v s = .ok (s.appended (leBytes (sizeOrWord z).bytes v) []) := by
  rw [emitLiteral, if_neg (by omega), emitBytes_appended (by rwa [leBytes_length])]

/-- Op2 and the last alignment, over a scratch that leaves room for a register code (R150). -/
theorem emitTail_appended {e : Record} {s : State} {b : Byte} {n : Nat} (hscr : s.scr = 0)
    (hscrn : s.scrn = 0) (hb : n = 0 → b = 0) (hn : n ≤ 5) (hlit : litBelowCeiling e.op2 = true)
    (hroom : s.olen +
      (packedOp2 (placeholders s.labels) b n (sizeOrWord e.size).bytes e.op2).length ≤ s.cfg.outMax)
    (hqueue : s.nf + refsOf s.labels e ≤ s.cfg.nFixupMax) :
    (emitOp2 e (s.withScratch b n) >>= align) =
      .ok (s.appended (packedOp2 (placeholders s.labels) b n (sizeOrWord e.size).bytes e.op2)
        (localRef s.labels (s.olen + (flushed b n).length) e.op2)) := by
  rw [← localRef_length s.labels (s.olen + (flushed b n).length) e] at hqueue
  unfold emitOp2
  generalize e.op2 = o at *
  match o with
  | none => exact align_withScratch hscr hscrn hb hroom
  | some (.register r) | some (.indirect r) =>
    have hfree : alignForReg (s.withScratch b n) = .ok (s.withScratch b n) :=
      if_neg (show ¬8 - n < 3 by omega)
    dsimp only
    rw [hfree, pass_ok_bind]
    exact put_align_withScratch r.toNat hscr hscrn (by omega) (by omega) hroom
  | some (.symbol name) =>
    simp only [packedOp2, List.length_append] at hroom
    dsimp only
    rw [align_withScratch hscr hscrn hb (by omega), pass_ok_bind,
      emitSymbol_appended (by simpa [Nat.add_assoc] using hroom) (by simpa using hqueue),
      pass_ok_bind, align_empty (by exact hscrn)]
    simp [packedOp2]
  | some (.literal v) =>
    simp only [packedOp2, List.length_append, leBytes_length] at hroom
    have hv : v < 2 ^ 64 := by simpa [litBelowCeiling] using hlit
    dsimp only
    rw [align_withScratch hscr hscrn hb (by omega), pass_ok_bind,
      emitLiteral_appended hv (by simpa [Nat.add_assoc] using hroom), pass_ok_bind,
      align_empty (by exact hscrn)]
    simp [packedOp2, localRef, opSymbol]

/-! ## One record -/

theorem headByte_of_headBits_eq_zero {e : Record} (h : headBits e = 0) : headByte e = 0 := by
  unfold headBits at h
  unfold headByte
  rw [if_neg (by intro hjmp; simp [hjmp] at h), if_neg (by intro hsize; simp [hsize] at h)]

/-- A lowered record with room appends its packed bytes and the fixup of its local label. -/
theorem emitLowered_appended {e : Record} {s : State}
    (hop1 : e.op1.isSome → allowsSize e.opc = true) (hlit : litBelowCeiling e.op2 = true)
    (hready : Ready s (loweredLen s.labels e) (refsOf s.labels e)) :
    emitLowered e s =
      .ok (s.appended (packedRecord (placeholders s.labels) e)
        (localRef s.labels (s.olen + headLen e) e.op2)) := by
  obtain ⟨hscr, hscrn, hroom, hqueue⟩ := hready
  have hhead := headBits_le_five hop1
  rw [← packedRecord_length (placeholders_isSome s.labels) hhead, packedRecord,
    List.length_cons] at hroom
  have htail : s.olen + 1 + (packedOp2 (placeholders s.labels) (headByte e) (headBits e)
      (sizeOrWord e.size).bytes e.op2).length ≤ s.cfg.outMax := by omega
  have hflush := flushed_length (headByte e) (n := headBits e) (by omega)
  unfold emitLowered
  rw [bind_assoc, emitHead_appended hop1 hscr hscrn (by omega), pass_ok_bind,
    emitTail_appended (s := s.appended [instrByte e] []) hscr hscrn headByte_of_headBits_eq_zero
      hhead hlit htail (by simpa using hqueue)]
  simp [packedRecord, instrByte_eq_formatByte0, headLen, hflush, Nat.add_assoc]

theorem lower_op1_allowsSize {i : Instr} {r : Record} (h : recordOf i = some r) (c : Config) :
    (lower c r).op1.isSome → allowsSize (lower c r).opc = true := by
  by_cases hret : r.opc = .ret
  · rw [lower_ret hret]
    exact nofun
  · rw [lower_of_ne_ret hret]
    exact recordOf_op1_allowsSize h

/-- A RET names no target of its own, so lowering changes no symbol and adds no literal. -/
theorem lower_keeps_payload {i : Instr} {r : Record} (h : recordOf i = some r) (c : Config) :
    opSymbol (lower c r).op2 = opSymbol r.op2 ∧
      (litBelowCeiling r.op2 = true → litBelowCeiling (lower c r).op2 = true) := by
  by_cases hret : r.opc = .ret
  · rw [lower_ret hret]
    refine ⟨?_, fun _ => rfl⟩
    cases i <;> cases h <;> cases hret
    rfl
  · rw [lower_of_ne_ret hret]
    exact ⟨rfl, id⟩

/-- The length of an instruction's encoding is that of R92 when the same symbols are local. -/
theorem packedRecord_lower_length {i : Instr} {r : Record} (h : recordOf i = some r) (c : Config)
    {resolve : SymName → Option Nat} {ls : List Label}
    (hres : ∀ n, (resolve n).isSome = (lookup ls n).isSome) :
    (packedRecord resolve (lower c r)).length = recordLen c ls r :=
  packedRecord_length hres (headBits_le_five (lower_op1_allowsSize h c))

/-- A bytecode instruction with room completes: its packed bytes at the end of `OUT`, the fixup of
its local label at the end of the queue, and nothing else. -/
theorem exec_appended {i : Instr} {r : Record} {s : State} (h : recordOf i = some r)
    (hlit : litBelowCeiling r.op2 = true)
    (hready : Ready s (recordLen s.cfg s.labels r) (refsOf s.labels r)) :
    exec i s =
      .next (s.appended (packedRecord (placeholders s.labels) (lower s.cfg r))
        (localRef s.labels (s.olen + headLen (lower s.cfg r)) r.op2)) := by
  obtain ⟨hsym, hlow⟩ := lower_keeps_payload h s.cfg
  have hrefs : refsOf s.labels (lower s.cfg r) = refsOf s.labels r := by rw [refsOf, refsOf, hsym]
  rw [recordLen, ← hrefs] at hready
  rw [exec_of_recordOf h, emitInstr, emitRecord,
    emitLowered_appended (lower_op1_allowsSize h s.cfg) (hlow hlit) hready, localRef, hsym]
  rfl

/-! ## The statements -/

/-- A queued fixup points at the last four bytes of its instruction. -/
theorem localRef_off {ls : List Label} {e : Record} {p : Nat} {f : Fixup}
    (hf : f ∈ localRef ls (p + headLen e) e.op2) : f.off + 4 = p + loweredLen ls e := by
  unfold localRef at hf
  obtain ⟨n, hn, rfl⟩ := List.mem_map.mp hf
  obtain ⟨hmem, hloc⟩ := List.mem_filter.mp hn
  unfold loweredLen headLen
  match e.op2, hmem with
  | some (.symbol m), hmem =>
    have hnm : n = m := by simpa [opSymbol] using hmem
    have hlen : symbolLen ls m = 4 := if_pos (hnm ▸ hloc)
    simp only [hlen]
    omega

/-- Settles O38: the packer's bytes are the format table's, whatever the record, and they are what
the emission appends. -/
theorem emissionAgreesWithFormatTable : Obligations.EmissionAgreesWithFormatTable := by
  intro i r s bs hr hlit henc hready
  have hbs : packedRecord (placeholders s.labels) (lower s.cfg r) = bs :=
    Option.some_inj.mp ((encodeBytecode_of_recordOf hr s.cfg _).symm.trans henc)
  have hlen := packedRecord_lower_length hr s.cfg (placeholders_isSome s.labels)
  rw [hbs] at hlen
  rw [hlen] at hready ⊢
  have hexec := exec_appended hr hlit hready
  rw [hbs] at hexec
  refine ⟨_, emits_of_appended hexec, fun f hf => ?_, ?_⟩
  · rw [localRef, ← (lower_keeps_payload hr s.cfg).1] at hf
    exact localRef_off hf
  · simp [localRef, Function.comp_def]

/-- Settles O39: the packed bytes are as many as R92 says, and appending them leaves the scratch. -/
theorem emittedLengthFollowsFormula : Obligations.EmittedLengthFollowsFormula := by
  intro i r s hr hlit hready
  have ⟨hscr, hscrn, _, _⟩ := hready
  refine ⟨_, exec_appended hr hlit hready, ?_, hscr, hscrn⟩
  rw [State.appended_olen, packedRecord_lower_length hr s.cfg (placeholders_isSome s.labels)]

theorem lower_opc_ne_ret (c : Config) (r : Record) : (lower c r).opc ≠ .ret := by
  by_cases hret : r.opc = .ret
  · rw [lower_ret hret]
    nofun
  · rwa [lower_of_ne_ret hret]

theorem lower_legal {c : Config} {r : Record} (h : r.legal c = true) :
    (lower c r).legal c = true := by
  by_cases hret : r.opc = .ret
  · rw [lower_ret hret]
    refine Record.legal_iff.mpr (.inr ⟨nofun, nofun, nofun, fun o ho => ?_⟩)
    cases ho
    exact ⟨show Kind.register ∈ kindsOp2 .jmp by decide, rfl⟩
  · rwa [lower_of_ne_ret hret]

/-- What the table of R112 leaves an instruction byte: no op1 on JMP and CALL, no literal on CALL,
no op2 on NOT. -/
theorem legal_kind_bits {c : Config} {e : Record} (h : e.legal c = true) :
    (e.opc = .jmp ∨ e.opc = .call → op1KindBit e.op1 = 0) ∧
      (e.opc = .call → op2KindBits e.op2 ≠ 0b11) ∧ (e.opc = .not → op2KindBits e.op2 = 0) := by
  obtain rfl | ⟨-, -, hop1, hop2⟩ := Record.legal_iff.mp h
  · exact ⟨fun _ => rfl, nofun, nofun⟩
  · refine ⟨fun hopc => ?_, fun hopc => ?_, fun hopc => ?_⟩
    · have hnone : e.op1 = none := by
        rcases hopc with hopc | hopc <;> simpa [hopc, allowsOp1] using hop1
      rw [hnone]
      rfl
    · rw [hopc] at hop2
      match e.op2, hop2 with
      | none, _ | some (.register _), _ => exact (by decide : (0b00 : BitVec 2) ≠ 0b11)
      | some (.indirect _), _ => exact (by decide : (0b01 : BitVec 2) ≠ 0b11)
      | some (.symbol _), _ => exact (by decide : (0b10 : BitVec 2) ≠ 0b11)
      | some (.literal v), hop2 =>
        exact absurd (hop2 _ rfl).1 (show Kind.literal ∉ kindsOp2 .call by decide)
    · rw [hopc] at hop2
      match e.op2, hop2 with
      | none, _ => rfl
      | some o, hop2 => exact absurd (hop2 o rfl).1 (by simp [kindsOp2])

/-- Settles O40: a lowered record is no RET, and the table of R112 keeps the other patterns of R89
out of a legal one. -/
theorem reservedInstructionBytesNeverEmitted :
    Obligations.ReservedInstructionBytesNeverEmitted := by
  intro i r s hr hlegal hlit hready
  obtain ⟨hop1, hcall, hnot⟩ := legal_kind_bits (lower_legal hlegal)
  have hret := lower_opc_ne_ret s.cfg r
  refine ⟨_, formatByte0 (lower s.cfg r).opc (op1KindBit (lower s.cfg r).op1)
    (op2KindBits (lower s.cfg r).op2), exec_appended hr hlit hready, ?_, ?_⟩
  · rw [State.read_appended, if_pos ⟨Nat.le_refl _, by simp [packedRecord]⟩, Nat.sub_self]
    rfl
  · obtain ⟨hcode, hbit0⟩ := Laws.formatByte0_fields (lower s.cfg r).opc
      (op1KindBit (lower s.cfg r).op1) (op2KindBits (lower s.cfg r).op2)
    obtain ⟨ha, hk⟩ := formatByte0_kinds (lower s.cfg r).opc
      (op1KindBit (lower s.cfg r).op1) (op2KindBits (lower s.cfg r).op2)
    rw [hcode, ha, hk]
    refine ⟨?_, fun h => hret (Opcode.code_inj h), ?_, fun h => hcall (Opcode.code_inj h),
      fun h => hnot (Opcode.code_inj h)⟩
    · simpa using congrArg (·.getLsbD 0) hbit0
    · exact fun h => hop1 (h.imp (fun h => Opcode.code_inj h) fun h => Opcode.code_inj h)

end Sys2Proof.Machine
end

section
/-! The command port (spec/30_encoding.md R95 to R100): it reads back what its encoder writes, and
reads nothing but well-formed commands. -/

namespace Sys2Proof

/-! ## Header fields that share the argument (R96) -/

theorem headerReg_mkHeader (cmd : BitVec 4) (n : BitVec 16) (k : BitVec 2) (r : Reg) :
    headerReg (mkHeader cmd n k (r.setWidth 4)) = r := by
  have hreg (h : Word) : headerReg h = (headerArg h).extractLsb' 0 3 := by
    ext i hi
    simp [headerReg, headerArg]
  rw [hreg, headerArg_mkHeader]
  revert r
  decide

theorem headerSize_mkHeader (cmd : BitVec 4) (n : BitVec 16) (k : BitVec 2) (z : Size) :
    headerSize (mkHeader cmd n k (z.code.setWidth 4)) = z := by
  have hsize (h : Word) : headerSize h = Size.ofCode ((headerArg h).extractLsb' 0 2) := by
    refine congrArg Size.ofCode ?_
    ext i hi
    simp [headerArg]
  rw [hsize, headerArg_mkHeader]
  cases z <;> rfl

/-! ## Payloads -/

/-- The payload of a literal has room for all of its `LIT_W` bits (R96). -/
theorem litW_le_litWords (c : Config) : c.litW ≤ 32 * litWords c := by
  unfold litWords
  omega

/-- The operand of SET_OP1 and SET_OP2 is read back (R96, R100). -/
theorem decodeOperand_encodeOperand {c : Config} {o : Operand} (ho : o.onPort c = true)
    (cmd : BitVec 4) (rest : List Beat) :
    ∃ h payload, encodeOperand c cmd o = .word h :: payload ∧ headerCmd h = cmd ∧
      decodeOperand c h (payload ++ rest) = .ok (o, rest) := by
  match o, ho with
  | .register r, _ | .indirect r, _ =>
    refine ⟨_, _, rfl, headerCmd_mkHeader _ _ _ _, ?_⟩
    simp [decodeOperand, Operand.kind, headerReg_mkHeader]
  | .symbol name, ho =>
    have hlen : name.length < 65536 := of_decide_eq_true ho
    refine ⟨_, _, rfl, headerCmd_mkHeader _ _ _ _, ?_⟩
    simp [decodeOperand, Operand.kind, Nat.mod_eq_of_lt hlen, takeBytes_map]
  | .literal v, ho =>
    have hv : v < 2 ^ c.litW := of_decide_eq_true ho
    have hwords := takeWords_map (leWords (litWords c) v) rest
    rw [leWords_length] at hwords
    have hvalue : wordsValue (leWords (litWords c) v) = v :=
      wordsValue_leWords (hv.trans_le (Nat.pow_le_pow_right (by omega) (litW_le_litWords c)))
    refine ⟨_, _, rfl, headerCmd_mkHeader _ _ _ _, ?_⟩
    simp [decodeOperand, Operand.kind, hwords, hvalue, Nat.mod_eq_of_lt hv]

end Sys2Proof

namespace Sys2Proof.Machine

/-- Settles O51: the header gives back the command and its argument, and each of the three payloads
(name, operand, address) is read back. -/
theorem commandDecodeEncode : Obligations.CommandDecodeEncode := by
  intro c i bs rest hwf henc
  cases i <;> cases henc
  case addLabel name =>
    have hlen : name.length < 65536 := of_decide_eq_true hwf
    simp [decodeCommand, decodeHeader, Nat.mod_eq_of_lt hlen, takeBytes_map]
  case setOp1 o | setOp2 o =>
    obtain ⟨h, payload, henc, hcmd, hdec⟩ := decodeOperand_encodeOperand hwf _ rest
    rw [henc, List.cons_append]
    simp [decodeCommand, decodeHeader, hcmd, hdec]
  case readOut addr =>
    simp [decodeCommand, decodeHeader, takeWords, wordsValue]
  all_goals simp [argHeader, decodeCommand, decodeHeader, headerSize_mkHeader]

/-- Settles O54: every payload is read within the width of its field. -/
theorem decodedCommandIsWellFormed : Obligations.DecodedCommandIsWellFormed :=
  fun _ _ _ _ h => decodeCommand_wf h

end Sys2Proof.Machine
end

section
/-! Reading the bytecode back (spec/30_encoding.md R71, R87; the reader is the model's own, log 7).
Each decoder has one equation per operand form, on the bytes the format table gives for that form; a
byte it accepts is one of those. The two directions of the statements follow from these. -/

namespace Sys2Proof

/-! ## Codes read forth -/

theorem Opcode.code_ofCode (x : BitVec 4) : (Opcode.ofCode x).code = x := by
  revert x
  decide

theorem Cond.code_ofCode (x : BitVec 4) : (Cond.ofCode x).code = x := by
  revert x
  decide

theorem Size.code_ofCode (x : BitVec 2) : (Size.ofCode x).code = x := by
  revert x
  decide

theorem Kind.code_ofCode (x : BitVec 2) : (Kind.ofCode x).code = x := by
  revert x
  decide

theorem RegOperand.exists_bits (a : BitVec 1) (r : Reg) :
    ∃ o : RegOperand, a = o.kindBit ∧ r = o.reg := by
  obtain rfl | rfl : a = 0 ∨ a = 1 := by revert a; decide
  · exact ⟨.register r, rfl, rfl⟩
  · exact ⟨.indirect r, rfl, rfl⟩

/-! ## Little-endian byte strings (R56, R85) -/

theorem leBytes_succ (n v : Nat) :
    leBytes (n + 1) v = BitVec.ofNat 8 v :: leBytes n (v / 2 ^ 8) := by
  have hbyte (k : Nat) : byteOf v (k + 1) = byteOf (v / 2 ^ 8) k := by
    rw [byteOf, byteOf, ← Nat.shiftRight_eq_div_pow, ← Nat.shiftRight_add, Nat.mul_succ,
      Nat.add_comm]
  rw [leBytes, List.range_succ_eq_map, List.map_cons, List.map_map]
  exact congrArg (List.cons _) (List.map_congr_left fun k _ => hbyte k)

theorem leValue_leBytes {n v : Nat} (h : v < 2 ^ (8 * n)) : leValue (leBytes n v) = v := by
  induction n generalizing v with
  | zero => simp at h; simp [leBytes, leValue, h]
  | succ n ih =>
    have hd : v / 2 ^ 8 < 2 ^ (8 * n) := by
      apply Nat.div_lt_of_lt_mul
      rwa [← Nat.pow_add, Nat.add_comm, ← Nat.mul_succ]
    rw [leBytes_succ, leValue, ih hd, BitVec.toNat_ofNat]
    exact Nat.mod_add_div v (2 ^ 8)

theorem leBytes_leValue (p : List Byte) : leBytes p.length (leValue p) = p := by
  induction p with
  | nil => rfl
  | cons b p ih =>
    have hb := b.isLt
    have hdiv : (b.toNat + 2 ^ 8 * leValue p) / 2 ^ 8 = leValue p := by omega
    rw [List.length_cons, leBytes_succ, leValue, hdiv, ih]
    congr 1
    apply BitVec.eq_of_toNat_eq
    rw [BitVec.toNat_ofNat]
    omega

theorem leValue_lt (p : List Byte) : leValue p < 2 ^ (8 * p.length) := by
  induction p with
  | nil => decide
  | cons b p ih =>
    have hb := b.isLt
    have hpow : 2 ^ (8 * (b :: p).length) = 2 ^ 8 * 2 ^ (8 * p.length) := by
      rw [List.length_cons, ← Nat.pow_add]
      congr 1
      omega
    rw [leValue, hpow]
    omega

/-! ## Payloads -/

theorem splitBytes_eq_ok {n : Nat} {bs p rest : List Byte} :
    splitBytes n bs = .ok (p, rest) ↔ p.length = n ∧ bs = p ++ rest := by
  unfold splitBytes
  constructor
  · intro h
    split at h
    · cases h
    · cases h
      exact ⟨List.length_take_of_le (by omega), (List.take_append_drop n bs).symm⟩
  · rintro ⟨rfl, rfl⟩
    simp

/-- A symbol is read back by a reader told about it (R83, R84, R91). -/
theorem decodeSymbol_symbolPayload {resolve : SymName → Option Nat} {i : Instr} {n : SymName}
    (h : i.symbol? = some n) (rest : List Byte) :
    decodeSymbol (symInfoFor resolve i) (symbolPayload resolve n ++ rest) =
      .ok (.symbol n, rest) := by
  unfold symInfoFor symbolPayload
  rw [h]
  cases hr : resolve n with
  | none =>
    have hsplit : splitBytes n.length (n ++ rest) = .ok (n, rest) := splitBytes_eq_ok.mpr ⟨rfl, rfl⟩
    simp [decodeSymbol, hr, hsplit]
  | some off =>
    have hsplit : splitBytes 4 (leBytes 4 off ++ rest) = .ok (leBytes 4 off, rest) :=
      splitBytes_eq_ok.mpr ⟨leBytes_length 4 off, rfl⟩
    simp [decodeSymbol, hr, hsplit]

/-- A symbol that is not a local label is its bytes (R84). -/
theorem decodeSymbol_ok {sym : Option SymInfo} (hsym : ∀ n, sym ≠ some (.localLabel n))
    {bs rest : List Byte} {o : Operand} (h : decodeSymbol sym bs = .ok (o, rest)) :
    ∃ n, o = .symbol n ∧ bs = n ++ rest := by
  match sym, hsym, h with
  | some (.localLabel n), hsym, _ => exact absurd rfl (hsym n)
  | some (.externalName len), _, h =>
    simp only [decodeSymbol] at h
    split at h
    · next hsplit => cases h; exact ⟨_, rfl, (splitBytes_eq_ok.mp hsplit).2⟩
    · cases h

theorem decodeLiteral_leBytes {n v : Nat} (hv : v < 2 ^ (8 * n)) (rest : List Byte) :
    decodeLiteral n (leBytes n v ++ rest) = .ok (.literal v, rest) := by
  have hsplit : splitBytes n (leBytes n v ++ rest) = .ok (leBytes n v, rest) :=
    splitBytes_eq_ok.mpr ⟨leBytes_length n v, rfl⟩
  simp [decodeLiteral, hsplit, leValue_leBytes hv]

theorem decodeLiteral_ok {n : Nat} {bs rest : List Byte} {o : Operand}
    (h : decodeLiteral n bs = .ok (o, rest)) :
    ∃ v, o = .literal v ∧ v < 2 ^ (8 * n) ∧ bs = leBytes n v ++ rest := by
  unfold decodeLiteral at h
  split at h
  · next p _ hsplit =>
    cases h
    obtain ⟨rfl, rfl⟩ := splitBytes_eq_ok.mp hsplit
    exact ⟨_, rfl, leValue_lt p, by rw [leBytes_leValue]⟩
  · cases h

/-! ## The instruction byte (R71) -/

/-- The opcodes of the binary family with their constructors (R112, R186). -/
def binaryForm : Opcode → Option (Option Size → Option RegOperand → Option Operand → Instr)
  | .add => some .add | .sub => some .sub | .mul => some .mul | .div => some .div
  | .cmp => some .cmp | .tst => some .tst | .and => some .and | .or => some .or
  | .xor => some .xor | .lsl => some .lsl | .lsr => some .lsr | .mov => some .mov
  | .jmp | .not | .call | .ret => none

/-- A byte with bit 0 = 0 is an instruction byte of the format table. -/
theorem exists_formatByte0 {b : Byte} (h : b.extractLsb' 0 1 = 0) :
    ∃ opc a k, b = formatByte0 opc a (Kind.code k) := by
  refine ⟨Opcode.ofCode (b.extractLsb' 4 4), b.extractLsb' 3 1, Kind.ofCode (b.extractLsb' 1 2), ?_⟩
  rw [formatByte0, Opcode.code_ofCode, Kind.code_ofCode]
  revert b
  decide

/-- What a decoder does not refuse has passed its check (R89). -/
theorem guard_ok {α : Type} {p : Prop} [Decidable p] {e : DecodeError} {d : Except DecodeError α}
    {x : α} (h : (if p then .error e else d) = .ok x) : ¬p ∧ d = .ok x := by
  split at h
  · cases h
  · next hp => exact ⟨hp, h⟩

section
variable (sym : Option SymInfo) (a : BitVec 1) (k : Kind) (bs : List Byte)

theorem decodeBytecode_jmp :
    decodeBytecode sym (formatByte0 .jmp 0 k.code :: bs) = decodeJmp sym k bs := by
  obtain ⟨hopc, hbit⟩ := Laws.formatByte0_fields .jmp 0 k.code
  obtain ⟨ha, hk⟩ := formatByte0_kinds .jmp 0 k.code
  simp only [decodeBytecode, hopc, hbit, ha, hk, Opcode.ofCode_code, Kind.ofCode_code, ne_eq,
    not_true_eq_false, if_false]

theorem decodeBytecode_call :
    decodeBytecode sym (formatByte0 .call 0 k.code :: bs) = decodeCall sym k bs := by
  obtain ⟨hopc, hbit⟩ := Laws.formatByte0_fields .call 0 k.code
  obtain ⟨ha, hk⟩ := formatByte0_kinds .call 0 k.code
  simp only [decodeBytecode, hopc, hbit, ha, hk, Opcode.ofCode_code, Kind.ofCode_code, ne_eq,
    not_true_eq_false, if_false]

/-- No JMP and no CALL is read with op1-kind 1 (R89 (3)). -/
theorem op1Kind_of_decodeBytecode {opc : Opcode} (hopc : opc = .jmp ∨ opc = .call)
    {x : Instr × List Byte} (h : decodeBytecode sym (formatByte0 opc a k.code :: bs) = .ok x) :
    a = 0 := by
  obtain ⟨hcode, hbit⟩ := Laws.formatByte0_fields opc a k.code
  obtain ⟨ha, -⟩ := formatByte0_kinds opc a k.code
  simp only [decodeBytecode, hcode, hbit, ha, Opcode.ofCode_code, ne_eq, not_true_eq_false,
    if_false] at h
  obtain rfl | rfl := hopc
  · exact not_not.mp (guard_ok h).1
  · exact not_not.mp (guard_ok h).1

theorem decodeBytecode_ret :
    decodeBytecode sym (formatByte0 .ret a k.code :: bs) = .error .reservedOpcode := by
  obtain ⟨hopc, hbit⟩ := Laws.formatByte0_fields .ret a k.code
  simp only [decodeBytecode, hopc, hbit, Opcode.ofCode_code, ne_eq, not_true_eq_false, if_false]

theorem decodeBytecode_not :
    decodeBytecode sym (formatByte0 .not a k.code :: bs) = decodeNot a k bs := by
  obtain ⟨hopc, hbit⟩ := Laws.formatByte0_fields .not a k.code
  obtain ⟨ha, hk⟩ := formatByte0_kinds .not a k.code
  simp only [decodeBytecode, hopc, hbit, ha, hk, Opcode.ofCode_code, Kind.ofCode_code, ne_eq,
    not_true_eq_false, if_false]

theorem decodeBytecode_binary {opc : Opcode}
    {mk : Option Size → Option RegOperand → Option Operand → Instr} (h : binaryForm opc = some mk) :
    decodeBytecode sym (formatByte0 opc a k.code :: bs) = decodeBinary mk sym a k bs := by
  obtain ⟨hopc, hbit⟩ := Laws.formatByte0_fields opc a k.code
  obtain ⟨ha, hk⟩ := formatByte0_kinds opc a k.code
  simp only [decodeBytecode, hopc, hbit, ha, hk, Opcode.ofCode_code, Kind.ofCode_code, ne_eq,
    not_true_eq_false, if_false]
  cases opc <;> cases h <;> rfl

end

/-! ## JMP (formats JR, JS, JL, NOP) -/

theorem condReg_fields (c : BitVec 4) (r : Reg) :
    (c ++ r ++ (0 : BitVec 1) : Byte).extractLsb' 4 4 = c ∧
      (c ++ r ++ (0 : BitVec 1) : Byte).extractLsb' 0 1 = 0 ∧
      (c ++ r ++ (0 : BitVec 1) : Byte).extractLsb' 1 3 = r := by
  revert c r
  decide

theorem exists_condReg {t : Byte} (h : t.extractLsb' 0 1 = 0) :
    ∃ (c : Cond) (r : Reg), t = c.code ++ r ++ (0 : BitVec 1) := by
  refine ⟨Cond.ofCode (t.extractLsb' 4 4), t.extractLsb' 1 3, ?_⟩
  rw [Cond.code_ofCode]
  revert t
  decide

theorem condOnly_fields (c : BitVec 4) :
    (c ++ (0 : BitVec 4) : Byte).extractLsb' 4 4 = c ∧
      (c ++ (0 : BitVec 4) : Byte).extractLsb' 0 4 = 0 := by
  revert c
  decide

theorem exists_condOnly {t : Byte} (h : t.extractLsb' 0 4 = 0) :
    ∃ c : Cond, t = c.code ++ (0 : BitVec 4) := by
  refine ⟨Cond.ofCode (t.extractLsb' 4 4), ?_⟩
  rw [Cond.code_ofCode]
  revert t
  decide

section
variable (sym : Option SymInfo) (c : Cond) (bs : List Byte)

theorem decodeJmp_reg {o : Reg → Operand} (ho : o = .register ∨ o = .indirect) (r : Reg) :
    decodeJmp sym (o r).kind ((c.code ++ r ++ (0 : BitVec 1)) :: bs) =
      .ok (.jmp (some c) (some (o r)), bs) := by
  obtain ⟨hc, hpad, hr⟩ := condReg_fields c.code r
  obtain rfl | rfl := ho
  all_goals
    simp only [decodeJmp, Operand.kind, hc, hpad, hr, Cond.ofCode_code, ne_eq, not_true_eq_false,
      if_false]

theorem decodeJmp_symbol :
    decodeJmp sym .symbol ((c.code ++ (0 : BitVec 4)) :: bs) =
      (decodeSymbol sym bs).map fun p => (.jmp (some c) (some p.1), p.2) := by
  obtain ⟨hc, hpad⟩ := condOnly_fields c.code
  simp only [decodeJmp, hc, hpad, Cond.ofCode_code, ne_eq, not_true_eq_false, if_false]
  cases decodeSymbol sym bs <;> rfl

theorem decodeJmp_literal {c : Cond} (hnv : c ≠ .nv) :
    decodeJmp sym .literal ((c.code ++ (0 : BitVec 4)) :: bs) =
      (decodeLiteral 4 bs).map fun p => (.jmp (some c) (some p.1), p.2) := by
  obtain ⟨hc, hpad⟩ := condOnly_fields c.code
  simp only [decodeJmp, hc, hpad, Cond.ofCode_code, ne_eq, not_true_eq_false, if_false, hnv]
  cases decodeLiteral 4 bs <;> rfl

end

/-- A literal JMP of condition NV is the NOP, whose literal is the one byte 0 (U4). -/
theorem decodeJmp_nv {sym : Option SymInfo} {bs rest : List Byte} {i : Instr} :
    decodeJmp sym .literal (0x00 :: bs) = .ok (i, rest) ↔ bs = 0 :: rest ∧ i = .nop := by
  have hcond : Cond.ofCode ((0x00 : Byte).extractLsb' 4 4) = .nv := by decide
  have hpad : (0x00 : Byte).extractLsb' 0 4 = 0 := by decide
  simp only [decodeJmp, hcond, hpad, ne_eq, not_true_eq_false, if_false, if_true]
  constructor
  · intro h
    match bs, h with
    | b :: bs, h =>
      by_cases hb : b = 0
      · subst hb
        cases h
        exact ⟨rfl, rfl⟩
      · dsimp only at h
        rw [if_neg hb] at h
        cases h
  · rintro ⟨rfl, rfl⟩
    rfl

/-! ## CALL (formats CR, CS) -/

theorem callReg_fields (r : Reg) :
    (r ++ (0 : BitVec 5) : Byte).extractLsb' 0 5 = 0 ∧
      (r ++ (0 : BitVec 5) : Byte).extractLsb' 5 3 = r := by
  revert r
  decide

theorem exists_callReg {t : Byte} (h : t.extractLsb' 0 5 = 0) :
    ∃ r : Reg, t = r ++ (0 : BitVec 5) := by
  refine ⟨t.extractLsb' 5 3, ?_⟩
  revert t
  decide

theorem decodeCall_reg (sym : Option SymInfo) (bs : List Byte) {o : Reg → Operand}
    (ho : o = .register ∨ o = .indirect) (r : Reg) :
    decodeCall sym (o r).kind ((r ++ (0 : BitVec 5)) :: bs) = .ok (.call (some (o r)), bs) := by
  obtain ⟨hpad, hr⟩ := callReg_fields r
  obtain rfl | rfl := ho
  all_goals
    simp only [decodeCall, Operand.kind, hpad, hr, ne_eq, not_true_eq_false, if_false]

theorem decodeCall_symbol (sym : Option SymInfo) (bs : List Byte) :
    decodeCall sym .symbol bs =
      (decodeSymbol sym bs).map fun p => (.call (some p.1), p.2) := by
  rw [decodeCall]
  cases decodeSymbol sym bs <;> rfl

/-! ## NOT and the binary family (formats N1, B1R, B1S, B1L) -/

theorem sizeReg_fields (z : BitVec 2) (d r : Reg) :
    (z ++ d ++ r : Byte).extractLsb' 6 2 = z ∧ (z ++ d ++ r : Byte).extractLsb' 3 3 = d ∧
      (z ++ d ++ r : Byte).extractLsb' 0 3 = r := by
  revert z d r
  decide

/-- With the op1-kind bit, every tail byte is one of a size, an op1 and a register code. -/
theorem exists_sizeReg (t : Byte) (a : BitVec 1) :
    ∃ (z : Size) (q : RegOperand), a = q.kindBit ∧ t = z.code ++ q.reg ++ t.extractLsb' 0 3 := by
  have fields (t : Byte) : t = t.extractLsb' 6 2 ++ t.extractLsb' 3 3 ++ t.extractLsb' 0 3 := by
    revert t
    decide
  obtain ⟨q, ha, hq⟩ := RegOperand.exists_bits a (t.extractLsb' 3 3)
  refine ⟨Size.ofCode (t.extractLsb' 6 2), q, ha, ?_⟩
  rw [Size.code_ofCode, ← hq]
  exact fields t

theorem decodeNot_register (z : Size) (q : RegOperand) (bs : List Byte) :
    decodeNot q.kindBit .register ((z.code ++ q.reg ++ (0 : BitVec 3)) :: bs) =
      .ok (.not (some z) (some q), bs) := by
  obtain ⟨hz, hd, hpad⟩ := sizeReg_fields z.code q.reg 0
  simp only [decodeNot, hz, hd, hpad, Size.ofCode_code, RegOperand.ofBits_bits, ne_eq,
    not_true_eq_false, if_false]

section
variable (mk : Option Size → Option RegOperand → Option Operand → Instr) (sym : Option SymInfo)
  (z : Size) (d : RegOperand) (bs : List Byte)

theorem decodeBinary_reg {o : Reg → Operand} (ho : o = .register ∨ o = .indirect) (r : Reg) :
    decodeBinary mk sym d.kindBit (o r).kind ((z.code ++ d.reg ++ r) :: bs) =
      .ok (mk (some z) (some d) (some (o r)), bs) := by
  obtain ⟨hz, hd, hr⟩ := sizeReg_fields z.code d.reg r
  obtain rfl | rfl := ho
  all_goals
    simp only [decodeBinary, Operand.kind, hz, hd, hr, Size.ofCode_code, RegOperand.ofBits_bits]

theorem decodeBinary_symbol :
    decodeBinary mk sym d.kindBit .symbol ((z.code ++ d.reg ++ (0 : BitVec 3)) :: bs) =
      (decodeSymbol sym bs).map fun p => (mk (some z) (some d) (some p.1), p.2) := by
  obtain ⟨hz, hd, hpad⟩ := sizeReg_fields z.code d.reg 0
  simp only [decodeBinary, hz, hd, hpad, Size.ofCode_code, RegOperand.ofBits_bits, ne_eq,
    not_true_eq_false, if_false]
  cases decodeSymbol sym bs <;> rfl

theorem decodeBinary_literal :
    decodeBinary mk sym d.kindBit .literal ((z.code ++ d.reg ++ (0 : BitVec 3)) :: bs) =
      (decodeLiteral z.bytes bs).map fun p => (mk (some z) (some d) (some p.1), p.2) := by
  obtain ⟨hz, hd, hpad⟩ := sizeReg_fields z.code d.reg 0
  simp only [decodeBinary, hz, hd, hpad, Size.ofCode_code, RegOperand.ofBits_bits, ne_eq,
    not_true_eq_false, if_false]
  cases decodeLiteral z.bytes bs <;> rfl

end

end Sys2Proof
end

section
/-! The statements about the bytecode's encoding: the bytes of a decodable instruction give it back,
and bytes that decode are those of a decodable instruction (spec/30_encoding.md R71, R87, R89,
R91). -/

namespace Sys2Proof

/-- A mapped reading that succeeds is a reading that succeeds, mapped. -/
theorem map_eq_ok {ε α β : Type} {f : α → β} {x : Except ε α} {y : β}
    (h : x.map f = .ok y) : ∃ a, x = .ok a ∧ f a = y := by
  cases x with
  | error e => cases h
  | ok a => cases h; exact ⟨a, rfl, rfl⟩

/-- What the constructors of the binary family share: which forms their bytes determine, the format,
and the place of the symbol (R186). -/
theorem binaryForm_spec {opc : Opcode}
    {mk : Option Size → Option RegOperand → Option Operand → Instr} (h : binaryForm opc = some mk)
    (c : Config) (resolve : SymName → Option Nat) (s : Option Size) (o1 : Option RegOperand)
    (o2 : Option Operand) :
    (mk s o1 o2).decodable = binaryDecodable s o1 o2 ∧
      encodeBytecode c resolve (mk s o1 o2) = some (encodeBinary resolve opc s o1 o2) ∧
      (mk s o1 o2).symbol? = opSymbol o2 := by
  cases opc <;> cases h <;> exact ⟨rfl, rfl, rfl⟩

/-! ## From the instruction to its bytes and back -/

/-- The bytes of the instruction, if they determine it, give it back and leave what follows. -/
def ReadsBack (i : Instr) : Prop :=
  i.decodable = true → ∀ (c : Config) (resolve : SymName → Option Nat) (rest : List Byte),
    ∃ bs, encodeBytecode c resolve i = some bs ∧
      decodeBytecode (symInfoFor resolve i) (bs ++ rest) = .ok (i, rest)

theorem readsBack_jmp (cond : Option Cond) (o2 : Option Operand) : ReadsBack (.jmp cond o2) := by
  intro hdec _ resolve rest
  refine ⟨encodeJmp resolve cond o2, rfl, ?_⟩
  match cond, o2, hdec with
  | some c, some (.register r), _ =>
    show decodeBytecode _ (formatByte0 .jmp 0 (Kind.code .register) ::
      (c.code ++ r ++ (0 : BitVec 1)) :: rest) = _
    rw [decodeBytecode_jmp]
    exact decodeJmp_reg _ c rest (.inl rfl) r
  | some c, some (.indirect r), _ =>
    show decodeBytecode _ (formatByte0 .jmp 0 (Kind.code .indirect) ::
      (c.code ++ r ++ (0 : BitVec 1)) :: rest) = _
    rw [decodeBytecode_jmp]
    exact decodeJmp_reg _ c rest (.inr rfl) r
  | some c, some (.symbol n), _ =>
    show decodeBytecode _ (formatByte0 .jmp 0 (Kind.code .symbol) ::
      (c.code ++ (0 : BitVec 4)) :: (symbolPayload resolve n ++ rest)) = _
    rw [decodeBytecode_jmp, decodeJmp_symbol, decodeSymbol_symbolPayload rfl]
    rfl
  | some c, some (.literal v), hdec =>
    obtain ⟨hnv, hfits⟩ := Bool.and_eq_true_iff.mp hdec
    show decodeBytecode _ (formatByte0 .jmp 0 (Kind.code .literal) ::
      (c.code ++ (0 : BitVec 4)) :: (leBytes 4 v ++ rest)) = _
    rw [decodeBytecode_jmp, decodeJmp_literal _ _ (of_decide_eq_true hnv),
      decodeLiteral_leBytes (of_decide_eq_true hfits)]
    rfl

theorem readsBack_call (o2 : Option Operand) : ReadsBack (.call o2) := by
  intro hdec _ resolve rest
  refine ⟨encodeCall resolve o2, rfl, ?_⟩
  match o2, hdec with
  | some (.register r), _ =>
    show decodeBytecode _ (formatByte0 .call 0 (Kind.code .register) ::
      (r ++ (0 : BitVec 5)) :: rest) = _
    rw [decodeBytecode_call]
    exact decodeCall_reg _ rest (.inl rfl) r
  | some (.indirect r), _ =>
    show decodeBytecode _ (formatByte0 .call 0 (Kind.code .indirect) ::
      (r ++ (0 : BitVec 5)) :: rest) = _
    rw [decodeBytecode_call]
    exact decodeCall_reg _ rest (.inr rfl) r
  | some (.symbol n), _ =>
    show decodeBytecode _ (formatByte0 .call 0 (Kind.code .symbol) ::
      (symbolPayload resolve n ++ rest)) = _
    rw [decodeBytecode_call, decodeCall_symbol, decodeSymbol_symbolPayload rfl]
    rfl

theorem readsBack_nop : ReadsBack .nop := by
  intro _ _ _ rest
  have hbyte0 : (0x06 : Byte) = formatByte0 .jmp 0 (Kind.code .literal) := by decide
  refine ⟨[0x06, 0x00, 0x00], rfl, ?_⟩
  rw [List.cons_append, hbyte0, decodeBytecode_jmp]
  exact decodeJmp_nv.mpr ⟨rfl, rfl⟩

theorem readsBack_not (s : Option Size) (o1 : Option RegOperand) : ReadsBack (.not s o1) := by
  intro hdec _ resolve rest
  refine ⟨encodeNot s o1, rfl, ?_⟩
  match s, o1, hdec with
  | some z, some q, _ =>
    exact (decodeBytecode_not _ q.kindBit .register _).trans (decodeNot_register z q rest)

theorem readsBack_binary {opc : Opcode}
    {mk : Option Size → Option RegOperand → Option Operand → Instr} (h : binaryForm opc = some mk)
    (s : Option Size) (o1 : Option RegOperand) (o2 : Option Operand) : ReadsBack (mk s o1 o2) := by
  intro hdec c resolve rest
  obtain ⟨hdecodable, henc, hsym⟩ := binaryForm_spec h c resolve s o1 o2
  rw [hdecodable] at hdec
  refine ⟨_, henc, ?_⟩
  match s, o1, o2, hdec with
  | some z, some d, some (.register r), _ =>
    show decodeBytecode _ (formatByte0 opc d.kindBit (Kind.code .register) ::
      (z.code ++ d.reg ++ r) :: rest) = _
    rw [decodeBytecode_binary _ _ _ _ h]
    exact decodeBinary_reg mk _ z d rest (.inl rfl) r
  | some z, some d, some (.indirect r), _ =>
    show decodeBytecode _ (formatByte0 opc d.kindBit (Kind.code .indirect) ::
      (z.code ++ d.reg ++ r) :: rest) = _
    rw [decodeBytecode_binary _ _ _ _ h]
    exact decodeBinary_reg mk _ z d rest (.inr rfl) r
  | some z, some d, some (.symbol n), _ =>
    show decodeBytecode _ (formatByte0 opc d.kindBit (Kind.code .symbol) ::
      (z.code ++ d.reg ++ (0 : BitVec 3)) :: (symbolPayload resolve n ++ rest)) = _
    rw [decodeBytecode_binary _ _ _ _ h, decodeBinary_symbol, decodeSymbol_symbolPayload hsym]
    rfl
  | some z, some d, some (.literal v), hdec =>
    show decodeBytecode _ (formatByte0 opc d.kindBit (Kind.code .literal) ::
      (z.code ++ d.reg ++ (0 : BitVec 3)) :: (leBytes z.bytes v ++ rest)) = _
    rw [decodeBytecode_binary _ _ _ _ h, decodeBinary_literal,
      decodeLiteral_leBytes (of_decide_eq_true hdec)]
    rfl

theorem readsBack (i : Instr) : ReadsBack i := by
  cases i with
  | jmp cond o2 => exact readsBack_jmp cond o2
  | call o2 => exact readsBack_call o2
  | nop => exact readsBack_nop
  | not s o1 => exact readsBack_not s o1
  | add => exact readsBack_binary (opc := .add) rfl _ _ _
  | sub => exact readsBack_binary (opc := .sub) rfl _ _ _
  | mul => exact readsBack_binary (opc := .mul) rfl _ _ _
  | div => exact readsBack_binary (opc := .div) rfl _ _ _
  | cmp => exact readsBack_binary (opc := .cmp) rfl _ _ _
  | tst => exact readsBack_binary (opc := .tst) rfl _ _ _
  | and => exact readsBack_binary (opc := .and) rfl _ _ _
  | or => exact readsBack_binary (opc := .or) rfl _ _ _
  | xor => exact readsBack_binary (opc := .xor) rfl _ _ _
  | lsl => exact readsBack_binary (opc := .lsl) rfl _ _ _
  | lsr => exact readsBack_binary (opc := .lsr) rfl _ _ _
  | mov => exact readsBack_binary (opc := .mov) rfl _ _ _
  | _ => exact nofun -- RET and the commands: no bytes determine them

/-! ## From the bytes to their instruction and back -/

/-- The stream is the encoding of a decodable instruction, its symbol external, and what follows. -/
def BeginsWith (i : Instr) (rest bytes : List Byte) : Prop :=
  i.decodable = true ∧
    ∀ c : Config, ∃ bs, encodeBytecode c (fun _ => none) i = some bs ∧ bytes = bs ++ rest

section
variable {sym : Option SymInfo} {k : Kind} {i : Instr} {bs rest : List Byte}

theorem beginsWith_of_decodeJmp (hsym : ∀ n, sym ≠ some (.localLabel n))
    (h : decodeJmp sym k bs = .ok (i, rest)) :
    BeginsWith i rest (formatByte0 .jmp 0 k.code :: bs) := by
  match k, bs, h with
  | .register, t :: bs, h =>
    obtain ⟨hpad, -⟩ := guard_ok h
    obtain ⟨c, r, rfl⟩ := exists_condReg (not_not.mp hpad)
    cases (decodeJmp_reg sym c bs (.inl rfl) r).symm.trans h
    exact ⟨rfl, fun _ => ⟨_, rfl, rfl⟩⟩
  | .indirect, t :: bs, h =>
    obtain ⟨hpad, -⟩ := guard_ok h
    obtain ⟨c, r, rfl⟩ := exists_condReg (not_not.mp hpad)
    cases (decodeJmp_reg sym c bs (.inr rfl) r).symm.trans h
    exact ⟨rfl, fun _ => ⟨_, rfl, rfl⟩⟩
  | .symbol, t :: bs, h =>
    obtain ⟨hpad, -⟩ := guard_ok h
    obtain ⟨c, rfl⟩ := exists_condOnly (not_not.mp hpad)
    obtain ⟨⟨o, rest⟩, hpay, heq⟩ := map_eq_ok ((decodeJmp_symbol sym c bs).symm.trans h)
    obtain ⟨n, rfl, rfl⟩ := decodeSymbol_ok hsym hpay
    cases heq
    exact ⟨rfl, fun _ => ⟨_, rfl, rfl⟩⟩
  | .literal, t :: bs, h =>
    obtain ⟨hpad, -⟩ := guard_ok h
    obtain ⟨c, rfl⟩ := exists_condOnly (not_not.mp hpad)
    by_cases hnv : c = .nv
    · subst hnv
      obtain ⟨rfl, rfl⟩ := decodeJmp_nv.mp h
      exact ⟨rfl, fun _ => ⟨_, rfl, rfl⟩⟩
    · obtain ⟨⟨o, rest⟩, hpay, heq⟩ :=
        map_eq_ok ((decodeJmp_literal sym bs hnv).symm.trans h)
      obtain ⟨v, rfl, hv, rfl⟩ := decodeLiteral_ok hpay
      cases heq
      exact ⟨Bool.and_eq_true_iff.mpr ⟨decide_eq_true hnv, decide_eq_true hv⟩,
        fun _ => ⟨_, rfl, rfl⟩⟩

theorem beginsWith_of_decodeCall (hsym : ∀ n, sym ≠ some (.localLabel n))
    (h : decodeCall sym k bs = .ok (i, rest)) :
    BeginsWith i rest (formatByte0 .call 0 k.code :: bs) := by
  match k, bs, h with
  | .register, t :: bs, h =>
    obtain ⟨hpad, -⟩ := guard_ok h
    obtain ⟨r, rfl⟩ := exists_callReg (not_not.mp hpad)
    cases (decodeCall_reg sym bs (.inl rfl) r).symm.trans h
    exact ⟨rfl, fun _ => ⟨_, rfl, rfl⟩⟩
  | .indirect, t :: bs, h =>
    obtain ⟨hpad, -⟩ := guard_ok h
    obtain ⟨r, rfl⟩ := exists_callReg (not_not.mp hpad)
    cases (decodeCall_reg sym bs (.inr rfl) r).symm.trans h
    exact ⟨rfl, fun _ => ⟨_, rfl, rfl⟩⟩
  | .symbol, bs, h =>
    obtain ⟨⟨o, rest⟩, hpay, heq⟩ := map_eq_ok ((decodeCall_symbol sym bs).symm.trans h)
    obtain ⟨n, rfl, rfl⟩ := decodeSymbol_ok hsym hpay
    cases heq
    exact ⟨rfl, fun _ => ⟨_, rfl, rfl⟩⟩

theorem beginsWith_of_decodeNot {a : BitVec 1} (h : decodeNot a k bs = .ok (i, rest)) :
    BeginsWith i rest (formatByte0 .not a k.code :: bs) := by
  match bs, h with
  | [], h =>
    rw [decodeNot] at h
    split at h <;> cases h
  | t :: bs, h =>
    obtain ⟨hk, hchecked⟩ := guard_ok h
    obtain ⟨hpad, -⟩ := guard_ok hchecked
    obtain rfl : k = .register := not_not.mp hk
    obtain ⟨z, q, rfl, ht⟩ := exists_sizeReg t a
    rw [not_not.mp hpad] at ht
    subst ht
    cases (decodeNot_register z q bs).symm.trans h
    exact ⟨rfl, fun _ => ⟨_, rfl, rfl⟩⟩

/-- In a binary form the tail byte has no padding but below a payload. -/
theorem beginsWith_of_decodeBinary {opc : Opcode}
    {mk : Option Size → Option RegOperand → Option Operand → Instr}
    (hform : binaryForm opc = some mk) (hsym : ∀ n, sym ≠ some (.localLabel n)) {a : BitVec 1}
    (h : decodeBinary mk sym a k bs = .ok (i, rest)) :
    BeginsWith i rest (formatByte0 opc a k.code :: bs) := by
  have encodes {z : Size} {d : RegOperand} {o : Operand} {rest : List Byte}
      (hfits : o.fits z.bytes = true) : BeginsWith (mk (some z) (some d) (some o)) rest
        (encodeBinary (fun _ => none) opc (some z) (some d) (some o) ++ rest) := by
    have hspec (c : Config) := binaryForm_spec hform c (fun _ => none) (some z) (some d) (some o)
    refine ⟨?_, fun c => ?_⟩
    · obtain ⟨hdec, -, -⟩ := hspec Config.default
      exact hdec.trans hfits
    · obtain ⟨-, henc, -⟩ := hspec c
      exact ⟨_, henc, rfl⟩
  match bs, h with
  | t :: bs, h =>
    obtain ⟨z, d, rfl, ht⟩ := exists_sizeReg t a
    match k, h with
    | .register, h =>
      rw [ht] at h ⊢
      cases (decodeBinary_reg mk sym z d bs (.inl rfl) _).symm.trans h
      exact encodes rfl
    | .indirect, h =>
      rw [ht] at h ⊢
      cases (decodeBinary_reg mk sym z d bs (.inr rfl) _).symm.trans h
      exact encodes rfl
    | .symbol, h =>
      obtain ⟨hpad, -⟩ := guard_ok h
      rw [not_not.mp hpad] at ht
      subst ht
      obtain ⟨⟨o, rest⟩, hpay, heq⟩ :=
        map_eq_ok ((decodeBinary_symbol mk sym z d bs).symm.trans h)
      obtain ⟨n, rfl, rfl⟩ := decodeSymbol_ok hsym hpay
      cases heq
      exact encodes rfl
    | .literal, h =>
      obtain ⟨hpad, -⟩ := guard_ok h
      rw [not_not.mp hpad] at ht
      subst ht
      obtain ⟨⟨o, rest⟩, hpay, heq⟩ :=
        map_eq_ok ((decodeBinary_literal mk sym z d bs).symm.trans h)
      obtain ⟨v, rfl, hv, rfl⟩ := decodeLiteral_ok hpay
      cases heq
      exact encodes (decide_eq_true hv)

end

theorem beginsWith_of_decodeBytecode {sym : Option SymInfo} {i : Instr} {bytes rest : List Byte}
    (hsym : ∀ n, sym ≠ some (.localLabel n)) (h : decodeBytecode sym bytes = .ok (i, rest)) :
    BeginsWith i rest bytes := by
  match bytes, h with
  | b :: bs, h =>
    obtain ⟨hbit, -⟩ := guard_ok h
    obtain ⟨opc, a, k, rfl⟩ := exists_formatByte0 (not_not.mp hbit)
    cases opc
    case jmp =>
      obtain rfl := op1Kind_of_decodeBytecode _ _ _ _ (.inl rfl) h
      rw [decodeBytecode_jmp] at h
      exact beginsWith_of_decodeJmp hsym h
    case call =>
      obtain rfl := op1Kind_of_decodeBytecode _ _ _ _ (.inr rfl) h
      rw [decodeBytecode_call] at h
      exact beginsWith_of_decodeCall hsym h
    case ret =>
      rw [decodeBytecode_ret] at h
      cases h
    case not =>
      rw [decodeBytecode_not] at h
      exact beginsWith_of_decodeNot h
    all_goals
      rw [decodeBytecode_binary _ _ _ _ rfl] at h
      exact beginsWith_of_decodeBinary rfl hsym h

end Sys2Proof

namespace Sys2Proof.Machine

/-- Settles O52: the reader inverts the format table, one form at a time. -/
theorem bytecodeDecodeEncode : Obligations.BytecodeDecodeEncode := by
  intro c resolve i bs rest hdec henc
  obtain ⟨bs', henc', hread⟩ := readsBack i hdec c resolve rest
  cases henc.symm.trans henc'
  exact hread

/-- Settles O53: each decoder accepts the bytes of the format table alone. -/
theorem bytecodeEncodeDecode : Obligations.BytecodeEncodeDecode := fun c _ _ _ _ hsym h =>
  have ⟨hdec, hbytes⟩ := beginsWith_of_decodeBytecode hsym h
  ⟨hdec, hbytes c⟩

/-- Settles O56: the words are the encodings of their instructions, which both readers give back. -/
theorem specWordsDecode : Obligations.SpecWordsDecode := by
  have bytecode (i : Instr) (bs : List Byte) (hdec : i.decodable = true)
      (henc : encodeBytecode Config.default (fun _ => none) i = some bs) :=
    bytecodeDecodeEncode Config.default (fun _ => none) i bs [] hdec henc
  have command (i : Instr) (bs : List Beat) (hwf : i.wf Config.default = true)
      (henc : encodeCommand Config.default i = some bs) :=
    commandDecodeEncode Config.default i bs [] hwf henc
  exact ⟨bytecode (.jmp (some .zr) (some (.indirect 2))) [0x02, 0x94] rfl (by decide),
    bytecode (.add (some .word) (some (.register 1)) (some (.register 2))) [0x10, 0x8A] rfl
      (by decide),
    bytecode (.add (some .byte) (some (.indirect 7)) (some (.indirect 7))) [0x1A, 0x3F] rfl
      (by decide),
    command (.addInstr .mov) [.word 0x2000000D] rfl (by decide),
    command (.setOp2 (.indirect 1)) [.word 0x60000011] rfl (by decide)⟩

end Sys2Proof.Machine
end

section
/-! The rules of the builder commands (spec/40_builder_commands.md R111 to R124): what each answers when
its checks pass, what it answers when they fail, and that the write of one setting command is not seen
by the check of another. -/

namespace Sys2Proof.Machine

/-! ## The legality table (R112) -/

theorem allowsCondition_iff {opc : Opcode} : allowsCondition opc = true ↔ opc = .jmp := by
  cases opc <;> decide

theorem allowsSize_iff {opc : Opcode} :
    allowsSize opc = true ↔ opc ∈ Opcode.not :: binaryOpcodes := by
  cases opc <;> decide

/-- The columns of the table for the size and op1 are the same. -/
theorem allowsOp1_eq_allowsSize (opc : Opcode) : allowsOp1 opc = allowsSize opc := by
  cases opc <;> rfl

theorem mem_kindsOp2_iff {opc : Opcode} {k : Kind} :
    k ∈ kindsOp2 opc ↔ opc ∈ Opcode.jmp :: binaryOpcodes ∨ opc = .call ∧ k ≠ .literal := by
  cases opc <;> cases k <;> decide

/-- An opcode with a kind of op2 allows an op2. -/
theorem allowsOp2_of_mem_kindsOp2 {opc : Opcode} {k : Kind} (h : k ∈ kindsOp2 opc) :
    allowsOp2 opc = true := by
  cases opc with
  | not | ret => cases h
  | _ => rfl

theorem nameTooLong_eq_false {c : Config} {o : Operand} :
    nameTooLong c o = false ↔ ∀ n, o = .symbol n → n.length ≤ c.nameMax := by
  cases o <;> simp [nameTooLong]

/-! ## The checks of a setting command (R117 to R121) -/

theorem setCondIn_of_unset {r : Record} (h : r.cond = none) (cond : Cond) :
    setCondIn cond r =
      if r.opc = .jmp then .ok { r with cond := some cond } else .error .invalidOperand := by
  simp only [← allowsCondition_iff]
  cases ha : allowsCondition r.opc <;> simp [setCondIn, ha, h]

theorem setSizeIn_of_unset {r : Record} (h : r.size = none) (size : Size) :
    setSizeIn size r =
      if r.opc ∈ Opcode.not :: binaryOpcodes then .ok { r with size := some size }
      else .error .invalidOperand := by
  simp only [← allowsSize_iff]
  cases ha : allowsSize r.opc <;> simp [setSizeIn, ha, h]

theorem setOp1In_of_unset {r : Record} (h : r.op1 = none) {o : Operand} {o1 : RegOperand}
    (ho : asOp1 o = some o1) :
    setOp1In o r =
      if r.opc ∈ Opcode.not :: binaryOpcodes then .ok { r with op1 := some o1 }
      else .error .invalidOperand := by
  simp only [← allowsSize_iff, ← allowsOp1_eq_allowsSize]
  cases ha : allowsOp1 r.opc <;> simp [setOp1In, ho, ha, h]

theorem setOp2In_of_unset {c : Config} {r : Record} (h : r.op2 = none) {o : Operand}
    (hname : nameTooLong c o = false) :
    setOp2In c o r =
      if o.kind ∈ kindsOp2 r.opc then .ok { r with op2 := some o }
      else .error .invalidOperand := by
  by_cases hk : o.kind ∈ kindsOp2 r.opc
  · simp [setOp2In, allowsOp2_of_mem_kindsOp2 hk, hk, h, hname]
  · simp [setOp2In, hk]

theorem setCondIn_of_set {r : Record} (h : r.cond.isSome) (cond : Cond) :
    setCondIn cond r = .error .invalidOperand := by
  simp [setCondIn, h]

theorem setSizeIn_of_set {r : Record} (h : r.size.isSome) (size : Size) :
    setSizeIn size r = .error .invalidOperand := by
  simp [setSizeIn, h]

theorem setOp1In_of_set {r : Record} (h : r.op1.isSome) (o : Operand) :
    setOp1In o r = .error .invalidOperand := by
  cases ho : asOp1 o <;> simp [setOp1In, ho, h]

/-- The name's length is checked after the field, so that a set op2 hides it (R121). -/
theorem setOp2In_of_set {r : Record} (h : r.op2.isSome) (c : Config) (o : Operand) :
    setOp2In c o r = .error .invalidOperand := by
  simp [setOp2In, h]

/-! ## The setting commands by field -/

theorem exists_settingCheck {i : Instr} (h : (settingField i).isSome) (c : Config) :
    ∃ f, settingCheck c i = some f := by
  cases i with
  | setCond | setSize | setOp1 | setOp2 => exact ⟨_, rfl⟩
  | _ => cases h

/-- A check that fails gives an error of the legality rules or of the capacity (R201, R205). -/
theorem settingCheck_error {c : Config} {i : Instr} {f : Record → Except ErrCode Record}
    {r : Record} {e : ErrCode} (hi : settingCheck c i = some f) (hf : f r = .error e) :
    e = .invalidOperand ∨ e = .capacityExceeded := by
  cases i with
  | setCond _ =>
    cases hi
    unfold setCondIn at hf
    split_ifs at hf <;> cases hf <;> simp
  | setSize _ =>
    cases hi
    unfold setSizeIn at hf
    split_ifs at hf <;> cases hf <;> simp
  | setOp1 o =>
    cases hi
    unfold setOp1In at hf
    split at hf
    · cases hf; simp
    · split_ifs at hf <;> cases hf <;> simp
  | setOp2 _ =>
    cases hi
    unfold setOp2In at hf
    split_ifs at hf <;> cases hf <;> simp
  | _ => cases hi

/-- A field that one setting command wrote refuses the next one (R201 causes 2, 4, 7, 10). -/
theorem settingCheck_same_field {c : Config} {i j : Instr} {f g : Record → Except ErrCode Record}
    {r r' : Record} (hi : settingCheck c i = some f) (hj : settingCheck c j = some g)
    (hfield : settingField j = settingField i) (hf : f r = .ok r') :
    g r' = .error .invalidOperand := by
  cases i with
  | setCond _ =>
    cases hi
    obtain ⟨-, -, rfl⟩ := setCondIn_ok hf
    cases j <;> cases hfield
    cases hj
    exact setCondIn_of_set rfl _
  | setSize _ =>
    cases hi
    obtain ⟨-, -, rfl⟩ := setSizeIn_ok hf
    cases j <;> cases hfield
    cases hj
    exact setSizeIn_of_set rfl _
  | setOp1 _ =>
    cases hi
    obtain ⟨o1, -, -, -, rfl⟩ := setOp1In_ok hf
    cases j <;> cases hfield
    cases hj
    exact setOp1In_of_set rfl _
  | setOp2 _ =>
    cases hi
    obtain ⟨-, -, -, rfl⟩ := setOp2In_ok hf
    cases j <;> cases hfield
    cases hj
    exact setOp2In_of_set rfl _ _
  | _ => cases hi

/-- The records of ADD_NOP and ADD_RET refuse every setting: their opcodes allow no more fields than
are set (R123, R124). -/
theorem settingCheck_pseudoRecord {c : Config} {i j : Instr} {f : Record → Except ErrCode Record}
    {r : Record} (hi : i = .addNop ∨ i = .addRet) (hr : appendedRecord i = some r)
    (hj : settingCheck c j = some f) : f r = .error .invalidOperand := by
  obtain rfl | rfl := hi <;> cases hr
  · cases j with
    | setCond _ | setSize _ => cases hj; rfl
    | setOp1 o => cases hj; cases o <;> rfl
    | setOp2 o => cases hj; exact setOp2In_of_set rfl c o
    | _ => cases hj
  · cases j with
    | setCond _ | setSize _ | setOp2 _ => cases hj; rfl
    | setOp1 o => cases hj; cases o <;> rfl
    | _ => cases hj

/-! ## The write of a setting command -/

/-- What a setting command writes in the record once its checks have passed. -/
def settingWrite : Instr → Record → Record
  | .setCond cond, r => { r with cond := some cond }
  | .setSize size, r => { r with size := some size }
  | .setOp1 o, r => { r with op1 := asOp1 o }
  | .setOp2 o, r => { r with op2 := some o }
  | _, r => r

theorem settingCheck_ok {c : Config} {i : Instr} {f : Record → Except ErrCode Record}
    {r r' : Record} (hi : settingCheck c i = some f) (hf : f r = .ok r') :
    r' = settingWrite i r := by
  cases i with
  | setCond _ => cases hi; obtain ⟨-, -, rfl⟩ := setCondIn_ok hf; rfl
  | setSize _ => cases hi; obtain ⟨-, -, rfl⟩ := setSizeIn_ok hf; rfl
  | setOp1 _ =>
    cases hi
    obtain ⟨o1, ho, -, -, rfl⟩ := setOp1In_ok hf
    rw [← ho]
    rfl
  | setOp2 _ => cases hi; obtain ⟨-, -, -, rfl⟩ := setOp2In_ok hf; rfl
  | _ => cases hi

/-! A check commutes with the write of another field: it reads the opcode and its own field alone. -/

theorem setCondIn_settingWrite {j : Instr} (hj : settingField j ≠ some 0) (cond : Cond)
    (r : Record) : setCondIn cond (settingWrite j r) = (setCondIn cond r).map (settingWrite j) := by
  simp only [setCondIn, apply_ite (Except.map _)]
  cases j with
  | setCond _ => exact absurd rfl hj
  | _ => rfl

theorem setSizeIn_settingWrite {j : Instr} (hj : settingField j ≠ some 1) (size : Size)
    (r : Record) : setSizeIn size (settingWrite j r) = (setSizeIn size r).map (settingWrite j) := by
  simp only [setSizeIn, apply_ite (Except.map _)]
  cases j with
  | setSize _ => exact absurd rfl hj
  | _ => rfl

theorem setOp1In_settingWrite {j : Instr} (hj : settingField j ≠ some 2) (o : Operand)
    (r : Record) : setOp1In o (settingWrite j r) = (setOp1In o r).map (settingWrite j) := by
  unfold setOp1In
  cases asOp1 o with
  | none => rfl
  | some o1 =>
    simp only [apply_ite (Except.map _)]
    cases j with
    | setOp1 _ => exact absurd rfl hj
    | _ => rfl

theorem setOp2In_settingWrite {j : Instr} (hj : settingField j ≠ some 3) (c : Config) (o : Operand)
    (r : Record) : setOp2In c o (settingWrite j r) = (setOp2In c o r).map (settingWrite j) := by
  simp only [setOp2In, apply_ite (Except.map _)]
  cases j with
  | setOp2 _ => exact absurd rfl hj
  | _ => rfl

theorem settingCheck_settingWrite {c : Config} {i j : Instr} {f : Record → Except ErrCode Record}
    (hi : settingCheck c i = some f) (hfield : settingField i ≠ settingField j) (r : Record) :
    f (settingWrite j r) = (f r).map (settingWrite j) := by
  cases i with
  | setCond cond => cases hi; exact setCondIn_settingWrite hfield.symm cond r
  | setSize size => cases hi; exact setSizeIn_settingWrite hfield.symm size r
  | setOp1 o => cases hi; exact setOp1In_settingWrite hfield.symm o r
  | setOp2 o => cases hi; exact setOp2In_settingWrite hfield.symm c o r
  | _ => cases hi

/-! ## Setting on the record under construction (R111) -/

/-- `r` is under construction after the finished records `rs`: BUILD, `CUR_V` = 1 and `I[NI-1] = r`. -/
structure Constructing (s : State) (rs : List Record) (r : Record) : Prop where
  phase : s.phase = .build
  curV : s.curV = true
  instrs : s.instrs = rs ++ [r]

/-- The error code a check's result is answered with (R98). -/
def checkCode : Except ErrCode Record → ErrCode
  | .error e => e
  | .ok _ => .ok

/-- The record after a check: its write, or the old record. -/
def checkRecord (r : Record) : Except ErrCode Record → Record
  | .error _ => r
  | .ok r' => r'

theorem stickyErr_ok (e : ErrCode) : stickyErr e .ok = e := by
  unfold stickyErr
  split
  · next h => exact h.symm
  · rfl

/-- A setting command on the record under construction, whether its check passes or fails. -/
theorem Constructing.exec_setting {s : State} {rs : List Record} {r : Record}
    (h : Constructing s rs r) {i : Instr} {f : Record → Except ErrCode Record}
    (hi : settingCheck s.cfg i = some f) :
    exec i s =
      .next { s with
        instrs := rs ++ [checkRecord r (f r)]
        lastErr := checkCode (f r)
        firstErr := stickyErr s.firstErr (checkCode (f r))
        resp := some ⟨checkCode (f r), 0⟩ } := by
  rw [exec_of_settingCheck hi, setCurrent_last h.phase h.curV h.instrs]
  cases f r with
  | error e => simp only [checkRecord, checkCode, ← h.instrs]; rfl
  | ok r' => simp only [checkRecord, checkCode, stickyErr_ok]; rfl

theorem Constructing.after_setting {s t : State} {rs : List Record} {r : Record}
    (h : Constructing s rs r) {i : Instr} {f : Record → Except ErrCode Record}
    (hi : settingCheck s.cfg i = some f) (ht : exec i s = .next t) :
    Constructing t rs (checkRecord r (f r)) := by
  cases (h.exec_setting hi).symm.trans ht
  exact ⟨h.phase, h.curV, rfl⟩

theorem Constructing.exec_setting_ok {s : State} {rs : List Record} {r r' : Record}
    (h : Constructing s rs r) {i : Instr} {f : Record → Except ErrCode Record}
    (hi : settingCheck s.cfg i = some f) (hf : f r = .ok r') :
    exec i s =
      .next { s with instrs := rs ++ [r'], lastErr := .ok, resp := some ⟨.ok, 0⟩ } := by
  rw [h.exec_setting hi, hf]
  simp only [checkRecord, checkCode, stickyErr_ok]

theorem Constructing.exec_setting_error {s : State} {rs : List Record} {r : Record} {e : ErrCode}
    (h : Constructing s rs r) {i : Instr} {f : Record → Except ErrCode Record}
    (hi : settingCheck s.cfg i = some f) (hf : f r = .error e) :
    exec i s = .next (refusedWith s e) := by
  rw [h.exec_setting hi, hf]
  simp only [checkRecord, checkCode, ← h.instrs]
  rfl

theorem Constructing.errOf_setting {s : State} {rs : List Record} {r : Record}
    (h : Constructing s rs r) {i : Instr} {f : Record → Except ErrCode Record}
    (hi : settingCheck s.cfg i = some f) : errOf (exec i s) = some (checkCode (f r)) := by
  rw [h.exec_setting hi]
  rfl

/-- With nothing under construction a setting command is refused (R111). -/
theorem exec_setting_refused {s : State} (h : s.phase ≠ .build ∨ s.curV = false) {i : Instr}
    {f : Record → Except ErrCode Record} (hi : settingCheck s.cfg i = some f) :
    exec i s = .next (s.raise .invalidState) := by
  rw [exec_of_settingCheck hi, setCurrent]
  by_cases hp : s.phase = .build
  · have hc : s.curV = false := h.resolve_left (not_not.mpr hp)
    simp [hp, hc, raised]
  · simp [hp, raised]

/-- A setting command that answers finds a record under construction, or nothing is. -/
theorem constructing_or_refused {s t : State} {i : Instr} {f : Record → Except ErrCode Record}
    (hi : settingCheck s.cfg i = some f) (h : exec i s = .next t) :
    (∃ rs r, Constructing s rs r) ∨ (s.phase ≠ .build ∨ s.curV = false) := by
  rw [exec_of_settingCheck hi] at h
  obtain ⟨hidle, -⟩ | ⟨rs, r, hp, hc, hrs, -⟩ := setCurrent_next h
  · exact .inr hidle
  · exact .inl ⟨rs, r, hp, hc, hrs⟩

/-! ## Appending a record (R115, R123, R124) -/

theorem exec_append_ok {s : State} {i : Instr} {r : Record} (hi : appendedRecord i = some r)
    (hb : s.phase = .build) (hroom : s.ni ≠ s.cfg.nInstrMax) :
    exec i s =
      .next { s with
        instrs := s.instrs ++ [r]
        curV := true
        lastErr := .ok
        resp := some ⟨.ok, BitVec.ofNat 32 s.ni⟩ } := by
  rw [exec_of_appendedRecord hi, appendRecord, if_neg (not_not.mpr hb), if_neg hroom]
  rfl

/-- A command that appends and answers without an error leaves its record under construction. -/
theorem constructing_of_append {s t : State} {i : Instr} {r : Record}
    (hi : appendedRecord i = some r) (h : exec i s = .next t) (hok : t.lastErr = .ok) :
    Constructing t s.instrs r := by
  rw [exec_of_appendedRecord hi] at h
  obtain ⟨-, rfl⟩ | ⟨-, -, rfl⟩ | ⟨hb, -, rfl⟩ := appendRecord_next h
  · cases hok
  · cases hok
  · exact ⟨hb, rfl, rfl⟩

end Sys2Proof.Machine
end

section
/-! The obligations of the builder commands (spec/40_builder_commands.md). -/

namespace Sys2Proof.Machine

/-! ## One command where its checks pass -/

/-- Settles O2: RESET has no check. -/
theorem resetCommandGivesResetState : Obligations.ResetCommandGivesResetState := fun _ => rfl

/-- Settles O4: none of the four checks of R113 refuses. -/
theorem addLabelAppendsEntry : Obligations.AddLabelAppendsEntry := by
  intro s n hb hnew hlen hroom
  show execAddLabel n s = _
  rw [execAddLabel, if_neg (not_not.mpr hb), if_neg (by simp [hnew]), if_neg (Nat.not_lt.mpr hlen),
    if_neg hroom]
  rfl

/-- Settles O6: the record appended is the fresh one of the opcode. -/
theorem addInstrAppendsRecord : Obligations.AddInstrAppendsRecord :=
  fun _ _ hb hroom => exec_append_ok rfl hb hroom

/-- Settles O7: the record appended is the preset one of R123. -/
theorem addNopAppendsPresetJump : Obligations.AddNopAppendsPresetJump :=
  fun _ hb hroom => exec_append_ok rfl hb hroom

/-- Settles O8: the two commands append the same record. -/
theorem addRetIsAddInstrOfRet : Obligations.AddRetIsAddInstrOfRet :=
  ⟨fun _ => rfl, fun _ hb hroom => exec_append_ok rfl hb hroom⟩

/-- Settles O9: a JMP alone allows a condition. -/
theorem setCondWritesCondition : Obligations.SetCondWritesCondition := by
  intro s rs r c hb hc hrs hopc hunset
  refine Constructing.exec_setting_ok ⟨hb, hc, hrs⟩ rfl ?_
  rw [setCondIn_of_unset hunset, if_pos hopc]

/-- Settles O10: the unary and binary opcodes are those that allow a size. -/
theorem setSizeWritesSize : Obligations.SetSizeWritesSize := by
  intro s rs r z hb hc hrs hopc hunset
  refine Constructing.exec_setting_ok ⟨hb, hc, hrs⟩ rfl ?_
  rw [setSizeIn_of_unset hunset, if_pos hopc]

/-- Settles O11: both register-valued kinds are an op1. -/
theorem setOp1WritesRegisterOperand : Obligations.SetOp1WritesRegisterOperand := by
  intro s rs r q hb hc hrs hopc hunset
  have hset {o : Operand} {o1 : RegOperand} (ho : asOp1 o = some o1) :
      setOp1In o r = .ok { r with op1 := some o1 } := by
    rw [setOp1In_of_unset hunset ho, if_pos hopc]
  have hr : Constructing s rs r := ⟨hb, hc, hrs⟩
  exact ⟨hr.exec_setting_ok rfl (hset rfl), hr.exec_setting_ok rfl (hset rfl)⟩

/-- Settles O12: the opcode admits the operand's kind, and a name fits. -/
theorem setOp2WritesOperand : Obligations.SetOp2WritesOperand := by
  intro s rs r o hb hc hrs hunset hopc hname
  refine Constructing.exec_setting_ok ⟨hb, hc, hrs⟩ rfl ?_
  have hkind : o.kind ∈ kindsOp2 r.opc := by
    refine mem_kindsOp2_iff.mpr (hopc.imp_right fun ⟨hcall, hlit⟩ => ⟨hcall, ?_⟩)
    cases o with
    | literal v => exact absurd rfl (hlit v)
    | _ => nofun
  rw [setOp2In_of_unset hunset (nameTooLong_eq_false.mpr hname), if_pos hkind]

/-! ## Refusals -/

/-- Settles O15: the kind of the operand is checked before the record is looked at. -/
theorem op1SymbolOrLiteralRefused : Obligations.Op1SymbolOrLiteralRefused := by
  intro s rs r hb hc hrs
  have hr : Constructing s rs r := ⟨hb, hc, hrs⟩
  exact ⟨fun _ => hr.exec_setting_error rfl rfl, fun _ => hr.exec_setting_error rfl rfl⟩

theorem checkCode_ite (p : Prop) [Decidable p] (r : Record) (e : ErrCode) :
    checkCode (if p then .ok r else .error e) = if p then .ok else e := by
  split <;> rfl

/-- An op2 on a fresh record is decided by its kind alone. -/
theorem errOf_setOp2_fresh {s : State} {rs : List Record} {opc : Opcode} {o : Operand}
    (hr : Constructing s rs (newRecord opc)) (hname : nameTooLong s.cfg o = false) :
    errOf (exec (.setOp2 o) s) =
      some (if o.kind ∈ kindsOp2 opc then .ok else .invalidOperand) := by
  rw [hr.errOf_setting rfl, setOp2In_of_unset rfl hname, checkCode_ite]
  rfl

/-- Settles O13: no field is set, so the table alone decides. -/
theorem legalityTableDecidesFreshRecord : Obligations.LegalityTableDecidesFreshRecord := by
  intro s rs opc hb hc hrs
  have hr : Constructing s rs (newRecord opc) := ⟨hb, hc, hrs⟩
  have hop1 {o : Operand} {o1 : RegOperand} (ho : asOp1 o = some o1) :
      errOf (exec (.setOp1 o) s) =
        some (if opc ∈ Opcode.not :: binaryOpcodes then .ok else .invalidOperand) := by
    rw [hr.errOf_setting rfl, setOp1In_of_unset rfl ho, checkCode_ite]
    rfl
  have hop2 {o : Operand} (hname : nameTooLong s.cfg o = false) (hkind : o.kind ≠ .literal) :
      errOf (exec (.setOp2 o) s) =
        some (if opc ∈ Opcode.jmp :: .call :: binaryOpcodes then .ok else .invalidOperand) := by
    have hmem : o.kind ∈ kindsOp2 opc ↔ opc ∈ Opcode.jmp :: .call :: binaryOpcodes := by
      simp only [mem_kindsOp2_iff, List.mem_cons, and_iff_left hkind]
      tauto
    simp only [errOf_setOp2_fresh hr hname, hmem]
  refine ⟨fun c => ?cond, fun z => ?size, fun q => hop1 rfl, fun q => hop1 rfl,
    fun q => hop2 rfl nofun, fun q => hop2 rfl nofun, fun n hn => hop2 ?name nofun, fun v => ?lit⟩
  case cond =>
    rw [hr.errOf_setting rfl, setCondIn_of_unset rfl, checkCode_ite]
    rfl
  case size =>
    rw [hr.errOf_setting rfl, setSizeIn_of_unset rfl, checkCode_ite]
    rfl
  case name => simpa [nameTooLong] using hn
  case lit =>
    have hmem : Kind.literal ∈ kindsOp2 opc ↔ opc ∈ Opcode.jmp :: binaryOpcodes := by
      simp [mem_kindsOp2_iff]
    simp only [errOf_setOp2_fresh hr (o := .literal v) rfl, Operand.kind, hmem]

/-- Settles O14: a command that succeeds leaves its field set in the record under construction. -/
theorem secondSettingOfAFieldRefused : Obligations.SecondSettingOfAFieldRefused := by
  intro i j s t hi hfield h hresp
  obtain ⟨f, hf⟩ := exists_settingCheck hi s.cfg
  obtain ⟨g, hg⟩ := exists_settingCheck (hfield ▸ hi) s.cfg
  rw [exec_of_settingCheck hf] at h
  obtain ⟨-, rfl⟩ | ⟨rs, r, hb, hc, -, ⟨e, he, rfl⟩ | ⟨r', hr', rfl⟩⟩ := setCurrent_next h
  · cases hresp
  · obtain rfl | rfl := settingCheck_error hf he <;> cases hresp
  · have hr : Constructing (State.answer { s with instrs := rs ++ [r'] } 0) rs r' := ⟨hb, hc, rfl⟩
    exact hr.exec_setting_error hg (settingCheck_same_field hf hg hfield hr')

/-- Settles O16: the record of the pseudo-instruction is under construction and takes no setting. -/
theorem pseudoRecordsAreClosed : Obligations.PseudoRecordsAreClosed := by
  intro i j s t hi hj h _ hok
  obtain ⟨f, hf⟩ := exists_settingCheck hj t.cfg
  obtain ⟨r, hr⟩ : ∃ r, appendedRecord i = some r := by
    obtain rfl | rfl := hi <;> exact ⟨_, rfl⟩
  exact (constructing_of_append hr h hok).exec_setting_error hf (settingCheck_pseudoRecord hi hr hf)

theorem isCommand_of_builderCommand {i : Instr} (h : builderCommand i = true) :
    i.isCommand = true := by
  cases i with
  | addLabel | addInstr | addNop | addRet | setCond | setSize | setOp1 | setOp2 => rfl
  | _ => cases h

/-- Settles O19: of the effects of a builder command, only a refusal shows an error. -/
theorem builderFailureLeavesProgram : Obligations.BuilderFailureLeavesProgram := by
  intro i s t hi h herr
  cases exec_effect (isCommand_of_builderCommand hi) h with
  | refused => rfl
  | addLabel | append | set => exact absurd rfl herr
  | reset | assembled | passFailed | readOut | readReg => cases hi

/-! ## Two commands -/

/-- The check of one setting command answers alike before and after another field's setting. -/
theorem checkCode_checkRecord {c : Config} {i j : Instr} {f g : Record → Except ErrCode Record}
    (hi : settingCheck c i = some f) (hj : settingCheck c j = some g)
    (hfield : settingField i ≠ settingField j) (r : Record) :
    checkCode (f (checkRecord r (g r))) = checkCode (f r) := by
  cases hg : g r with
  | error e => rfl
  | ok r' =>
    rw [settingCheck_ok hj hg, checkRecord, settingCheck_settingWrite hi hfield]
    cases f r <;> rfl

/-- Two setting commands of different fields leave the same record in either order. -/
theorem checkRecord_comm {c : Config} {i j : Instr} {f g : Record → Except ErrCode Record}
    (hi : settingCheck c i = some f) (hj : settingCheck c j = some g)
    (hfield : settingField i ≠ settingField j) (r : Record) :
    checkRecord (checkRecord r (g r)) (f (checkRecord r (g r))) =
      checkRecord (checkRecord r (f r)) (g (checkRecord r (f r))) := by
  have hfw := settingCheck_settingWrite hi hfield r
  have hgw := settingCheck_settingWrite hj hfield.symm r
  cases hf : f r with
  | error e =>
    cases hg : g r with
    | error e' => simp only [checkRecord, hf, hg]
    | ok r' =>
      obtain rfl := settingCheck_ok hj hg
      simp only [checkRecord, hfw, hf, hg, Except.map]
  | ok r₁ =>
    obtain rfl := settingCheck_ok hi hf
    cases hg : g r with
    | error e' => simp only [checkRecord, hgw, hf, hg, Except.map]
    | ok r₂ =>
      obtain rfl := settingCheck_ok hj hg
      rw [hf] at hfw
      rw [hg] at hgw
      simp only [checkRecord, hfw, hgw, Except.map]
      exact settingCheck_ok hi hfw

/-- Settles O17: on a record under construction the codes and the record are those of either order, and
with none under construction both commands are refused. -/
theorem settingOrderIsFree : Obligations.SettingOrderIsFree := by
  intro i j s t u t' u' hi hj hfield ht hu ht' hu'
  obtain ⟨f, hf⟩ := exists_settingCheck hi s.cfg
  obtain ⟨g, hg⟩ := exists_settingCheck hj s.cfg
  obtain ⟨rs, r, hr⟩ | hidle := constructing_or_refused hf ht
  · have hrt := hr.after_setting hf ht
    have hrt' := hr.after_setting hg ht'
    cases (hr.exec_setting hf).symm.trans ht
    cases (hr.exec_setting hg).symm.trans ht'
    cases (hrt.exec_setting hg).symm.trans hu
    cases (hrt'.exec_setting hf).symm.trans hu'
    simp only [checkCode_checkRecord hf hg hfield, checkCode_checkRecord hg hf hfield.symm,
      checkRecord_comm hf hg hfield, and_self]
  · cases (exec_setting_refused hidle hf).symm.trans ht
    cases (exec_setting_refused hidle hg).symm.trans ht'
    cases (exec_setting_refused (s := s.raise .invalidState) hidle hg).symm.trans hu
    cases (exec_setting_refused (s := s.raise .invalidState) hidle hf).symm.trans hu'
    exact ⟨rfl, rfl, rfl⟩

/-! ## The program only grows -/

/-- Every record but the one under construction stays, and every label's name and index (R127). -/
structure ProgramExtends (s t : State) : Prop where
  finished : s.instrs.dropLast <+: t.instrs
  all : s.curV = false → s.instrs <+: t.instrs
  count : s.ni ≤ t.ni
  labels : s.labels.map labelKey <+: t.labels.map labelKey

/-- Records and labels at the end leave those that were there. -/
theorem ProgramExtends.of_prefix {s t : State} (hi : s.instrs <+: t.instrs)
    (hl : s.labels.map labelKey <+: t.labels.map labelKey) : ProgramExtends s t :=
  ⟨(List.dropLast_prefix _).trans hi, fun _ => hi, hi.length_le, hl⟩

theorem SameProgram.programExtends {s t : State} (h : SameProgram s t) : ProgramExtends s t :=
  .of_prefix (by rw [h.instrs]) (by rw [h.labelKeys])

/-- No effect but that of RESET takes anything from the program. -/
theorem CommandEffect.programExtends {i : Instr} {s t : State} (h : CommandEffect s i t)
    (hi : i ≠ .reset) : ProgramExtends s t := by
  cases h with
  | refused | readOut | readReg => exact .of_prefix (List.prefix_refl _) (List.prefix_refl _)
  | reset => exact absurd rfl hi
  | addLabel => exact .of_prefix (List.prefix_refl _) (by simp)
  | append => exact .of_prefix (List.prefix_append _ _) (List.prefix_refl _)
  | set _ _ hc hrs =>
    exact ⟨by simp [hrs], fun hc' => by simp [hc] at hc', by simp [State.ni, hrs],
      List.prefix_refl _⟩
  | assembled _ hp =>
    obtain ⟨-, v, -, -, hframe, rfl⟩ := assemblePass_ok hp
    exact SameProgram.programExtends ⟨hframe.cfg, hframe.instrs, hframe.labelKeys⟩
  | passFailed =>
    exact SameProgram.programExtends ⟨rfl, rfl, by simp [Function.comp_def, labelKey]⟩

/-- Settles O27: by the effect of the command, and RESET by its rule. -/
theorem programIsAppendOnly : Obligations.ProgramIsAppendOnly := by
  intro i s t hcmd h
  refine ⟨fun hi => ?_, ?_⟩
  · obtain ⟨hfinished, hall, hcount, hlabels⟩ := (exec_effect hcmd h).programExtends hi
    exact ⟨hfinished, hall, hcount, hlabels⟩
  · rintro rfl
    cases h
    exact ⟨rfl, rfl⟩

end Sys2Proof.Machine
end

section
/-! Why the emission of a record stops (spec/41_assemble.md R151 to R153, spec/60_exceptions.md
R205, R207, R212): with room it appends its bytes, and else the error names its cause. -/

namespace Sys2Proof.Machine

/-! ## Up to the payload of op2 -/

/-- The instruction byte and the fields before op2 (R141). -/
def emitHead (e : Record) (s : State) : Pass :=
  emitByte (instrByte e) s >>=
    putWhen (e.opc = .jmp) (condOrAl e.cond).code.toNat 4 >>=
    putWhen (allowsSize e.opc) (sizeOrWord e.size).code.toNat 2 >>=
    emitOp1 e

/-- Where op2 has a payload, it stands after the head and an alignment (R151). -/
theorem emitLowered_payload {e : Record} {payload : State → Pass}
    (h : ∀ t, emitOp2 e t = align t >>= payload) (s : State) :
    emitLowered e s = (emitHead e s >>= align) >>= payload >>= align := by
  have hop2 : emitOp2 e = fun t => align t >>= payload := funext h
  show emitHead e s >>= emitOp2 e >>= align = _
  simp only [hop2, bind_assoc]

theorem emitLowered_symbol {e : Record} {n : SymName} (h : e.op2 = some (.symbol n)) (s : State) :
    emitLowered e s = (emitHead e s >>= align) >>= emitSymbol n >>= align :=
  emitLowered_payload (fun _ => by simp only [emitOp2, h]) s

theorem emitLowered_literal {e : Record} {v : Nat} (h : e.op2 = some (.literal v)) (s : State) :
    emitLowered e s = (emitHead e s >>= align) >>= emitLiteral e.size v >>= align :=
  emitLowered_payload (fun _ => by simp only [emitOp2, h]) s

/-- With room for the bytes before the payload, they are emitted. -/
theorem emitHead_align_room {e : Record} {s : State}
    (hop1 : e.op1.isSome → allowsSize e.opc = true) (hscr : s.scr = 0) (hscrn : s.scrn = 0)
    (hroom : s.olen + headLen e ≤ s.cfg.outMax) :
    (emitHead e s >>= align) =
      .ok (s.appended (instrByte e :: flushed (headByte e) (headBits e)) []) := by
  have hhead := headBits_le_five hop1
  have hflush := flushed_length (headByte e) (n := headBits e) (by omega)
  unfold headLen at hroom
  rw [emitHead, emitHead_appended hop1 hscr hscrn (by omega), pass_ok_bind,
    align_withScratch (s := s.appended [instrByte e] []) hscr hscrn headByte_of_headBits_eq_zero
      (by rw [hflush, State.appended_olen, State.appended_cfg, List.length_singleton]; omega),
    State.appended_appended]
  rfl

/-- Without that room, the emission stops before the payload. -/
theorem emitHead_align_full {e : Record} {s : State}
    (hop1 : e.op1.isSome → allowsSize e.opc = true) (hscrn : s.scrn = 0)
    (holen : s.olen ≤ s.cfg.outMax) (hfull : s.cfg.outMax < s.olen + headLen e) :
    (emitHead e s >>= align) = .error (.raise .capacityExceeded) := by
  have hhead := headBits_le_five hop1
  have hpacks : PacksTo s (8 * (s.olen + headLen e)) (emitHead e s >>= align) :=
    (emitHead_packs e hscrn holen).aligned (by unfold headLen; omega)
  cases hemit : emitHead e s >>= align with
  | error x => rw [hpacks.stop x hemit]
  | ok t =>
    obtain ⟨hframe, hscratch, hroom, hpos⟩ := hpacks.ok t hemit
    rw [hframe.cfg] at hroom
    omega

/-- A local reference finds the queue full before its first byte (R152). -/
theorem emitLowered_queue_full {e : Record} {n : SymName} {s : State}
    (hop1 : e.op1.isSome → allowsSize e.opc = true) (hop2 : e.op2 = some (.symbol n))
    (hloc : (lookup s.labels n).isSome) (hscr : s.scr = 0) (hscrn : s.scrn = 0)
    (hroom : s.olen + headLen e ≤ s.cfg.outMax) (hfull : s.nf = s.cfg.nFixupMax) :
    emitLowered e s = .error (.raise .capacityExceeded) := by
  rw [emitLowered_symbol hop2, emitHead_align_room hop1 hscr hscrn hroom, pass_ok_bind, emitSymbol,
    State.appended_labels, if_pos hloc, emitPlaceholder, if_pos (by simpa using hfull),
    pass_error_bind]

/-- A literal beyond the ceiling stops before its first byte, whatever its size (R153). -/
theorem emitLowered_literal_wide {e : Record} {v : Nat} {s : State}
    (hop1 : e.op1.isSome → allowsSize e.opc = true) (hop2 : e.op2 = some (.literal v))
    (hv : 2 ^ 64 ≤ v) (hscr : s.scr = 0) (hscrn : s.scrn = 0)
    (hroom : s.olen + headLen e ≤ s.cfg.outMax) :
    emitLowered e s = .error (.raise .unsupportedEncoding) := by
  rw [emitLowered_literal hop2, emitHead_align_room hop1 hscr hscrn hroom, pass_ok_bind,
    emitLiteral, if_pos hv, pass_error_bind]

/-- A RET names no operand of its own (R112). -/
theorem recordOf_opc_ne_ret {i : Instr} {r : Record} (h : recordOf i = some r)
    (hop2 : r.op2.isSome) : r.opc ≠ .ret := by
  intro hret
  cases i <;> cases h <;> cases hret
  cases hop2

/-- Settles O36: the check of the queue comes before the placeholder. -/
theorem fullFixupQueueFailsPass : Obligations.FullFixupQueueFailsPass := by
  intro i r n s hr hop2 hloc hscr hscrn hroom hfull
  rw [exec_of_recordOf hr, emitInstr, emitRecord,
    lower_of_ne_ret (recordOf_opc_ne_ret hr (by rw [hop2]; rfl)),
    emitLowered_queue_full (recordOf_op1_allowsSize hr) hop2 hloc hscr hscrn hroom hfull]
  rfl

/-- Settles O37: the check of the ceiling comes before the first byte of the literal. -/
theorem literalBeyondCeilingFailsPass : Obligations.LiteralBeyondCeilingFailsPass := by
  intro i r v s hr hop2 hv hscr hscrn hroom
  rw [exec_of_recordOf hr, emitInstr, emitRecord,
    lower_of_ne_ret (recordOf_opc_ne_ret hr (by rw [hop2]; rfl)),
    emitLowered_literal_wide (recordOf_op1_allowsSize hr) hop2 hv hscr hscrn hroom]
  rfl

/-! ## One record, whatever comes of it -/

/-- What an emission begun in `s` comes to, when it has `len` bytes and `refs` local references:
either all of it fits and it ends in `t`, or it stops with an error that has its cause. -/
inductive EmitsOrStops (s : State) (len refs : Nat) (wide : Prop) (t : State) : Pass → Prop
  | fits (hlit : ¬wide) (hroom : s.olen + len ≤ s.cfg.outMax)
      (hqueue : s.nf + refs ≤ s.cfg.nFixupMax) : EmitsOrStops s len refs wide t (.ok t)
  | wide (h : wide) : EmitsOrStops s len refs wide t (.error (.raise .unsupportedEncoding))
  | full (h : s.cfg.outMax < s.olen + len ∨ s.cfg.nFixupMax < s.nf + refs) :
      EmitsOrStops s len refs wide t (.error (.raise .capacityExceeded))

/-- What succeeds has come to its end. -/
theorem EmitsOrStops.eq_of_ok {s t u : State} {len refs : Nat} {wide : Prop}
    (h : EmitsOrStops s len refs wide t (.ok u)) : u = t := by
  cases h
  rfl

/-- Between two records the scratch is empty and no store has outgrown its capacity (R141). -/
structure BetweenRecords (s : State) : Prop where
  scr : s.scr = 0
  scrn : s.scrn = 0
  room : s.olen ≤ s.cfg.outMax
  queue : s.nf ≤ s.cfg.nFixupMax

/-- State `s` after the emission of a record: its bytes with a placeholder for a local label, and
the fixup of that label. -/
def State.withRecord (s : State) (r : Record) : State :=
  s.appended (packedRecord (placeholders s.labels) (lower s.cfg r))
    (localRef s.labels (s.olen + headLen (lower s.cfg r)) r.op2)

theorem emitRecord_withRecord {i : Instr} {r : Record} {s : State} (h : recordOf i = some r)
    (hlit : litBelowCeiling r.op2 = true)
    (hready : Ready s (recordLen s.cfg s.labels r) (refsOf s.labels r)) :
    emitRecord r s = .ok (s.withRecord r) := by
  obtain ⟨hsym, hlow⟩ := lower_keeps_payload h s.cfg
  have hrefs : refsOf s.labels (lower s.cfg r) = refsOf s.labels r := by rw [refsOf, refsOf, hsym]
  rw [recordLen, ← hrefs] at hready
  rw [emitRecord, emitLowered_appended (lower_op1_allowsSize h s.cfg) (hlow hlit) hready,
    State.withRecord, localRef, localRef, hsym]

/-- The bytes before a payload are part of the record (R92). -/
theorem headLen_le_recordLen {i : Instr} {r : Record} (h : recordOf i = some r)
    (hop2 : r.op2.isSome) (c : Config) (ls : List Label) : headLen r ≤ recordLen c ls r := by
  have hhead := headBits_le_five (recordOf_op1_allowsSize h)
  rw [recordLen, lower_of_ne_ret (recordOf_opc_ne_ret h hop2)]
  unfold headLen loweredLen
  split <;> omega

theorem litBelowCeiling_eq_false {o : Option Operand} (h : litBelowCeiling o = false) :
    ∃ v, o = some (.literal v) ∧ 2 ^ 64 ≤ v := by
  match o, h with
  | some (.literal v), h => exact ⟨v, rfl, by simpa [litBelowCeiling] using h⟩

theorem refsOf_pos {ls : List Label} {r : Record} (h : 0 < refsOf ls r) :
    refsOf ls r = 1 ∧ ∃ n, r.op2 = some (.symbol n) ∧ (lookup ls n).isSome := by
  unfold refsOf at h ⊢
  split at h
  · next hloc =>
    rw [if_pos hloc]
    match hop2 : r.op2, hloc with
    | some (.symbol n), hloc => exact ⟨rfl, n, rfl, hloc⟩
  · omega

/-- A literal beyond the ceiling stops the record: there, or before it for want of room. -/
theorem emitRecord_wide {i : Instr} {r : Record} {s : State} (hr : recordOf i = some r)
    (hs : BetweenRecords s) (hlit : litBelowCeiling r.op2 = false) (t : State) :
    EmitsOrStops s (recordLen s.cfg s.labels r) (refsOf s.labels r)
      (litBelowCeiling r.op2 = false) t (emitRecord r s) := by
  obtain ⟨v, hop2, hv⟩ := litBelowCeiling_eq_false hlit
  have hop1 := recordOf_op1_allowsSize hr
  have hlow := lower_of_ne_ret (c := s.cfg) (recordOf_opc_ne_ret hr (by rw [hop2]; rfl))
  rw [emitRecord, recordLen, hlow]
  by_cases hroom : s.olen + headLen r ≤ s.cfg.outMax
  · rw [emitLowered_literal_wide hop1 hop2 hv hs.scr hs.scrn hroom]
    exact .wide hlit
  · have hlen := headLen_le_recordLen hr (by rw [hop2]; rfl) s.cfg s.labels
    rw [recordLen, hlow] at hlen
    rw [emitLowered_literal hop2, emitHead_align_full hop1 hs.scrn hs.room (by omega),
      pass_error_bind, pass_error_bind]
    exact .full (.inl (by omega))

/-- A record with a literal below the ceiling that does not fit is not emitted. -/
theorem emitRecord_not_ok {i : Instr} {r : Record} {s t : State} (hr : recordOf i = some r)
    (hs : BetweenRecords s) (hlit : litBelowCeiling r.op2 = true)
    (hfull : s.cfg.outMax < s.olen + recordLen s.cfg s.labels r ∨
      s.cfg.nFixupMax < s.nf + refsOf s.labels r) : emitRecord r s ≠ .ok t := by
  intro hok
  obtain ⟨hframe, hscratch, hfits, hpos⟩ := (emitRecord_packs hr hlit hs.scrn hs.room).ok t hok
  rw [hframe.cfg] at hfits
  obtain hlong | hqueue := hfull
  · omega
  · have hnf := hs.queue
    obtain ⟨hone, n, hop2, hloc⟩ := refsOf_pos (ls := s.labels) (r := r) (by omega)
    have hlow := lower_of_ne_ret (c := s.cfg) (recordOf_opc_ne_ret hr (by rw [hop2]; rfl))
    have hlen := headLen_le_recordLen hr (by rw [hop2]; rfl) s.cfg s.labels
    rw [emitRecord, hlow, emitLowered_queue_full (recordOf_op1_allowsSize hr) hop2 hloc hs.scr
      hs.scrn (by omega) (by omega)] at hok
    cases hok

/-- Everything the emission of a record can come to. -/
theorem emitRecord_outcome {i : Instr} {r : Record} {s : State} (hr : recordOf i = some r)
    (hs : BetweenRecords s) :
    EmitsOrStops s (recordLen s.cfg s.labels r) (refsOf s.labels r) (litBelowCeiling r.op2 = false)
      (s.withRecord r) (emitRecord r s) := by
  cases hlit : litBelowCeiling r.op2 with
  | false => exact hlit ▸ emitRecord_wide hr hs hlit (s.withRecord r)
  | true =>
    by_cases hfits : s.olen + recordLen s.cfg s.labels r ≤ s.cfg.outMax ∧
        s.nf + refsOf s.labels r ≤ s.cfg.nFixupMax
    · obtain ⟨hroom, hqueue⟩ := hfits
      rw [emitRecord_withRecord hr hlit ⟨hs.scr, hs.scrn, hroom, hqueue⟩]
      exact .fits nofun hroom hqueue
    · cases hemit : emitRecord r s with
      | ok t => exact absurd hemit (emitRecord_not_ok hr hs hlit (by omega))
      | error x =>
        rw [(emitRecord_packs hr hlit hs.scrn hs.room).stop x hemit]
        exact .full (by omega)

end Sys2Proof.Machine
end

section
/-! The output once it is there (spec/41_assemble.md R161), and where the emission of an instruction
may touch it (R141, R159). -/

namespace Sys2Proof.Machine

/-! ## In DONE (R161) -/

/-- Settles O23: the phase and the address pass READ_OUT's checks. -/
theorem readOutAnswersByte : Obligations.ReadOutAnswersByte := by
  intro s a b hphase haddr hread
  show execReadOut a s = _
  rw [execReadOut, if_neg (not_not.mpr hphase), if_neg (by omega), hread, BitVec.ofNat_toNat]
  rfl

/-- Settles O26: what changes the output is refused outside BUILD, or is RESET. -/
theorem outputImmutableInDone : Obligations.OutputImmutableInDone := by
  intro i s t hi hreset hdone h
  have hbuild : s.phase ≠ .build := by simp [hdone]
  cases exec_effect hi h with
  | reset => exact absurd rfl hreset
  | addLabel _ hb | append _ hb | set _ hb | assembled hb | passFailed hb => exact absurd hb hbuild
  | refused | readOut | readReg => exact ⟨rfl, fun _ => rfl, rfl, rfl⟩

/-! ## While the pass emits (R54, R141, R152) -/

/-- From `s` to `t` the queue and the buffer have only grown at their ends. -/
structure Grows (s t : State) : Prop where
  queue : s.fixups <+: t.fixups
  olen : s.olen ≤ t.olen
  read : ∀ a, a < s.olen ∨ t.olen ≤ a → Memory.read t.out a = Memory.read s.out a

theorem Grows.refl (s : State) : Grows s s := ⟨List.prefix_refl _, Nat.le_refl _, fun _ _ => rfl⟩

theorem Grows.trans {s t u : State} (h : Grows s t) (h' : Grows t u) : Grows s u where
  queue := h.queue.trans h'.queue
  olen := h.olen.trans h'.olen
  read a ha := by
    have := h.olen
    have := h'.olen
    exact (h'.read a (by omega)).trans (h.read a (by omega))

/-- One byte at the end; what the scratch holds does not matter. -/
theorem Grows.byte (s : State) (b x : Byte) (n : Nat) :
    Grows s { s with
      out := Memory.write s.out s.olen b, olen := s.olen + 1, scr := x, scrn := n } where
  queue := List.prefix_refl _
  olen := Nat.le_succ _
  read a ha := Memory.read_write_other s.out b (by dsimp only at ha; omega)

theorem Grows.scratch (s : State) (x : Byte) (n : Nat) : Grows s { s with scr := x, scrn := n } :=
  ⟨List.prefix_refl _, Nat.le_refl _, fun _ _ => rfl⟩

/-- An operation that only adds at the ends when it succeeds, and names an error when it raises. -/
structure Growing (f : State → Pass) : Prop where
  ok : ∀ s t, f s = .ok t → Grows s t
  stop : ∀ s e, f s = .error (.raise e) → e ≠ .ok

namespace Growing

theorem pure : Growing .ok where
  ok s _ h := by cases h; exact .refl s
  stop _ _ h := by cases h

theorem raise {e : ErrCode} (he : e ≠ .ok) : Growing fun _ => .error (.raise e) where
  ok _ _ h := by cases h
  stop _ _ h := by cases h; exact he

theorem bind {f g : State → Pass} (hf : Growing f) (hg : Growing g) :
    Growing fun s => f s >>= g where
  ok s t h := by
    obtain ⟨u, hu, ht⟩ := pass_bind_ok h
    exact (hf.ok s u hu).trans (hg.ok u t ht)
  stop s e h := by
    obtain hs | ⟨u, -, hu⟩ := pass_bind_error h
    · exact hf.stop s e hs
    · exact hg.stop u e hu

theorem ite {p : State → Prop} [DecidablePred p] {f g : State → Pass} (hf : Growing f)
    (hg : Growing g) : Growing fun s => if p s then f s else g s where
  ok s t h := by
    split at h
    · exact hf.ok s t h
    · exact hg.ok s t h
  stop s e h := by
    split at h
    · exact hf.stop s e h
    · exact hg.stop s e h

end Growing

theorem emitByte_growing (b : Byte) : Growing (emitByte b) where
  ok s t h := by
    obtain ⟨-, rfl⟩ := emitByte_ok h
    exact .byte s b s.scr s.scrn
  stop s e h := by
    obtain ⟨-, hx⟩ := emitByte_error h
    cases hx
    nofun

theorem emitBytes_growing (bs : List Byte) : Growing (emitBytes bs) := by
  induction bs with
  | nil => exact .pure
  | cons b bs ih => exact (emitByte_growing b).bind ih

theorem put_growing (v w : Nat) : Growing (put v w) where
  ok s t h := by
    obtain ⟨-, rfl⟩ | ⟨-, -, rfl⟩ := put_ok h
    · exact .scratch s _ _
    · exact .byte s _ _ _
  stop s e h := by
    obtain ⟨hx, -, -⟩ | ⟨hx, -⟩ := put_error h <;> cases hx
    nofun

theorem align_growing : Growing align where
  ok s t h := by
    obtain ⟨-, rfl⟩ | ⟨-, -, rfl⟩ := align_ok h
    · exact .refl _
    · exact .byte s _ _ _
  stop s e h := by
    obtain ⟨hx, -, -⟩ := align_error h
    cases hx
    nofun

theorem putWhen_growing (p : Bool) (v w : Nat) : Growing (putWhen p v w) :=
  .ite (p := fun _ => p = true) (put_growing v w) .pure

theorem emitPlaceholder_growing (n : SymName) : Growing (emitPlaceholder n) := by
  have queue (s : State) : Grows s { s with fixups := s.fixups ++ [⟨s.olen, n⟩] } :=
    ⟨List.prefix_append _ _, Nat.le_refl _, fun _ _ => rfl⟩
  have bytes := emitBytes_growing [0, 0, 0, 0]
  exact .ite (.raise nofun)
    ⟨fun s t h => (queue s).trans (bytes.ok _ t h), fun _ e h => bytes.stop _ e h⟩

theorem emitSymbol_growing (n : SymName) : Growing (emitSymbol n) :=
  .ite (emitPlaceholder_growing n) (emitBytes_growing n)

theorem emitLiteral_growing (z : Option Size) (v : Nat) : Growing (emitLiteral z v) :=
  .ite (p := fun _ => 2 ^ 64 ≤ v) (.raise nofun) (emitBytes_growing _)

theorem alignForReg_growing : Growing alignForReg := .ite align_growing .pure

theorem emitOp1_growing (e : Record) : Growing (emitOp1 e) := by
  unfold emitOp1
  cases e.op1 with
  | none => exact .pure
  | some o => exact put_growing _ _

theorem emitOp2_growing (e : Record) : Growing (emitOp2 e) := by
  unfold emitOp2
  match e.op2 with
  | none => exact .pure
  | some (.register r) | some (.indirect r) => exact alignForReg_growing.bind (put_growing _ _)
  | some (.symbol n) => exact align_growing.bind (emitSymbol_growing n)
  | some (.literal v) => exact align_growing.bind (emitLiteral_growing _ v)

theorem emitLowered_growing (e : Record) : Growing (emitLowered e) :=
  (((((emitByte_growing _).bind (putWhen_growing _ _ _)).bind (putWhen_growing _ _ _)).bind
    (emitOp1_growing e)).bind (emitOp2_growing e)).bind align_growing

theorem emitRecord_growing (r : Record) : Growing (emitRecord r) where
  ok s := (emitLowered_growing (lower s.cfg r)).ok s
  stop s := (emitLowered_growing (lower s.cfg r)).stop s

/-- Settles O41: an emission that succeeds adds at the ends, and one that raises fails the pass. -/
theorem emissionFrame : Obligations.EmissionFrame := by
  intro i s t hi h
  obtain ⟨r, hr⟩ := exists_recordOf hi
  rw [exec_of_recordOf hr] at h
  obtain hok | ⟨e, herr, rfl⟩ := passOutcome_next h
  · obtain ⟨⟨fx, hfx⟩, holen, hread⟩ := (emitRecord_growing r).ok s t hok
    have hframe : EmitFrame s t := (emitRecord_emitting r s t hok).frame
    exact .inr ⟨fx, hfx ▸ hframe, holen, hread⟩
  · exact .inl ⟨e, (emitRecord_growing r).stop s e herr, s.failPass_eq_failedWith e⟩

end Sys2Proof.Machine
end

section
/-! The emit pass as one equation (spec/30_encoding.md R92, spec/41_assemble.md R141, R142): where
the program fits, the bytes, the fixups and the label offsets it leaves; where it does not, the error
that stops it and its cause. -/

namespace Sys2Proof.Machine

/-! ## What the program's records leave -/

/-- The bytes of the records, one after another (R162 (4)). -/
def recordsBytes (c : Config) (resolve : SymName → Option Nat) (rs : List Record) : List Byte :=
  (rs.map fun r => packedRecord resolve (lower c r)).flatten

/-- The fixups of the records, the first of which begins at offset `p` (R152). -/
def recordsRefs (c : Config) (ls : List Label) : Nat → List Record → List Fixup
  | _, [] => []
  | p, r :: rs =>
    localRef ls (p + headLen (lower c r)) r.op2 ++ recordsRefs c ls (p + recordLen c ls r) rs

/-- A label after the records from index `i` and offset `p` on have been passed (R142). -/
def Label.pass (c : Config) (ls : List Label) : Nat → Nat → List Record → Label → Label
  | _, _, [], l => l
  | i, p, r :: rs, l => Label.pass c ls (i + 1) (p + recordLen c ls r) rs (l.record i p)

/-- State `s` after the emit pass over the records from index `i` on. -/
def passEnd (i : Nat) (rs : List Record) (s : State) : State :=
  { s.appended (recordsBytes s.cfg (placeholders s.labels) rs)
      (recordsRefs s.cfg s.labels s.olen rs) with
    labels := s.labels.map (Label.pass s.cfg s.labels i s.olen rs) }

theorem recordsBytes_cons (c : Config) (resolve : SymName → Option Nat) (r : Record)
    (rs : List Record) :
    recordsBytes c resolve (r :: rs) =
      packedRecord resolve (lower c r) ++ recordsBytes c resolve rs := rfl

theorem programLen_cons (c : Config) (ls : List Label) (r : Record) (rs : List Record) :
    programLen c ls (r :: rs) = recordLen c ls r + programLen c ls rs := by
  simp [programLen]

theorem localRefs_cons (ls : List Label) (r : Record) (rs : List Record) :
    localRefs ls (r :: rs) = refsOf ls r + localRefs ls rs := by
  rw [localRefs, List.countP_cons, Nat.add_comm]
  rfl

theorem recordsRefs_length (c : Config) (ls : List Label) (p : Nat) (rs : List Record) :
    (recordsRefs c ls p rs).length = localRefs ls rs := by
  induction rs generalizing p with
  | nil => rfl
  | cons r rs ih => rw [recordsRefs, List.length_append, localRef_length, ih, localRefs_cons]

/-- Every record is that of a bytecode instruction (log 5). -/
abbrev AllBytecode (rs : List Record) : Prop := ∀ r ∈ rs, recordOf r.instr = some r

theorem recordsBytes_length {c : Config} {resolve : SymName → Option Nat} {ls : List Label}
    {rs : List Record} (hrs : AllBytecode rs)
    (hres : ∀ n, (resolve n).isSome = (lookup ls n).isSome) :
    (recordsBytes c resolve rs).length = programLen c ls rs := by
  induction rs with
  | nil => rfl
  | cons r rs ih =>
    obtain ⟨hr, hrs⟩ := List.forall_mem_cons.mp hrs
    rw [recordsBytes_cons, List.length_append, packedRecord_lower_length hr c hres, ih hrs,
      programLen_cons]

/-! ## Only the names of the labels matter -/

section
variable {ls ls' : List Label} (h : lookup ls' = lookup ls)
include h

theorem placeholders_congr : placeholders ls' = placeholders ls := by
  unfold placeholders
  rw [h]

theorem localRef_congr (p : Nat) (o : Option Operand) : localRef ls' p o = localRef ls p o := by
  unfold localRef
  rw [h]

theorem recordLen_congr (c : Config) (r : Record) : recordLen c ls' r = recordLen c ls r := by
  unfold recordLen loweredLen symbolLen
  rw [h]

theorem programLen_congr (c : Config) (rs : List Record) :
    programLen c ls' rs = programLen c ls rs := by
  simp only [programLen, funext (recordLen_congr h c)]

theorem refsOf_congr (r : Record) : refsOf ls' r = refsOf ls r := by
  unfold refsOf
  rw [h]

theorem localRefs_congr (rs : List Record) : localRefs ls' rs = localRefs ls rs := by
  unfold localRefs
  rw [h]

theorem recordsRefs_congr (c : Config) (p : Nat) (rs : List Record) :
    recordsRefs c ls' p rs = recordsRefs c ls p rs := by
  induction rs generalizing p with
  | nil => rfl
  | cons r rs ih => rw [recordsRefs, recordsRefs, localRef_congr h, recordLen_congr h, ih]

theorem Label.pass_congr (c : Config) (i p : Nat) (rs : List Record) :
    Label.pass c ls' i p rs = Label.pass c ls i p rs := by
  induction rs generalizing i p with
  | nil => rfl
  | cons r rs ih =>
    funext l
    rw [Label.pass, Label.pass, recordLen_congr h, ih]

end

theorem lookup_recordLabels_fun (i : Nat) (s : State) :
    lookup (recordLabels i s).labels = lookup s.labels :=
  funext (lookup_recordLabels i s)

/-! ## The pass -/

/-- The pass over the rest begins where the first record ends. -/
theorem passEnd_cons {r : Record} (hr : recordOf r.instr = some r) (i : Nat) (rs : List Record)
    (s : State) :
    passEnd (i + 1) rs ((recordLabels i s).withRecord r) = passEnd i (r :: rs) s := by
  have hnames := lookup_recordLabels_fun i s
  have hlen := packedRecord_lower_length hr s.cfg (placeholders_isSome s.labels)
  have hbytes : (recordLabels i s).withRecord r =
      { s.appended (packedRecord (placeholders s.labels) (lower s.cfg r))
          (localRef s.labels (s.olen + headLen (lower s.cfg r)) r.op2) with
        labels := (recordLabels i s).labels } := by
    unfold State.withRecord
    rw [placeholders_congr hnames, localRef_congr hnames]
    rfl
  have hlabels (p : Nat) : (recordLabels i s).labels.map
      (Label.pass s.cfg (recordLabels i s).labels (i + 1) (p + recordLen s.cfg s.labels r) rs) =
        s.labels.map fun l => Label.pass s.cfg s.labels (i + 1) (p + recordLen s.cfg s.labels r) rs
          (l.record i s.olen) := by
    rw [Label.pass_congr hnames, recordLabels_labels, List.map_map]
    rfl
  rw [hbytes]
  simp only [passEnd, State.appended, placeholders_congr hnames, recordsRefs_congr hnames, hlen,
    hlabels, recordsBytes_cons, recordsRefs, Memory.writeBytes_append, List.length_append,
    List.append_assoc, Nat.add_assoc]
  rfl

theorem BetweenRecords.recordLabels {s : State} (hs : BetweenRecords s) (i : Nat) :
    BetweenRecords (recordLabels i s) :=
  ⟨hs.scr, hs.scrn, hs.room, hs.queue⟩

/-- The scratch is empty again after a record that fits. -/
theorem BetweenRecords.withRecord {s : State} (hs : BetweenRecords s) {r : Record}
    (hr : recordOf r.instr = some r) (hroom : s.olen + recordLen s.cfg s.labels r ≤ s.cfg.outMax)
    (hqueue : s.nf + refsOf s.labels r ≤ s.cfg.nFixupMax) : BetweenRecords (s.withRecord r) where
  scr := hs.scr
  scrn := hs.scrn
  room := by
    rwa [← packedRecord_lower_length hr s.cfg (placeholders_isSome s.labels)] at hroom
  queue := by
    rwa [State.withRecord, State.appended_nf, localRef_length]

/-- Recording labels moves neither the buffer nor the queue. -/
theorem EmitsOrStops.of_recordLabels {i len refs : Nat} {s t : State} {wide : Prop} {p : Pass}
    (h : EmitsOrStops (recordLabels i s) len refs wide t p) : EmitsOrStops s len refs wide t p := by
  cases h with
  | fits hlit hroom hqueue => exact .fits hlit hroom hqueue
  | wide h => exact .wide h
  | full h => exact .full h

/-- One emission after another: lengths and references add up, and the first cause stops both. -/
theorem EmitsOrStops.bind {len refs len' refs' : Nat} {s t u : State} {wide wide' : Prop} {p : Pass}
    {f : State → Pass} (hp : EmitsOrStops s len refs wide t p) (hcfg : t.cfg = s.cfg)
    (holen : t.olen = s.olen + len) (hnf : t.nf = s.nf + refs)
    (hf : s.olen + len ≤ s.cfg.outMax → s.nf + refs ≤ s.cfg.nFixupMax →
      EmitsOrStops t len' refs' wide' u (f t)) :
    EmitsOrStops s (len + len') (refs + refs') (wide ∨ wide') u (p >>= f) := by
  cases hp with
  | wide h => exact .wide (.inl h)
  | full h => exact .full (by omega)
  | fits hlit hroom hqueue =>
    have hrest := hf hroom hqueue
    rw [pass_ok_bind]
    generalize f t = q at hrest ⊢
    cases hrest with
    | fits hlit' hroom' hqueue' =>
      rw [hcfg] at hroom' hqueue'
      exact .fits (not_or.mpr ⟨hlit, hlit'⟩) (by omega) (by omega)
    | wide h => exact .wide (.inr h)
    | full h =>
      rw [hcfg] at h
      exact .full (by omega)

/-- Everything the emit pass can come to. -/
theorem emitPass_outcome {rs : List Record} (hrs : AllBytecode rs) (i : Nat) {s : State}
    (hs : BetweenRecords s) :
    EmitsOrStops s (programLen s.cfg s.labels rs) (localRefs s.labels rs)
      (∃ r ∈ rs, litBelowCeiling r.op2 = false) (passEnd i rs s) (emitPass i rs s) := by
  induction rs generalizing i s with
  | nil =>
    have hend : passEnd i [] s = s := by simp [passEnd, recordsBytes, recordsRefs, Label.pass]
    rw [hend]
    exact .fits (by simp) hs.room hs.queue
  | cons r rs ih =>
    obtain ⟨hr, hrs⟩ := List.forall_mem_cons.mp hrs
    have hnames := lookup_recordLabels_fun i s
    have hfirst := emitRecord_outcome hr (hs.recordLabels i)
    have hbetween := (hs.recordLabels i).withRecord hr
    have hlen := packedRecord_lower_length hr s.cfg (placeholders_isSome (recordLabels i s).labels)
    have hnf :
        ((recordLabels i s).withRecord r).nf = s.nf + refsOf (recordLabels i s).labels r := by
      rw [State.withRecord, State.appended_nf, localRef_length]
      rfl
    have hrest (hroom) (hqueue) := ih hrs (i + 1) (hbetween hroom hqueue)
    have hboth := hfirst.of_recordLabels.bind (f := emitPass (i + 1) rs) rfl
      (congrArg (s.olen + ·) hlen) hnf hrest
    rw [programLen_cons, localRefs_cons, List.exists_mem_cons_iff]
    have hlabels : lookup ((recordLabels i s).withRecord r).labels = lookup s.labels := hnames
    rwa [programLen_congr hlabels, localRefs_congr hlabels, recordLabels_cfg,
      recordLen_congr hnames, refsOf_congr hnames, passEnd_cons hr] at hboth

end Sys2Proof.Machine
end

section
/-! The fixup pass over the program's fixups (spec/41_assemble.md R155 to R157, R162): it completes,
and puts the offset of its label in the place of every placeholder. -/

namespace Sys2Proof.Machine

/-! ## The records of the builder -/

theorem eq_none_of_not_allowed {α : Type} {o : Option α} {allowed : Bool}
    (h : o.isSome → allowed = true) (hno : allowed = false) : o = none := by
  cases o with
  | none => rfl
  | some a => simp [hno] at h

/-- A record the builder makes is that of the instruction it stands for (R38 (6), log 15). -/
theorem recordOf_instr {c : Config} {r : Record} (h : r.legal c = true) :
    recordOf r.instr = some r := by
  obtain rfl | ⟨hcond, hsize, hop1, hop2⟩ := Record.legal_iff.mp h
  · rfl
  have hnone (hkinds : kindsOp2 r.opc = []) : r.op2 = none :=
    Option.eq_none_iff_forall_not_mem.mpr fun o ho => by simpa [hkinds] using hop2 o ho
  obtain ⟨opc, cond, size, op1, op2⟩ := r
  cases opc
  case jmp =>
    cases eq_none_of_not_allowed hsize rfl
    cases eq_none_of_not_allowed hop1 rfl
    rfl
  all_goals obtain rfl : cond = none := eq_none_of_not_allowed hcond rfl
  case call =>
    cases eq_none_of_not_allowed hsize rfl
    cases eq_none_of_not_allowed hop1 rfl
    rfl
  case ret =>
    cases eq_none_of_not_allowed hsize rfl
    cases eq_none_of_not_allowed hop1 rfl
    cases hnone rfl
    rfl
  case not =>
    cases hnone rfl
    rfl
  all_goals rfl

theorem Inv.allBytecode {s : State} (hs : Inv s) : AllBytecode s.instrs :=
  fun r hr => recordOf_instr (hs.records r hr)

theorem Inv.betweenRecords {s : State} (hs : Inv s) : BetweenRecords s := by
  obtain ⟨hscr, hscrn⟩ := hs.scratch
  obtain ⟨-, -, hnf⟩ := hs.capacity
  exact ⟨hscr, hscrn, hs.outCapacity, hnf⟩

/-- The program's bytes are those the packer makes of its records (R162 (4)). -/
theorem programBytes_eq_recordsBytes {c : Config} {ls : List Label} {rs : List Record}
    (hrs : AllBytecode rs) : programBytes c ls rs = recordsBytes c (finalOffset c ls rs) rs := by
  unfold programBytes recordsBytes
  refine congrArg List.flatten (List.map_congr_left fun r hr => ?_)
  rw [encodeBytecode_of_recordOf (hrs r hr), Option.getD_some]

/-! ## The offsets of the labels (R142, R155) -/

theorem offsetOf_cons_zero (c : Config) (ls : List Label) (r : Record) (rs : List Record) :
    offsetOf c ls (r :: rs) 0 = 0 := rfl

theorem offsetOf_cons_succ (c : Config) (ls : List Label) (r : Record) (rs : List Record)
    (i : Nat) : offsetOf c ls (r :: rs) (i + 1) = recordLen c ls r + offsetOf c ls rs i := by
  simp [offsetOf]

/-- A label that has its offset keeps it to the end of the pass. -/
theorem Label.pass_of_off {l : Label} (h : l.off ≠ none) (c : Config) (ls : List Label) (i p : Nat)
    (rs : List Record) : Label.pass c ls i p rs l = l := by
  induction rs generalizing i p with
  | nil => rfl
  | cons r rs ih => rw [Label.pass, Label.record, if_neg (not_and_of_not_right _ h), ih]

/-- After the pass and the end labels, a label has the offset of the instruction of its index. -/
theorem Label.pass_recordEnd {c : Config} {ls : List Label} {i : Nat} (p : Nat) {rs : List Record}
    {l : Label} (hoff : l.off = none) (hi : i ≤ l.idx) :
    (Label.pass c ls i p rs l).recordEnd (p + programLen c ls rs) =
      { l with off := some (p + offsetOf c ls rs (l.idx - i)) } := by
  induction rs generalizing i p with
  | nil => simp [Label.pass, Label.recordEnd, hoff, programLen, offsetOf]
  | cons r rs ih =>
    rw [Label.pass]
    obtain hidx | hidx := Nat.eq_or_lt_of_le hi
    · have hrec : l.record i p = { l with off := some p } := if_pos ⟨hidx.symm, hoff⟩
      rw [hrec, Label.pass_of_off (by simp), ← hidx, Nat.sub_self, offsetOf_cons_zero]
      rfl
    · rw [Label.record_of_idx_ne (by omega), programLen_cons, ← Nat.add_assoc, ih _ (by omega),
        show l.idx - i = (l.idx - (i + 1)) + 1 by omega, offsetOf_cons_succ, Nat.add_assoc]

/-- Every label of the program at its final offset (R162 (2)). -/
theorem Inv.resolved_labels {s : State} (hs : Inv s) (hb : s.phase = .build) :
    (resolveEndLabels (passEnd 0 s.instrs s)).labels = s.labels.map fun l =>
      { l with off := some (offsetOf s.cfg s.labels s.instrs l.idx) } := by
  obtain ⟨-, holen, hoff⟩ := hs.building hb
  have hlen := recordsBytes_length (c := s.cfg) hs.allBytecode (placeholders_isSome s.labels)
  rw [resolveEndLabels_labels, passEnd, List.map_map]
  refine List.map_congr_left fun l hl => ?_
  show (Label.pass s.cfg s.labels 0 s.olen s.instrs l).recordEnd (s.olen + _) = _
  rw [hlen, Label.pass_recordEnd _ (hoff l hl) (Nat.zero_le _), holen, Nat.zero_add, Nat.sub_zero]

/-- What names resolve to among labels whose offsets are given by a function. -/
theorem resolvedOff_map_off (ls : List Label) (g : Label → Nat) (n : SymName) :
    resolvedOff (ls.map fun l => { l with off := some (g l) }) n =
      (lookup ls n).bind fun j => ls[j]?.map g := by
  unfold resolvedOff
  rw [lookup_map (f := fun l => { l with off := some (g l) }) fun _ => rfl]
  cases lookup ls n with
  | none => rfl
  | some j => cases hj : ls[j]? <;> simp [hj]

theorem finalOffset_isSome (c : Config) (ls : List Label) (rs : List Record) (n : SymName) :
    (finalOffset c ls rs n).isSome = (lookup ls n).isSome := by
  unfold finalOffset
  cases hl : lookup ls n with
  | none => rfl
  | some j =>
    obtain ⟨l, hj, -⟩ := lookup_some hl
    simp [hj]

/-! ## Bytes that stand in the output -/

/-- From address `p` on, the buffer reads as these bytes. -/
def Holds (m : Memory) (p : Nat) (bs : List Byte) : Prop :=
  ∀ k < bs.length, Memory.read m (p + k) = bs[k]?

theorem Holds.congr {m m' : Memory} {p : Nat} {bs : List Byte} (h : Holds m p bs)
    (heq : ∀ a, p ≤ a → a < p + bs.length → Memory.read m' a = Memory.read m a) : Holds m' p bs :=
  fun k hk => (heq (p + k) (by omega) (by omega)).trans (h k hk)

theorem holds_append {m : Memory} {p : Nat} {bs cs : List Byte} :
    Holds m p (bs ++ cs) ↔ Holds m p bs ∧ Holds m (p + bs.length) cs := by
  constructor
  · intro h
    refine ⟨fun k hk => ?_, fun k hk => ?_⟩
    · rw [h k (by rw [List.length_append]; omega), List.getElem?_append_left hk]
    · rw [Nat.add_assoc, h _ (by rw [List.length_append]; omega),
        List.getElem?_append_right (by omega), Nat.add_sub_cancel_left]
  · rintro ⟨hbs, hcs⟩ k hk
    rw [List.length_append] at hk
    by_cases hlt : k < bs.length
    · rw [hbs k hlt, List.getElem?_append_left hlt]
    · rw [List.getElem?_append_right (by omega), ← hcs (k - bs.length) (by omega)]
      congr 1
      omega

theorem holds_writeBytes (m : Memory) (p : Nat) (bs : List Byte) :
    Holds (Memory.writeBytes m p bs) p bs := fun k hk => by
  rw [Memory.read_writeBytes, if_pos (by omega), Nat.add_sub_cancel_left]

/-- An address that is not listed holds no byte (R232). -/
theorem Memory.read_eq_none {m : Memory} {a : Nat} (h : a ∉ m.map Prod.fst) :
    Memory.read m a = none := by
  induction m with
  | nil => rfl
  | cons q m ih =>
    obtain ⟨hne, hm⟩ := not_or.mp (mt List.mem_cons.mpr h)
    rw [Memory.read, if_neg (Ne.symm hne), ih hm]

/-- A buffer that lists exactly as many bytes as it holds from address 0 on reads as those. -/
theorem Holds.read_eq {m : Memory} {bs : List Byte} (h : Holds m 0 bs)
    (hkeys : m.map Prod.fst = List.range bs.length) (a : Nat) : Memory.read m a = bs[a]? := by
  by_cases ha : a < bs.length
  · simpa using h a ha
  · rw [Memory.read_eq_none (by rw [hkeys, List.mem_range]; exact ha),
      List.getElem?_eq_none (by omega)]

/-! ## The fixups of the records (R156, R157) -/

/-- The bytes before the payload of a symbol. -/
def packedHead (e : Record) : List Byte :=
  formatByte0 e.opc (op1KindBit e.op1) (op2KindBits e.op2) :: flushed (headByte e) (headBits e)

theorem packedHead_length {e : Record} (hhead : headBits e ≤ 5) :
    (packedHead e).length = headLen e := by
  rw [packedHead, List.length_cons, flushed_length _ (by omega), headLen, Nat.add_comm]

theorem packedRecord_symbol {e : Record} {n : SymName} (h : e.op2 = some (.symbol n))
    (resolve : SymName → Option Nat) :
    packedRecord resolve e = packedHead e ++ symbolPayload resolve n := by
  rw [packedRecord, packedHead, h]
  rfl

/-- The bytes of a record whose symbol is not local do not depend on what names resolve to. -/
theorem packedRecord_of_localRef_nil {ls : List Label} {e : Record} {p : Nat}
    {resolve resolve' : SymName → Option Nat}
    (hres : ∀ n, (resolve n).isSome = (lookup ls n).isSome)
    (hres' : ∀ n, (resolve' n).isSome = (lookup ls n).isSome) (h : localRef ls p e.op2 = []) :
    packedRecord resolve e = packedRecord resolve' e := by
  match hop2 : e.op2 with
  | none | some (.register _) | some (.indirect _) | some (.literal _) =>
    simp only [packedRecord, hop2, packedOp2]
  | some (.symbol n) =>
    have hext : lookup ls n = none := by simpa [localRef, hop2, opSymbol] using h
    have hnone := hres n
    have hnone' := hres' n
    simp only [hext, Option.isSome_none, Option.isSome_eq_false_iff, Option.isNone_iff_eq_none]
      at hnone hnone'
    rw [packedRecord_symbol hop2, packedRecord_symbol hop2, symbolPayload, symbolPayload, hnone,
      hnone']

/-- A record has no fixup, or that of its local symbol. -/
theorem localRef_cases (ls : List Label) (p : Nat) (o : Option Operand) :
    localRef ls p o = [] ∨
      ∃ n, o = some (.symbol n) ∧ (lookup ls n).isSome ∧ localRef ls p o = [⟨p, n⟩] := by
  match o with
  | none | some (.register _) | some (.indirect _) | some (.literal _) => exact .inl rfl
  | some (.symbol n) =>
    by_cases hloc : (lookup ls n).isSome
    · exact .inr ⟨n, rfl, hloc, by simp [localRef, opSymbol, hloc]⟩
    · exact .inl (by simp [localRef, opSymbol, hloc])

/-- What a stretch of the fixup pass does to the buffer between addresses `p` and `q`: it completes,
leaves these bytes at `p`, and no byte outside is touched. -/
def Patches (fs : List Fixup) (s : State) (p q : Nat) (bs : List Byte) : Prop :=
  ∃ m, fixupPass fs s = .ok { s with out := m } ∧ Holds m p bs ∧
    ∀ a, a < p ∨ q ≤ a → Memory.read m a = Memory.read s.out a

theorem patches_nil {s : State} {p : Nat} {bs : List Byte} (h : Holds s.out p bs) (q : Nat) :
    Patches [] s p q bs := ⟨s.out, rfl, h, fun _ _ => rfl⟩

/-- One fixup whose label has its offset. -/
theorem patches_singleton {s : State} {p : Nat} {n : SymName} {off : Nat} {bs cs : List Byte}
    (hoff : resolvedOff s.labels n = some off) (hroom : p + bs.length + 4 ≤ s.olen)
    (h : Holds s.out p (bs ++ cs)) :
    Patches [⟨p + bs.length, n⟩] s p (p + bs.length + 4) (bs ++ leBytes 4 off) := by
  obtain ⟨hbs, -⟩ := holds_append.mp h
  refine ⟨Memory.writeBytes s.out (p + bs.length) (leBytes 4 off), ?_, ?_, fun a ha => ?_⟩
  · simp only [fixupPass, patch, hoff, memWrite, if_pos hroom, pass_ok_bind]
  · refine holds_append.mpr ⟨hbs.congr fun a _ ha => ?_, holds_writeBytes _ _ _⟩
    rw [Memory.read_writeBytes, if_neg (by omega)]
  · rw [Memory.read_writeBytes, leBytes_length, if_neg (by omega)]

theorem fixupPass_append (fs gs : List Fixup) (s : State) :
    fixupPass (fs ++ gs) s = fixupPass fs s >>= fixupPass gs := by
  induction fs generalizing s with
  | nil => rfl
  | cons f fs ih =>
    rw [List.cons_append, fixupPass, fixupPass, bind_assoc]
    exact congrArg (patch f s >>= ·) (funext ih)

theorem Patches.append {fs gs : List Fixup} {s : State} {p q q' : Nat} {bs cs : List Byte}
    (hfs : Patches fs s p q bs) (hq : p + bs.length = q) (hqq' : q ≤ q')
    (hgs : ∀ m : Memory, (∀ a, q ≤ a → Memory.read m a = Memory.read s.out a) →
      Patches gs { s with out := m } q q' cs) :
    Patches (fs ++ gs) s p q' (bs ++ cs) := by
  obtain ⟨m, hm, hbs, hout⟩ := hfs
  obtain ⟨m', hm', hcs, hout'⟩ := hgs m fun a ha => hout a (.inr ha)
  refine ⟨m', ?_, ?_, fun a ha => (hout' a (by omega)).trans (hout a (by omega))⟩
  · rw [fixupPass_append, hm, pass_ok_bind, hm']
  · rw [holds_append, hq]
    exact ⟨hbs.congr fun a _ ha => hout' a (.inl (by omega)), hcs⟩

/-- The fixup of one record, if it has one, completes its bytes. -/
theorem patches_record {r : Record} (hr : recordOf r.instr = some r) {c : Config} {ls : List Label}
    {s : State} {p : Nat} (hres : ∀ n, (resolvedOff s.labels n).isSome = (lookup ls n).isSome)
    (hroom : p + recordLen c ls r ≤ s.olen)
    (h : Holds s.out p (packedRecord (placeholders ls) (lower c r))) :
    Patches (localRef ls (p + headLen (lower c r)) r.op2) s p (p + recordLen c ls r)
      (packedRecord (resolvedOff s.labels) (lower c r)) := by
  have hhead := headBits_le_five (lower_op1_allowsSize hr c)
  have hlen : recordLen c ls r = loweredLen ls (lower c r) := rfl
  have href : localRef ls (p + headLen (lower c r)) r.op2 =
      localRef ls (p + headLen (lower c r)) (lower c r).op2 := by
    rw [localRef, localRef, (lower_keeps_payload hr c).1]
  rw [href, hlen]
  rw [hlen] at hroom
  generalize lower c r = e at *
  obtain hnil | ⟨n, hop2, hloc, hone⟩ := localRef_cases ls (p + headLen e) e.op2
  · rw [hnil, packedRecord_of_localRef_nil hres (placeholders_isSome ls) hnil]
    exact patches_nil h _
  · obtain ⟨off, hoff⟩ := Option.isSome_iff_exists.mp ((hres n).trans hloc)
    have hend : p + loweredLen ls e = p + (packedHead e).length + 4 := by
      rw [packedHead_length hhead, ← localRef_off (by rw [hone]; exact List.mem_singleton_self _)]
    rw [hend] at hroom ⊢
    rw [packedRecord_symbol hop2] at h ⊢
    rw [hone, ← packedHead_length hhead, symbolPayload, hoff]
    exact patches_singleton hoff hroom h

/-- The fixups of the records, in queue order, complete the bytes of all of them. -/
theorem patches_records {rs : List Record} (hrs : AllBytecode rs) {c : Config} {ls : List Label}
    {s : State} {p : Nat} (hres : ∀ n, (resolvedOff s.labels n).isSome = (lookup ls n).isSome)
    (hroom : p + programLen c ls rs ≤ s.olen)
    (h : Holds s.out p (recordsBytes c (placeholders ls) rs)) :
    Patches (recordsRefs c ls p rs) s p (p + programLen c ls rs)
      (recordsBytes c (resolvedOff s.labels) rs) := by
  induction rs generalizing s p with
  | nil => exact patches_nil h _
  | cons r rs ih =>
    obtain ⟨hr, hrs⟩ := List.forall_mem_cons.mp hrs
    rw [programLen_cons, ← Nat.add_assoc] at hroom ⊢
    rw [recordsBytes_cons, holds_append,
      packedRecord_lower_length hr c (placeholders_isSome ls)] at h
    obtain ⟨hfirst, hrest⟩ := h
    refine (patches_record hr hres (by omega) hfirst).append
      (congrArg (p + ·) (packedRecord_lower_length hr c hres)) (Nat.le_add_right _ _) fun m hm => ?_
    exact ih hrs (s := { s with out := m }) hres hroom (hrest.congr fun a ha _ => hm a ha)

end Sys2Proof.Machine
end

section
/-! The obligations of ASSEMBLE (spec/41_assemble.md R140 to R144, R155 to R162): the whole pass,
where it completes and where it stops, against the program's encoding and against the run by `exec`. -/

namespace Sys2Proof.Machine

/-! ## The pass over the whole program -/

/-- In BUILD neither the buffer nor the queue counts anything (R38 (2)). -/
theorem Inv.counts_zero {s : State} (hs : Inv s) (hb : s.phase = .build) :
    s.olen = 0 ∧ s.nf = 0 := by
  obtain ⟨hfix, -, holen, -⟩ := hs.nothing_emitted hb
  exact ⟨holen, by rw [State.nf, hfix, List.length_nil]⟩

/-- Everything the emit pass of a state between two commands can come to. -/
theorem Inv.emitProgram_outcome {s : State} (hs : Inv s) :
    EmitsOrStops s (programLen s.cfg s.labels s.instrs) (localRefs s.labels s.instrs)
      (∃ r ∈ s.instrs, litBelowCeiling r.op2 = false) (passEnd 0 s.instrs s)
      (emitPass 0 s.instrs s) :=
  emitPass_outcome hs.allBytecode 0 hs.betweenRecords

/-- The state in which the pass ends, but for the patched bytes. -/
def resolvedEnd (s : State) : State := resolveEndLabels (passEnd 0 s.instrs s)

/-- After the emit pass every symbol resolves to its final offset (R162 (2)). -/
theorem Inv.resolvedOff_resolvedEnd {s : State} (hs : Inv s) (hb : s.phase = .build) :
    resolvedOff (resolvedEnd s).labels = finalOffset s.cfg s.labels s.instrs := by
  rw [resolvedEnd, hs.resolved_labels hb]
  exact funext (resolvedOff_map_off s.labels fun l => offsetOf s.cfg s.labels s.instrs l.idx)

theorem Inv.resolvedEnd_fixups {s : State} (hs : Inv s) (hb : s.phase = .build) :
    (resolvedEnd s).fixups = recordsRefs s.cfg s.labels 0 s.instrs := by
  obtain ⟨hfix, -, holen, -⟩ := hs.nothing_emitted hb
  show s.fixups ++ recordsRefs s.cfg s.labels s.olen s.instrs = _
  rw [hfix, holen, List.nil_append]

theorem Inv.resolvedEnd_olen {s : State} (hs : Inv s) (hb : s.phase = .build) :
    (resolvedEnd s).olen = programLen s.cfg s.labels s.instrs := by
  obtain ⟨holen, -⟩ := hs.counts_zero hb
  show s.olen + (recordsBytes s.cfg (placeholders s.labels) s.instrs).length = _
  rw [recordsBytes_length hs.allBytecode (placeholders_isSome s.labels), holen, Nat.zero_add]

/-- The fixup pass completes, and the buffer reads as the program's encoding (R162 (4)). -/
theorem Inv.fixupPass_resolvedEnd {s : State} (hs : Inv s) (hb : s.phase = .build) :
    ∃ m, fixupPass (resolvedEnd s).fixups (resolvedEnd s) = .ok { resolvedEnd s with out := m } ∧
      ∀ a, Memory.read m a = (programBytes s.cfg s.labels s.instrs)[a]? := by
  obtain ⟨holen, -⟩ := hs.counts_zero hb
  have hres := hs.resolvedOff_resolvedEnd hb
  have hlocal := finalOffset_isSome s.cfg s.labels s.instrs
  have hend := hs.resolvedEnd_olen hb
  have hholds : Holds (resolvedEnd s).out 0
      (recordsBytes s.cfg (placeholders s.labels) s.instrs) :=
    holen ▸ holds_writeBytes s.out s.olen _
  have hkeys : (resolvedEnd s).out.map Prod.fst = List.range (resolvedEnd s).olen :=
    Memory.keys_writeBytes_end _ hs.buffer
  obtain ⟨m, hm, hbytes, -⟩ := patches_records (s := resolvedEnd s) hs.allBytecode
    (by rwa [hres]) (by rw [hend, Nat.zero_add]) hholds
  rw [← hs.resolvedEnd_fixups hb] at hm
  refine ⟨m, hm, ?_⟩
  rw [programBytes_eq_recordsBytes hs.allBytecode]
  rw [hres] at hbytes
  refine hbytes.read_eq ?_
  rw [recordsBytes_length hs.allBytecode hlocal, ← hend]
  exact fixupPass_keys hm hkeys

/-- After an emit pass that succeeds, ASSEMBLE completes. -/
theorem assemblePass_of_passes {s t u : State} (ht : emitPass 0 s.instrs s = .ok t)
    (hu : fixupPass (resolveEndLabels t).fixups (resolveEndLabels t) = .ok u) :
    assemblePass s = .ok { u with phase := .done } := by
  show (emitPass 0 s.instrs s >>= fun t =>
    fixupPass (resolveEndLabels t).fixups (resolveEndLabels t) >>= fun v =>
      .ok { v with phase := .done }) = _
  rw [ht, pass_ok_bind, hu, pass_ok_bind]

theorem assemblePass_of_error {s : State} {x : Stop} (h : emitPass 0 s.instrs s = .error x) :
    assemblePass s = .error x := by
  show (emitPass 0 s.instrs s >>= _) = _
  rw [h, pass_error_bind]

/-- Everything the pass of ASSEMBLE can come to (R140, R162). -/
theorem Inv.assemblePass_outcome {s : State} (hs : Inv s) (hb : s.phase = .build) :
    ∃ m, (∀ a, Memory.read m a = (programBytes s.cfg s.labels s.instrs)[a]?) ∧
      EmitsOrStops s (programLen s.cfg s.labels s.instrs) (localRefs s.labels s.instrs)
        (∃ r ∈ s.instrs, litBelowCeiling r.op2 = false)
        { resolvedEnd s with out := m, phase := .done } (assemblePass s) := by
  obtain ⟨m, hm, hread⟩ := hs.fixupPass_resolvedEnd hb
  refine ⟨m, hread, ?_⟩
  have hemit := hs.emitProgram_outcome
  generalize hp : emitPass 0 s.instrs s = p at hemit
  cases hemit with
  | fits hlit hroom hqueue =>
    rw [assemblePass_of_passes hp hm]
    exact .fits hlit hroom hqueue
  | wide h =>
    rw [assemblePass_of_error hp]
    exact .wide h
  | full h =>
    rw [assemblePass_of_error hp]
    exact .full h

/-! ## What ASSEMBLE gives -/

/-- Settles O42: of a program that fits, the pass can only come to its end. -/
theorem assembleEncodesProgram : Obligations.AssembleEncodesProgram := by
  intro s hs hb ⟨hlen, hrefs, hlits⟩
  have hs' := hs.clear_curV
  obtain ⟨m, hread, hpass⟩ := hs'.assemblePass_outcome hb
  obtain ⟨holen, hnf⟩ := hs'.counts_zero hb
  obtain ⟨hscr, hscrn⟩ := hs'.scratch
  rw [exec_assemble_build hb]
  generalize assemblePass { s with curV := false } = p at hpass
  cases hpass with
  | wide h =>
    obtain ⟨r, hr, hwide⟩ := h
    simp [hlits r hr] at hwide
  | full h =>
    rw [holen, hnf, Nat.zero_add, Nat.zero_add] at h
    exact absurd h (not_or.mpr ⟨Nat.not_lt.mpr hlen, Nat.not_lt.mpr hrefs⟩)
  | fits =>
    refine ⟨_, rfl, rfl, rfl, rfl, rfl, rfl, hscr, hscrn, rfl, rfl, rfl,
      hs'.resolvedEnd_olen hb, ?_, hread⟩
    show (resolvedEnd { s with curV := false }).fixups.length = _
    rw [hs'.resolvedEnd_fixups hb, recordsRefs_length]

/-- An ASSEMBLE that ends in DONE leaves the labels as the emit pass and the end labels did. -/
theorem Inv.assembled_labels {s t : State} (hs : Inv s) (hb : s.phase = .build)
    (h : exec .assemble s = .next t) (hd : t.phase = .done) :
    t.labels = (resolvedEnd { s with curV := false }).labels := by
  obtain ⟨m, -, hpass⟩ := hs.clear_curV.assemblePass_outcome hb
  obtain ⟨hne, -⟩ | ⟨-, ⟨u, hu, rfl⟩ | ⟨e, -, rfl⟩⟩ := execAssemble_next h
  · exact absurd hb hne
  · rw [hu] at hpass
    rw [hpass.eq_of_ok]
    rfl
  · cases hd

/-- The label that gives a name its offset, among labels whose offsets are given by a function. -/
theorem exists_label_of_resolvedOff {ls : List Label} {g : Label → Nat} {n : SymName} {off : Nat}
    (h : resolvedOff (ls.map fun l => { l with off := some (g l) }) n = some off) :
    ∃ l ∈ ls, l.name = n ∧ g l = off := by
  rw [resolvedOff_map_off] at h
  obtain ⟨j, hj, hoff⟩ := Option.bind_eq_some_iff.mp h
  obtain ⟨l, hl, hname⟩ := lookup_some hj
  rw [hl, Option.map_some, Option.some_inj] at hoff
  exact ⟨l, List.mem_of_getElem? hl, hname, hoff⟩

/-- A patched fixup, byte by byte. -/
theorem fixupPatched_bytes {s : State} {f : Fixup} (h : fixupPatched s f) :
    ∃ off, resolvedOff s.labels f.name = some off ∧
      ∀ k < 4, Memory.read s.out (f.off + k) = some (byteOf off k) := by
  obtain ⟨off, hoff, hbytes⟩ := Option.map_eq_some_iff.mp h
  refine ⟨off, hoff, fun k hk => ?_⟩
  have hbyte : ((leBytes 4 off).map some)[k]? = _ := congrArg (·[k]?) hbytes
  rw [List.getElem?_map, leBytes_getElem? hk] at hbyte
  simpa [hk] using hbyte.symm

/-- Settles O43: the labels are those at the end of the emit pass, and the invariant of DONE says
that every fixup holds the offset of its label. -/
theorem assembleResolvesLabels : Obligations.AssembleResolvesLabels := by
  intro s t hs hb h hd
  have hlabels := (hs.assembled_labels hb h hd).trans (hs.clear_curV.resolved_labels hb)
  have ht : Inv t := (exec_effect rfl h).keeps_inv hs rfl
  obtain ⟨-, hpatched⟩ := ht.assembled hd
  refine ⟨hlabels, fun f hf => ?_⟩
  obtain ⟨off, hoff, hbytes⟩ := fixupPatched_bytes (hpatched f hf)
  rw [hlabels] at hoff
  obtain ⟨l, hl, hname, rfl⟩ := exists_label_of_resolvedOff
    (g := fun l => offsetOf s.cfg s.labels s.instrs l.idx) hoff
  exact ⟨l, hl, hname, hbytes⟩

/-- Settles O45: an error of the pass has the cause the emission found. -/
theorem assembleRaisesOnlyEncodingOrCapacity :
    Obligations.AssembleRaisesOnlyEncodingOrCapacity := by
  intro s t hs hb h
  have hs' := hs.clear_curV
  obtain ⟨m, -, hpass⟩ := hs'.assemblePass_outcome hb
  obtain ⟨holen, hnf⟩ := hs'.counts_zero hb
  rw [exec_assemble_build hb] at h
  generalize assemblePass { s with curV := false } = p at hpass h
  cases hpass with
  | fits => cases h; exact .inl ⟨rfl, rfl⟩
  | wide hwide => cases h; exact .inr (.inl ⟨rfl, hwide⟩)
  | full hfull =>
    cases h
    rw [holen, hnf, Nat.zero_add, Nat.zero_add] at hfull
    exact .inr (.inr ⟨rfl, hfull⟩)

/-! ## The run by `exec` (log 5) -/

/-- A failed pass leaves nothing of what the pass had changed (R159). -/
theorem PassFrame.failPass_eq {s t : State} (h : PassFrame s t) (e : ErrCode) :
    t.failPass e = s.failPass e := by
  have hlabels : t.labels.map Label.unresolved = s.labels.map Label.unresolved := by
    have hkeys := congrArg (List.map fun k : SymName × Nat => Label.mk k.1 k.2 none) h.labelKeys
    rwa [List.map_map, List.map_map] at hkeys
  have hframe : t = _ := h.frame
  rw [State.failPass, State.failPass, State.abandon, State.abandon, hlabels, hframe]

theorem PassFrame.passOutcome_eq {s t : State} (h : PassFrame s t) (p : Pass) :
    passOutcome t p = passOutcome s p := by
  match p with
  | .ok u => rfl
  | .error (.raise e) => exact congrArg Host.Outcome.next (h.failPass_eq e)
  | .error (.fault f) => rfl

theorem PassFrame.phase {s t : State} (h : PassFrame s t) : t.phase = s.phase := by rw [h.frame]

/-- The run by `exec` of the instructions of the records is the emit pass. -/
theorem execPass_eq_emitPass {rs : List Record} (hrs : AllBytecode rs) (i : Nat) {s : State}
    (hb : s.phase = .build) : execPass i rs s = passOutcome s (emitPass i rs s) := by
  induction rs generalizing i s with
  | nil => rfl
  | cons r rs ih =>
    obtain ⟨hr, hrs⟩ := List.forall_mem_cons.mp hrs
    have hlabels := recordLabels_passFrame i s
    rw [execPass, emitPass, exec_of_recordOf hr, emitInstr, hlabels.passOutcome_eq]
    cases hemit : emitRecord r (recordLabels i s) with
    | ok u =>
      have hframe := hlabels.trans (emitRecord_emitting r _ u hemit).frame.passFrame
      have hu : u.phase = .build := hframe.phase.trans hb
      exact (if_pos hu).trans ((ih hrs (i + 1) hu).trans (hframe.passOutcome_eq _))
    | error x =>
      match x with
      | .raise e => exact if_neg (by simp)
      | .fault f => rfl

/-- Settles O46: the run is the emit pass, and where it ends in BUILD the rest completes. -/
theorem assembleRunsEachInstruction : Obligations.AssembleRunsEachInstruction := by
  intro s t hs hb h
  have hs' := hs.clear_curV
  rw [exec_assemble_build hb]
  have hrun := execPass_eq_emitPass (s := { s with curV := false }) hs'.allBytecode 0 hb
  obtain hok | ⟨e, herr, rfl⟩ := passOutcome_next (hrun.symm.trans h)
  · have hphase : t.phase = .build := (emitPass_passFrame hok).phase.trans hb
    refine ⟨fun hne => absurd hphase hne, fun _ => ?_⟩
    have hend := hs'.emitProgram_outcome
    rw [hok] at hend
    obtain ⟨m, hm, -⟩ := hs'.fixupPass_resolvedEnd hb
    rw [resolvedEnd, ← hend.eq_of_ok] at hm
    exact ⟨_, hm, by rw [assemblePass_of_passes hok hm]; rfl⟩
  · refine ⟨fun _ => ?_, nofun⟩
    rw [assemblePass_of_error herr]
    rfl

end Sys2Proof.Machine
end

section
/-! The obligations of the control-transfer family (spec/42_control_transfer.md R171 to R174): the
bytes the packer appends, in the words of the statements. -/

namespace Sys2Proof.Machine

/-! ## The fields of a record in the words of the statements -/

theorem k1Of_eq_op1KindBit (o : Option RegOperand) : k1Of o = (op1KindBit o).setWidth 8 := by
  match o with
  | none | some (.register _) | some (.indirect _) => rfl

theorem k2Of_eq_op2KindBits (o : Option Operand) : k2Of o = (op2KindBits o).setWidth 8 := by
  match o with
  | none | some (.register _) | some (.indirect _) | some (.symbol _) | some (.literal _) => rfl

/-- The instruction byte: opcode and kind fields side by side (R144). -/
theorem instrByte_eq_kinds (e : Record) :
    instrByte e = e.opc.code.setWidth 8 <<< 4 ||| k1Of e.op1 <<< 3 ||| k2Of e.op2 <<< 1 := by
  rw [instrByte, k1Of_eq_op1KindBit, k2Of_eq_op2KindBits]

/-- The tail byte of a JMP before op2 is its condition (R147). -/
theorem headByte_jmp (cond : Option Cond) (o2 : Option Operand) :
    headByte (jmpRecord cond o2) = condNum cond <<< 4 := by
  have field : (condOrAl cond).code ++ (0 : BitVec 4) = condNum cond <<< 4 := by
    cases cond with
    | none => decide
    | some c => cases c <;> decide
  exact (if_pos rfl).trans field

/-- A register code moved to its place in the tail byte. -/
theorem ofNat_shiftLeft_reg (r : Reg) (k : Nat) :
    BitVec.ofNat 8 (r.toNat <<< k) = r.setWidth 8 <<< k := by
  apply BitVec.eq_of_toNat_eq
  simp [Nat.shiftLeft_eq]

/-! ## The payload of op2 (R151 to R153) -/

/-- The fixups the statements name are those the emission queues. -/
theorem opPayload_fixups (s : State) (p n : Nat) (o : Option Operand) :
    (opPayload s p n o).2 = localRef s.labels p o := by
  match o with
  | none | some (.register _) | some (.indirect _) | some (.literal _) => rfl
  | some (.symbol name) =>
    by_cases hloc : (lookup s.labels name).isSome <;> simp [opPayload, localRef, opSymbol, hloc]

/-- A symbol's payload: zeros in the place of a local label's offset, else its name. -/
theorem symbolPayload_placeholders (s : State) (p n : Nat) (name : SymName) :
    symbolPayload (placeholders s.labels) name = (opPayload s p n (some (.symbol name))).1 := by
  have zeros : leBytes 4 0 = [0, 0, 0, 0] := by decide
  cases h : lookup s.labels name <;> simp [symbolPayload, placeholders, opPayload, h, zeros]

/-- Below `q` bits of the tail byte, a register operand shares that byte; any other leaves it and
puts its payload after it (R150 to R153). -/
theorem packedOp2_eq_opPayload (s : State) (p : Nat) (b : Byte) (q n : Nat) (o : Option Operand) :
    packedOp2 (placeholders s.labels) b q n o =
      (if op2IsReg o then [b ||| op2Reg o <<< (8 - q - 3)] else flushed b q) ++
        (opPayload s p n o).1 := by
  match o with
  | none => exact (List.append_nil _).symm
  | some (.register r) | some (.indirect r) =>
    exact congrArg (fun x : Byte => [b ||| x]) (ofNat_shiftLeft_reg r _)
  | some (.symbol name) =>
    exact congrArg (flushed b q ++ ·) (symbolPayload_placeholders s p n name)
  | some (.literal v) => rfl

theorem op2Reg_of_not_reg {o : Option Operand} (h : op2IsReg o = false) : op2Reg o = 0 := by
  match o, h with
  | none, _ | some (.symbol _), _ | some (.literal _), _ => rfl

/-- The bytes of a record whose tail byte is always there: that byte holds the fields before op2 and
the register code of op2, and the payload follows it. -/
theorem packedRecord_of_tail {e : Record} (h : 0 < headBits e) (s : State) (p : Nat) :
    packedRecord (placeholders s.labels) e =
      [instrByte e, headByte e ||| op2Reg e.op2 <<< (8 - headBits e - 3)] ++
        (opPayload s p (sizeOrWord e.size).bytes e.op2).1 := by
  rw [packedRecord, ← instrByte_eq_formatByte0, packedOp2_eq_opPayload s p]
  refine congrArg (fun tail => instrByte e :: (tail ++ _)) ?_
  cases hreg : op2IsReg e.op2 with
  | true => rfl
  | false => simp [flushed, op2Reg_of_not_reg hreg, Nat.ne_of_gt h]

/-! ## From the packed bytes to the statement -/

/-- An instruction that is not lowered, with room for its packed bytes and its fixups, emits them;
its payload begins `k` bytes in, after the head. -/
theorem emits_of_packedRecord {i : Instr} {r : Record} {s : State} {bs : List Byte} {k n : Nat}
    (hr : recordOf i = some r) (hret : r.opc ≠ .ret) (hlit : litBelowCeiling r.op2 = true)
    (hhead : headLen r = k) (hbs : packedRecord (placeholders s.labels) r = bs)
    (hready : Ready s bs.length (opPayload s (s.olen + k) n r.op2).2.length) :
    Emits i s bs (opPayload s (s.olen + k) n r.op2).2 := by
  subst hhead hbs
  have hlen := packedRecord_lower_length hr s.cfg (placeholders_isSome s.labels)
  have hlower : lower s.cfg r = r := lower_of_ne_ret hret
  rw [hlower] at hlen
  rw [opPayload_fixups] at hready ⊢
  rw [localRef_length, hlen] at hready
  have hexec := exec_appended hr hlit hready
  rw [hlower] at hexec
  exact emits_of_appended hexec

/-! ## The statements -/

/-- Settles O29: a JMP always has its tail byte, with the condition above the register code. -/
theorem jmpEmitsConditionAndTarget : Obligations.JmpEmitsConditionAndTarget := by
  intro s c o hlit p bs hready
  have hcode : Opcode.jmp.code.setWidth 8 <<< 4 ||| k1Of none <<< 3 = ((0x00 : Nat) : Byte) := by
    decide
  have hbits : headBits (jmpRecord c o) = 4 := rfl
  have hhead : headLen (jmpRecord c o) = 2 := by rw [headLen, hbits]
  have hbytes : packedRecord (placeholders s.labels) (jmpRecord c o) = bs := by
    rw [packedRecord_of_tail (by omega) s (s.olen + 2), instrByte_eq_kinds,
      headByte_jmp]
    exact congrArg (fun b : Byte => [b ||| k2Of o <<< 1, _] ++ p.1) hcode
  exact emits_of_packedRecord (r := jmpRecord c o) rfl nofun hlit hhead hbytes hready

/-- Settles O30: a CALL has no field before op2, so only a register makes a tail byte. -/
theorem callEmitsTarget : Obligations.CallEmitsTarget := by
  intro s o hcall p bs hready
  have hlit : litBelowCeiling o = true := by
    match o with
    | none | some (.register _) | some (.indirect _) | some (.symbol _) => rfl
    | some (.literal v) => exact absurd rfl (hcall v)
  have hcode : Opcode.call.code.setWidth 8 <<< 4 ||| k1Of none <<< 3 = ((0xE0 : Nat) : Byte) := by
    decide
  have hbits : headBits (callRecord o) = 0 := rfl
  have hhead : headLen (callRecord o) = 1 := by rw [headLen, hbits]
  have htail : (0 : Byte) ||| op2Reg o <<< 5 = op2Reg o <<< 5 := BitVec.zero_or
  have hbytes : packedRecord (placeholders s.labels) (callRecord o) = bs := by
    rw [packedRecord, ← instrByte_eq_formatByte0, packedOp2_eq_opPayload s (s.olen + 1),
      instrByte_eq_kinds, headByte_of_headBits_eq_zero hbits, hbits]
    exact congrArg₂ (fun b t : Byte =>
      [b ||| k2Of o <<< 1] ++ (if op2IsReg o then [t] else []) ++ p.1) hcode htail
  exact emits_of_packedRecord (r := callRecord o) rfl nofun hlit hhead hbytes hready

/-- RET is lowered to the JMP through `LR_REG` (R143). -/
theorem exec_ret_eq_jmp (s : State) :
    exec .ret s = exec (.jmp none (some (.register s.cfg.lrReg))) s := rfl

/-- Settles O31: the bytes are those of the JMP that RET is lowered to. -/
theorem retEmitsJumpThroughLinkRegister : Obligations.RetEmitsJumpThroughLinkRegister := by
  intro s hready
  refine ⟨?_, exec_ret_eq_jmp s⟩
  have hkind : k2Of (some (.register s.cfg.lrReg)) = 0 := rfl
  have hbyte0 : ((0x00 : Nat) : Byte) ||| (0 : Byte) <<< 1 = 0x00 := by decide
  have hcond : condNum none <<< 4 = ((0x80 : Nat) : Byte) := by decide
  have hjmp := jmpEmitsConditionAndTarget s none (some (.register s.cfg.lrReg)) rfl hready
  rw [hkind, hbyte0, hcond] at hjmp
  exact hjmp

/-- Settles O32: the canonical NOP's bytes; its literal needs no fixup. -/
theorem nopEmitsCanonicalBytes : Obligations.NopEmitsCanonicalBytes := fun _ hready =>
  emits_of_packedRecord (r := nopRecord) (n := 1) rfl nofun rfl rfl (packedRecord_nop _) hready

end Sys2Proof.Machine
end

section
/-! The obligation of the unary family (spec/43_unary.md R181): the size and op1 fields of the tail
byte in the words of the statements, for NOT and for every other opcode that takes a size. -/

namespace Sys2Proof.Machine

/-! ## The tail byte of a sized record -/

theorem ofNat_sizeNum (z : Option Size) :
    BitVec.ofNat 8 (sizeNum z) = (sizeOrWord z).code.setWidth 8 := by
  match z with
  | none | some .byte | some .hword | some .word | some .dword => rfl

theorem op1RegOf_eq_op1Bits (o : Option RegOperand) : op1RegOf o = (op1Bits o).setWidth 8 := by
  match o with
  | none | some (.register _) | some (.indirect _) => rfl

/-- A size above an op1 register, with the padding below, as two shifted fields. -/
theorem size_op1_fields (z : BitVec 2) (q : Reg) :
    (z ++ q ++ (0 : BitVec 3) : Byte) = z.setWidth 8 <<< 6 ||| q.setWidth 8 <<< 3 := by
  revert z q
  decide

/-- The tail byte before op2 holds the size and the op1 register (R181, R186). -/
theorem headByte_sized_fields {opc : Opcode} (h : allowsSize opc = true) (z : Option Size)
    (o1 : Option RegOperand) (o2 : Option Operand) :
    headByte (sizedRecord opc z o1 o2) =
      BitVec.ofNat 8 (sizeNum z) <<< 6 ||| op1RegOf o1 <<< 3 := by
  rw [headByte_sized h, size_op1_fields, ofNat_sizeNum, op1RegOf_eq_op1Bits]

/-- The size field alone makes a tail byte, and size and op1 never fill more than one. -/
theorem headLen_sized {opc : Opcode} (h : allowsSize opc = true) (z : Option Size)
    (o1 : Option RegOperand) (o2 : Option Operand) : headLen (sizedRecord opc z o1 o2) = 2 := by
  rw [headLen, headBits_sized h]
  split <;> rfl

/-! ## The statement -/

/-- The bytes of a NOT: with no op2 the instruction byte has no `k2` and the tail byte ends in
padding (R181, R182). -/
theorem packedRecord_not (s : State) (z : Option Size) (o : Option RegOperand) :
    packedRecord (placeholders s.labels) (sizedRecord .not z o none) =
      [0xA0 ||| k1Of o <<< 3, BitVec.ofNat 8 (sizeNum z) <<< 6 ||| op1RegOf o <<< 3] := by
  have hcode : Opcode.not.code.setWidth 8 <<< 4 = ((0xA0 : Nat) : Byte) := by decide
  have hbits : 0 < headBits (sizedRecord .not z o none) := by rw [headBits_sized rfl]; omega
  have hbyte0 : instrByte (sizedRecord .not z o none) = 0xA0 ||| k1Of o <<< 3 := by
    rw [instrByte_eq_kinds]
    exact (BitVec.or_zero).trans (congrArg (fun b : Byte => b ||| k1Of o <<< 3) hcode)
  rw [packedRecord_of_tail hbits s (s.olen + 2), hbyte0, headByte_sized_fields rfl]
  simp [sizedRecord, op2Reg, opPayload]

/-- Settles O33: a NOT has no op2, so its head is the whole of it and it needs no fixup. -/
theorem notEmitsTwoBytes : Obligations.NotEmitsTwoBytes := fun s z o hready =>
  emits_of_packedRecord (r := sizedRecord .not z o none) (n := (sizeOrWord z).bytes) rfl nofun rfl
    (headLen_sized rfl z o none) (packedRecord_not s z o) hready

end Sys2Proof.Machine
end

section
/-! The obligation of the binary family (spec/44_binary.md R186 to R198): the twelve instructions
are one sized record each, whose tail byte ends in the register code of op2. -/

namespace Sys2Proof.Machine

/-! ## The twelve instructions and their opcodes -/

/-- The codes of R187 to R198 are those of the twelve opcodes, and each instruction is the sized
record of its opcode. -/
theorem binaryInstrs_records (z : Option Size) (o1 : Option RegOperand) (o2 : Option Operand) :
    binaryInstrs.map (fun q => (q.1, recordOf (q.2 z o1 o2))) =
      binaryOpcodes.map fun opc => (opc.code.setWidth 8, some (sizedRecord opc z o1 o2)) := rfl

/-- The opcode of one of the twelve, through which the lemmas on sized records speak of it. -/
theorem exists_opcode_of_mem_binaryInstrs
    {q : Byte × (Option Size → Option RegOperand → Option Operand → Instr)} (hq : q ∈ binaryInstrs)
    (z : Option Size) (o1 : Option RegOperand) (o2 : Option Operand) :
    ∃ opc, allowsSize opc = true ∧ opc.code.setWidth 8 = q.1 ∧
      recordOf (q.2 z o1 o2) = some (sizedRecord opc z o1 o2) := by
  have hmem := List.mem_map_of_mem (f := fun q => (q.1, recordOf (q.2 z o1 o2))) hq
  rw [binaryInstrs_records] at hmem
  obtain ⟨opc, hopc, heq⟩ := List.mem_map.mp hmem
  obtain ⟨hcode, hrec⟩ := Prod.mk.inj heq
  exact ⟨opc, allowsSize_iff.mpr (.tail _ hopc), hcode, hrec.symm⟩

/-! ## The bytes of a sized record -/

/-- The width of a literal in the words of the statements (R76, R153). -/
theorem sizeOrWord_bytes (z : Option Size) : (sizeOrWord z).bytes = 2 ^ sizeNum z := by
  match z with
  | none | some .byte | some .hword | some .word | some .dword => rfl

/-- The place of op2's register code: the last three bits, or those of an absent op1 (R150). -/
theorem op2_shift_sized {opc : Opcode} (h : allowsSize opc = true) (z : Option Size)
    (o1 : Option RegOperand) (o2 : Option Operand) :
    8 - headBits (sizedRecord opc z o1 o2) - 3 = if o1.isSome then 0 else 3 := by
  rw [headBits_sized h]
  split <;> rfl

/-- The bytes of R186: opcode and kinds, size and registers, and the payload. -/
theorem packedRecord_sized_fields {opc : Opcode} (h : allowsSize opc = true) (s : State) (p : Nat)
    (z : Option Size) (o1 : Option RegOperand) (o2 : Option Operand) :
    packedRecord (placeholders s.labels) (sizedRecord opc z o1 o2) =
      [opc.code.setWidth 8 <<< 4 ||| k1Of o1 <<< 3 ||| k2Of o2 <<< 1,
        BitVec.ofNat 8 (sizeNum z) <<< 6 ||| op1RegOf o1 <<< 3 |||
          op2Reg o2 <<< (if o1.isSome then 0 else 3)] ++
        (opPayload s p (2 ^ sizeNum z) o2).1 := by
  have hbits : 0 < headBits (sizedRecord opc z o1 o2) := by rw [headBits_sized h]; omega
  rw [packedRecord_of_tail hbits s p, instrByte_eq_kinds, headByte_sized_fields h,
    op2_shift_sized h, ← sizeOrWord_bytes]
  rfl

/-! ## The statement -/

/-- Settles O34: each of the twelve is the sized record of its opcode, which is never lowered. -/
theorem binaryEmitsSizeOperandsPayload : Obligations.BinaryEmitsSizeOperandsPayload := by
  intro q hq s z o1 o2 hlit p b0 tail bs hready
  obtain ⟨opc, hsize, hcode, hrec⟩ := exists_opcode_of_mem_binaryInstrs hq z o1 o2
  have hret : opc ≠ .ret := by rintro rfl; exact nomatch hsize
  have hbytes : packedRecord (placeholders s.labels) (sizedRecord opc z o1 o2) = bs := by
    rw [packedRecord_sized_fields hsize s (s.olen + 2), hcode]
  exact emits_of_packedRecord hrec hret hlit (headLen_sized hsize z o1 o2) hbytes hready

end Sys2Proof.Machine
end

section
/-! Which errors a command answers with, and the cause of each (spec/60_exceptions.md R200 to R212). -/

namespace Sys2Proof.Machine

/-! ## The errors of the ASSEMBLE pass (R203, R205, R207) -/

/-- The errors of R200 that an operation of the pass raises, whatever the state. -/
def passErrors : List ErrCode := [.undefinedSymbol, .unsupportedEncoding, .capacityExceeded]

/-- An operation of the pass that raises no error but those of the pass. -/
def RaisesPassErrors (f : State → Pass) : Prop :=
  ∀ (s : State) (e : ErrCode), f s = .error (.raise e) → e ∈ passErrors

namespace RaisesPassErrors

theorem pure : RaisesPassErrors .ok := fun _ _ h => by cases h

theorem raise {e : ErrCode} (he : e ∈ passErrors) :
    RaisesPassErrors fun _ => .error (.raise e) := fun _ _ h => by
  cases h
  exact he

theorem bind {f g : State → Pass} (hf : RaisesPassErrors f) (hg : RaisesPassErrors g) :
    RaisesPassErrors fun s => f s >>= g := fun s e h => by
  obtain hs | ⟨u, -, hu⟩ := pass_bind_error h
  · exact hf s e hs
  · exact hg u e hu

theorem ite {p : State → Prop} [DecidablePred p] {f g : State → Pass} (hf : RaisesPassErrors f)
    (hg : RaisesPassErrors g) : RaisesPassErrors fun s => if p s then f s else g s := fun s e h => by
  by_cases hp : p s
  · exact hf s e (by simpa only [if_pos hp] using h)
  · exact hg s e (by simpa only [if_neg hp] using h)

end RaisesPassErrors

theorem emitByte_raisesPassErrors (b : Byte) : RaisesPassErrors (emitByte b) := fun s e h => by
  obtain ⟨-, hx⟩ := emitByte_error h
  cases hx
  decide

theorem emitBytes_raisesPassErrors (bs : List Byte) : RaisesPassErrors (emitBytes bs) := by
  induction bs with
  | nil => exact .pure
  | cons b bs ih => exact (emitByte_raisesPassErrors b).bind ih

theorem put_raisesPassErrors (v w : Nat) : RaisesPassErrors (put v w) := fun s e h => by
  obtain ⟨hx, -⟩ | ⟨hx, -⟩ := put_error h <;> cases hx
  decide

theorem align_raisesPassErrors : RaisesPassErrors align := fun s e h => by
  obtain ⟨hx, -⟩ := align_error h
  cases hx
  decide

theorem putWhen_raisesPassErrors (p : Bool) (v w : Nat) : RaisesPassErrors (putWhen p v w) :=
  .ite (p := fun _ => p = true) (put_raisesPassErrors v w) .pure

theorem alignForReg_raisesPassErrors : RaisesPassErrors alignForReg :=
  .ite align_raisesPassErrors .pure

theorem emitSymbol_raisesPassErrors (n : SymName) : RaisesPassErrors (emitSymbol n) :=
  have placeholder : RaisesPassErrors (emitPlaceholder n) :=
    .ite (.raise (by decide)) fun _ e h => emitBytes_raisesPassErrors [0, 0, 0, 0] _ e h
  .ite placeholder (emitBytes_raisesPassErrors n)

theorem emitLiteral_raisesPassErrors (z : Option Size) (v : Nat) :
    RaisesPassErrors (emitLiteral z v) :=
  .ite (p := fun _ => 2 ^ 64 ≤ v) (.raise (by decide)) (emitBytes_raisesPassErrors _)

theorem emitOp1_raisesPassErrors (e : Record) : RaisesPassErrors (emitOp1 e) := by
  unfold emitOp1
  cases e.op1 with
  | none => exact .pure
  | some o => exact put_raisesPassErrors _ _

theorem emitOp2_raisesPassErrors (e : Record) : RaisesPassErrors (emitOp2 e) := by
  unfold emitOp2
  match e.op2 with
  | none => exact .pure
  | some (.register r) | some (.indirect r) =>
    exact alignForReg_raisesPassErrors.bind (put_raisesPassErrors _ _)
  | some (.symbol n) => exact align_raisesPassErrors.bind (emitSymbol_raisesPassErrors n)
  | some (.literal v) => exact align_raisesPassErrors.bind (emitLiteral_raisesPassErrors _ v)

theorem emitLowered_raisesPassErrors (e : Record) : RaisesPassErrors (emitLowered e) :=
  (((((emitByte_raisesPassErrors _).bind (putWhen_raisesPassErrors _ _ _)).bind
    (putWhen_raisesPassErrors _ _ _)).bind (emitOp1_raisesPassErrors e)).bind
    (emitOp2_raisesPassErrors e)).bind align_raisesPassErrors

theorem emitPass_raisesPassErrors (i : Nat) (rs : List Record) :
    RaisesPassErrors (emitPass i rs) := by
  induction rs generalizing i with
  | nil => exact .pure
  | cons r rs ih =>
    have record : RaisesPassErrors fun s => emitRecord r (recordLabels i s) := fun s e h =>
      emitLowered_raisesPassErrors (lower s.cfg r) (recordLabels i s) e h
    exact record.bind (ih (i + 1))

theorem patch_raisesPassErrors (f : Fixup) : RaisesPassErrors (patch f) := fun s e h => by
  unfold patch memWrite at h
  split at h
  · cases h; decide
  · split at h <;> cases h

theorem fixupPass_raisesPassErrors (fs : List Fixup) : RaisesPassErrors (fixupPass fs) := by
  induction fs with
  | nil => exact .pure
  | cons f fs ih => exact (patch_raisesPassErrors f).bind ih

theorem assemblePass_raisesPassErrors : RaisesPassErrors assemblePass := fun s e h => by
  obtain hemit | ⟨u, -, h⟩ := pass_bind_error h
  · exact emitPass_raisesPassErrors 0 s.instrs s e hemit
  · obtain hfix | ⟨v, -, h⟩ := pass_bind_error h
    · exact fixupPass_raisesPassErrors _ _ e hfix
    · cases h

/-! ## Why a command is refused -/

/-- The causes of R201 to R208 for which a command is refused before it changes anything, each under
the checks that R209 puts before it. -/
inductive RefusalCause (s : State) : Instr → ErrCode → Prop
  | reserved {i : Instr} (hi : i ∈ reservedCommands) : RefusalCause s i .badCommand
  | phase {i : Instr} (hi : buildOnly i = true) (hp : s.phase ≠ .build) :
      RefusalCause s i .invalidState
  | notDone (addr : Word) (hp : s.phase ≠ .done) : RefusalCause s (.readOut addr) .invalidState
  | idle {i : Instr} (hi : (settingField i).isSome) (hb : s.phase = .build)
      (hc : s.curV = false) : RefusalCause s i .invalidState
  | check {i : Instr} {f : Record → Except ErrCode Record} {rs : List Record} {r : Record}
      {e : ErrCode} (hr : Constructing s rs r) (hi : settingCheck s.cfg i = some f)
      (hf : f r = .error e) : RefusalCause s i e
  | duplicate (name : SymName) (hb : s.phase = .build) (hdup : (lookup s.labels name).isSome) :
      RefusalCause s (.addLabel name) .duplicateLabel
  | label (name : SymName) (hb : s.phase = .build) (hnew : lookup s.labels name = none)
      (hfull : s.cfg.nameMax < name.length ∨ s.nl = s.cfg.nLabelMax) :
      RefusalCause s (.addLabel name) .capacityExceeded
  | instr {i : Instr} {r : Record} (hi : appendedRecord i = some r) (hb : s.phase = .build)
      (hfull : s.ni = s.cfg.nInstrMax) : RefusalCause s i .capacityExceeded
  | address (addr : Word) (hd : s.phase = .done) (hout : s.olen ≤ addr.toNat) :
      RefusalCause s (.readOut addr) .badCommand

/-- Every command of R206 that is legal in BUILD alone is refused elsewhere. -/
theorem exec_outside_build {i : Instr} {s : State} (hi : buildOnly i = true)
    (hp : s.phase ≠ .build) : exec i s = .next (s.raise .invalidState) := by
  cases i with
  | addLabel | addInstr | addNop | addRet | assemble => exact if_pos hp
  | setCond | setSize | setOp1 | setOp2 => exact exec_setting_refused (.inl hp) rfl
  | _ => cases hi

theorem exec_reserved {i : Instr} (hi : i ∈ reservedCommands) (s : State) :
    exec i s = .next (s.raise .badCommand) := by
  simp only [reservedCommands, List.mem_cons, List.not_mem_nil, or_false] at hi
  obtain rfl | rfl | rfl | rfl := hi <;> rfl

/-- A command with a cause to be refused is refused with its error (R210, R211). -/
theorem RefusalCause.exec_eq {s : State} {i : Instr} {e : ErrCode} (h : RefusalCause s i e) :
    exec i s = .next (refusedWith s e) := by
  cases h with
  | reserved hi => exact exec_reserved hi s
  | phase hi hp => exact exec_outside_build hi hp
  | notDone addr hp => exact if_pos hp
  | idle hi _ hc =>
    obtain ⟨f, hf⟩ := exists_settingCheck hi s.cfg
    exact exec_setting_refused (.inr hc) hf
  | check hr hi hf => exact hr.exec_setting_error hi hf
  | duplicate name hb hdup => exact (if_neg (not_not.mpr hb)).trans (if_pos hdup)
  | label name hb hnew hfull =>
    show execAddLabel name s = _
    rw [execAddLabel, if_neg (not_not.mpr hb), if_neg (by simp [hnew])]
    by_cases hlen : s.cfg.nameMax < name.length
    · exact if_pos hlen
    · exact (if_neg hlen).trans (if_pos (hfull.resolve_left hlen))
  | instr hi hb hfull =>
    rw [exec_of_appendedRecord hi]
    exact (if_neg (not_not.mpr hb)).trans (if_pos hfull)
  | address addr hd hout => exact (if_neg (not_not.mpr hd)).trans (if_pos hout)

/-! ## Why a command answers with an error -/

/-- How a command that goes from `s` to `t` answers: without an error, with that of a cause to refuse
it, or with one that ended the pass of ASSEMBLE. -/
inductive Answers (s : State) (i : Instr) (t : State) : Prop
  | completes (d : Word) (ht : t.resp = some ⟨.ok, d⟩)
  | refuses {e : ErrCode} (he : RefusalCause s i e) (ht : t = s.raise e)
  | failsPass {e : ErrCode} (hi : i = .assemble) (he : e ∈ passErrors) (ht : t.resp = some ⟨e, 0⟩)

theorem execAddLabel_answers {name : SymName} {s t : State} (h : execAddLabel name s = .next t) :
    Answers s (.addLabel name) t := by
  unfold execAddLabel raised at h
  split at h
  · next hp => cases h; exact .refuses (.phase rfl hp) rfl
  next hp =>
  have hb := not_not.mp hp
  split at h
  · next hdup => cases h; exact .refuses (.duplicate name hb hdup) rfl
  next hnew =>
  have hnew : lookup s.labels name = none := by simpa using hnew
  split at h
  · next hlen => cases h; exact .refuses (.label name hb hnew (.inl hlen)) rfl
  split at h
  · next hfull => cases h; exact .refuses (.label name hb hnew (.inr hfull)) rfl
  cases h
  exact .completes 0 rfl

theorem appendRecord_answers {i : Instr} {r : Record} {s t : State} (hbuild : buildOnly i = true)
    (hi : appendedRecord i = some r) (h : appendRecord r s = .next t) : Answers s i t := by
  obtain ⟨hp, rfl⟩ | ⟨hb, hfull, rfl⟩ | ⟨-, -, rfl⟩ := appendRecord_next h
  · exact .refuses (.phase hbuild hp) rfl
  · exact .refuses (.instr hi hb hfull) rfl
  · exact .completes _ rfl

theorem setCurrent_answers {i : Instr} {f : Record → Except ErrCode Record} {s t : State}
    (hbuild : buildOnly i = true) (hfield : (settingField i).isSome)
    (hi : settingCheck s.cfg i = some f) (h : setCurrent f s = .next t) : Answers s i t := by
  obtain ⟨hidle, rfl⟩ | ⟨rs, r, hb, hc, hrs, ⟨e, he, rfl⟩ | ⟨r', -, rfl⟩⟩ := setCurrent_next h
  · by_cases hb : s.phase = .build
    · exact .refuses (.idle hfield hb (hidle.resolve_left (not_not.mpr hb))) rfl
    · exact .refuses (.phase hbuild hb) rfl
  · exact .refuses (.check ⟨hb, hc, hrs⟩ hi he) rfl
  · exact .completes 0 rfl

theorem execAssemble_answers {s t : State} (h : execAssemble s = .next t) :
    Answers s .assemble t := by
  obtain ⟨hp, rfl⟩ | ⟨-, ⟨u, -, rfl⟩ | ⟨e, he, rfl⟩⟩ := execAssemble_next h
  · exact .refuses (.phase rfl hp) rfl
  · exact .completes 0 rfl
  · exact .failsPass rfl (assemblePass_raisesPassErrors _ e he) rfl

theorem execReadOut_answers {addr : Word} {s t : State} (h : execReadOut addr s = .next t) :
    Answers s (.readOut addr) t := by
  unfold execReadOut raised at h
  split at h
  · next hp => cases h; exact .refuses (.notDone addr hp) rfl
  next hp =>
  split at h
  · next hout => cases h; exact .refuses (.address addr (not_not.mp hp) hout) rfl
  split at h
  · cases h
  · cases h
    exact .completes _ rfl

/-- Every answer of a command has its cause (R200). -/
theorem exec_answers {i : Instr} {s t : State} (hi : i.isCommand = true) (h : exec i s = .next t) :
    Answers s i t := by
  cases i with
  | reset | readReg _ => cases h; exact .completes _ rfl
  | addLabel name => exact execAddLabel_answers h
  | addInstr _ | addNop | addRet =>
    exact appendRecord_answers rfl rfl ((exec_of_appendedRecord rfl s).symm.trans h)
  | setCond _ | setSize _ | setOp1 _ | setOp2 _ =>
    exact setCurrent_answers rfl rfl rfl ((exec_of_settingCheck rfl).symm.trans h)
  | assemble => exact execAssemble_answers h
  | readOut addr => exact execReadOut_answers h
  | reservedC | reservedD | reservedE | reservedF =>
    cases h
    exact .refuses (.reserved (by decide)) rfl
  | _ => cases hi

/-- An outcome with an error code is a next state with that response. -/
theorem errOf_eq_some {o : Host.Outcome State Fault Refusal} {e : ErrCode} (h : errOf o = some e) :
    ∃ t d, o = .next t ∧ t.resp = some ⟨e, d⟩ := by
  match o, h with
  | .next t, h =>
    obtain ⟨⟨_, d⟩, hresp, rfl⟩ := Option.map_eq_some_iff.mp h
    exact ⟨t, d, rfl, hresp⟩

/-- An error that the pass does not raise comes of a cause to refuse the command. -/
theorem refusalCause_of_errOf {i : Instr} {s : State} {e : ErrCode} (hi : i.isCommand = true)
    (hpass : e ∉ ErrCode.ok :: passErrors) (h : errOf (exec i s) = some e) : RefusalCause s i e := by
  obtain ⟨t, d, ht, hresp⟩ := errOf_eq_some h
  cases exec_answers hi ht with
  | completes _ hok =>
    cases hresp.symm.trans hok
    exact absurd List.mem_cons_self hpass
  | refuses he hraise =>
    subst hraise
    cases hresp
    exact he
  | failsPass _ he hfail =>
    cases hresp.symm.trans hfail
    exact absurd (List.mem_cons_of_mem _ he) hpass

theorem RefusalCause.errOf_eq {s : State} {i : Instr} {e : ErrCode} (h : RefusalCause s i e) :
    errOf (exec i s) = some e := by
  rw [h.exec_eq]
  rfl

end Sys2Proof.Machine
end

section
/-! The obligations of the errors (spec/60_exceptions.md R202 to R216): each error's causes, what the
error registers show, what a failed pass leaves, and that every command answers. -/

namespace Sys2Proof.Machine

/-! ## Every command answers (R216) -/

/-- The byte at a listed address can be read. -/
theorem Memory.exists_read {m : Memory} {a : Nat} (h : a ∈ m.map Prod.fst) :
    ∃ b, Memory.read m a = some b := by
  induction m with
  | nil => cases h
  | cons q m ih =>
    obtain ⟨c, v⟩ := q
    by_cases hca : c = a
    · exact ⟨v, if_pos hca⟩
    · obtain ⟨b, hb⟩ := ih ((List.mem_cons.mp h).resolve_left (Ne.symm hca))
      exact ⟨b, (if_neg hca).trans hb⟩

theorem appendRecord_total (r : Record) (s : State) : ∃ t, appendRecord r s = .next t := by
  unfold appendRecord raised
  split_ifs <;> exact ⟨_, rfl⟩

theorem execAddLabel_total (name : SymName) (s : State) : ∃ t, execAddLabel name s = .next t := by
  unfold execAddLabel raised
  split_ifs <;> exact ⟨_, rfl⟩

/-- The record under construction is in the store (R38 (5)). -/
theorem Inv.exec_setting_total {s : State} (hs : Inv s) {i : Instr}
    (hi : (settingField i).isSome) : ∃ t, exec i s = .next t := by
  obtain ⟨f, hf⟩ := exists_settingCheck hi s.cfg
  cases hc : s.curV with
  | false => exact ⟨_, exec_setting_refused (.inr hc) hf⟩
  | true =>
    obtain ⟨hpos, hb⟩ := hs.current hc
    obtain ⟨rs, r, hrs⟩ :=
      (List.eq_nil_or_concat' s.instrs).resolve_left (List.ne_nil_of_length_pos hpos)
    exact ⟨_, Constructing.exec_setting ⟨hb, hc, hrs⟩ hf⟩

/-- The pass meets no fault: a fixup's placeholder is in the buffer and the scratch does not overrun. -/
theorem Inv.execAssemble_total {s : State} (hs : Inv s) : ∃ t, execAssemble s = .next t := by
  by_cases hb : s.phase = .build
  · obtain ⟨m, -, hpass⟩ := hs.clear_curV.assemblePass_outcome hb
    show ∃ t, exec .assemble s = .next t
    rw [exec_assemble_build hb]
    generalize assemblePass { s with curV := false } = p at hpass
    cases hpass <;> exact ⟨_, rfl⟩
  · exact ⟨_, if_pos hb⟩

/-- Below `OLEN` the buffer holds a byte (R29). -/
theorem Inv.execReadOut_total {s : State} (hs : Inv s) (addr : Word) :
    ∃ t, execReadOut addr s = .next t := by
  unfold execReadOut raised
  split_ifs with hp hout
  · exact ⟨_, rfl⟩
  · exact ⟨_, rfl⟩
  · have hmem : addr.toNat ∈ s.out.map Prod.fst := by
      rw [hs.buffer, List.mem_range]
      omega
    obtain ⟨b, hb⟩ := Memory.exists_read hmem
    rw [hb]
    exact ⟨_, rfl⟩

theorem Inv.exec_total {s : State} (hs : Inv s) {i : Instr} (hi : i.isCommand = true) :
    ∃ t, exec i s = .next t := by
  cases i with
  | addLabel name => exact execAddLabel_total name s
  | addInstr _ | addNop | addRet => exact appendRecord_total _ s
  | setCond _ | setSize _ | setOp1 _ | setOp2 _ => exact hs.exec_setting_total rfl
  | assemble => exact hs.execAssemble_total
  | readOut addr => exact hs.execReadOut_total addr
  | reset | readReg _ | reservedC | reservedD | reservedE | reservedF => exact ⟨_, rfl⟩
  | _ => cases hi

/-- Settles O50: the invariant shuts out each fault, and every next state has its answer. -/
theorem everyCommandAnswers : Obligations.EveryCommandAnswers := by
  intro s i hs hi
  obtain ⟨t, ht⟩ := hs.exec_total hi
  cases exec_answers hi ht with
  | completes d hresp => exact ⟨t, _, ht, hresp⟩
  | refuses _ hraise => exact ⟨t, _, ht, congrArg State.resp hraise⟩
  | failsPass _ _ hresp => exact ⟨t, _, ht, hresp⟩

/-! ## The causes of each error -/

/-- Settles O5: of the causes of a refusal one alone gives DuplicateLabel. -/
theorem duplicateLabelHasOneCause : Obligations.DuplicateLabelHasOneCause := by
  refine ⟨fun s n l hb hl hname => ?_, fun i s hi herr => ?_⟩
  · exact (RefusalCause.duplicate n hb (lookup_isSome.mpr ⟨l, hl, hname⟩)).exec_eq
  · cases refusalCause_of_errOf hi (by decide) herr with
    | check _ hcheck hf => obtain h | h := settingCheck_error hcheck hf <;> cases h
    | duplicate name _ hdup => exact ⟨name, rfl, lookup_isSome.mp hdup⟩

/-- Settles O20: the causes of InvalidState are the refusing cells of the table and a `CUR_V` of 0. -/
theorem phaseTableDecidesInvalidState : Obligations.PhaseTableDecidesInvalidState := by
  intro i s hi
  have hcause (herr : errOf (exec i s) = some .invalidState) : RefusalCause s i .invalidState :=
    refusalCause_of_errOf hi (by decide) herr
  refine ⟨⟨fun herr => ?_, ?_⟩, fun herr => (hcause herr).exec_eq,
    fun hres => (RefusalCause.reserved hres).errOf_eq⟩
  · cases hcause herr with
    | phase hbuild hp => exact .inl ⟨hbuild, hp⟩
    | idle hfield hb hc => exact .inr (.inl ⟨hfield, hb, hc⟩)
    | notDone addr hp => exact .inr (.inr ⟨⟨addr, rfl⟩, hp⟩)
    | check _ hcheck hf => obtain h | h := settingCheck_error hcheck hf <;> cases h
  · rintro (⟨hbuild, hp⟩ | ⟨hfield, hb, hc⟩ | ⟨⟨addr, rfl⟩, hp⟩)
    · exact (RefusalCause.phase hbuild hp).errOf_eq
    · exact (RefusalCause.idle hfield hb hc).errOf_eq
    · exact (RefusalCause.notDone addr hp).errOf_eq

/-- A header with a command code above 0xB is a reserved command without a payload (R97, R204). -/
theorem decodeHeader_reserved {h : Word} (hcmd : 0xC ≤ (headerCmd h).toNat) (c : Config)
    (bs : List Beat) : ∃ i ∈ reservedCommands, decodeHeader c h bs = .ok (i, bs) := by
  unfold decodeHeader
  split
  case h_13 | h_14 | h_15 | h_16 => exact ⟨_, by decide, rfl⟩
  all_goals omega

/-- Settles O21: a reserved code, or an address of READ_OUT beyond the output. -/
theorem badCommandHasTwoCauses : Obligations.BadCommandHasTwoCauses := by
  refine ⟨fun s i hi => (RefusalCause.reserved hi).exec_eq,
    fun c h bs hcmd => decodeHeader_reserved hcmd c bs,
    fun s a hd hout => (RefusalCause.address a hd hout).exec_eq, fun i s hi herr => ?_⟩
  cases refusalCause_of_errOf hi (by decide) herr with
  | reserved hres => exact .inl hres
  | address addr hd hout => exact .inr ⟨addr, rfl, hd, hout⟩
  | check _ hcheck hf => obtain h | h := settingCheck_error hcheck hf <;> cases h

/-- The length of a name is the last check of SET_OP2 (R121, R209). -/
theorem setOp2In_nameTooLong {c : Config} {o : Operand} {r : Record}
    (hkind : o.kind ∈ kindsOp2 r.opc) (hunset : r.op2 = none) (hlong : nameTooLong c o = true) :
    setOp2In c o r = .error .capacityExceeded := by
  simp [setOp2In, allowsOp2_of_mem_kindsOp2 hkind, hkind, hunset, hlong]

/-- Settles O18: checks 1 to 4 of R205 are causes of a refusal. -/
theorem builderCapacityRefused : Obligations.BuilderCapacityRefused := by
  intro s hb
  refine ⟨fun n hnew hlen => (RefusalCause.label n hb hnew (.inl hlen)).exec_eq,
    fun n hnew hfull => (RefusalCause.label n hb hnew (.inr hfull)).exec_eq,
    fun hfull i hi => ?_, fun rs r n hc hrs hunset hopc hlen => ?_⟩
  · obtain ⟨r, hr⟩ : ∃ r, appendedRecord i = some r := by
      obtain rfl | rfl | ⟨opc, rfl⟩ := hi <;> exact ⟨_, rfl⟩
    exact (RefusalCause.instr hr hb hfull).exec_eq
  · have hkind : Kind.symbol ∈ kindsOp2 r.opc := by
      rw [mem_kindsOp2_iff]
      simp only [List.mem_cons] at hopc ⊢
      tauto
    have hcheck := setOp2In_nameTooLong (c := s.cfg) (o := .symbol n) hkind hunset
      (decide_eq_true hlen)
    exact (RefusalCause.check ⟨hb, hc, hrs⟩ rfl hcheck).exec_eq

/-! ## What an error leaves -/

theorem PassFrame.firstErr {s t : State} (h : PassFrame s t) : t.firstErr = s.firstErr := by
  rw [h.frame]

/-- The error registers follow the response of every effect but that of READ_REG, and but for RESET the
first error stays (R213). -/
theorem CommandEffect.error_registers {i : Instr} {s t : State} (h : CommandEffect s i t)
    (hreset : i ≠ .reset) (hread : ∀ sel, i ≠ .readReg sel) :
    ∃ r, t.resp = some r ∧ t.lastErr = r.err ∧ (r.err ≠ .ok → r.data = 0) ∧
      t.firstErr = stickyErr s.firstErr r.err := by
  cases h with
  | reset => exact absurd rfl hreset
  | readReg sel => exact absurd rfl (hread sel)
  | refused | passFailed => exact ⟨_, rfl, rfl, fun _ => rfl, rfl⟩
  | addLabel | append | set | readOut =>
    exact ⟨_, rfl, rfl, fun hne => absurd rfl hne, (stickyErr_ok _).symm⟩
  | assembled _ hp =>
    obtain ⟨-, v, -, -, hframe, rfl⟩ := assemblePass_ok hp
    exact ⟨_, rfl, rfl, fun hne => absurd rfl hne, hframe.firstErr.trans (stickyErr_ok _).symm⟩

/-- Settles O24: by the effect of the command, and RESET by its rule. -/
theorem errorRegistersFollowResponse : Obligations.ErrorRegistersFollowResponse := by
  intro i s t hi hread h
  by_cases hreset : i = .reset
  · subst hreset
    cases h
    exact ⟨_, rfl, rfl, fun hne => absurd rfl hne, fun hne => absurd rfl hne, fun _ => rfl⟩
  · obtain ⟨r, hresp, hlast, hdata, hfirst⟩ := (exec_effect hi h).error_registers hreset hread
    exact ⟨r, hresp, hlast, hdata, fun _ => hfirst, fun hr => absurd hr hreset⟩

/-- Settles O44: in BUILD, ASSEMBLE answers without an error or fails the pass. -/
theorem assembleFailureIsAllOrNothing : Obligations.AssembleFailureIsAllOrNothing := by
  intro s t hb h herr
  obtain ⟨hp, -⟩ | ⟨-, ⟨u, -, rfl⟩ | ⟨e, -, rfl⟩⟩ := execAssemble_next h
  · exact absurd hb hp
  · exact absurd rfl herr
  · rfl

end Sys2Proof.Machine
end

section
/-! The obligations of reset (spec/70_reset_and_hazards.md R230 to R232): the state it leaves, and what
the first command after it answers. -/

namespace Sys2Proof.Machine

/-- Settles O1: each field is the one reset writes, and an empty memory holds no byte. -/
theorem resetLeavesEmptyProgram : Obligations.ResetLeavesEmptyProgram := fun _ =>
  ⟨rfl, rfl, rfl, rfl, rfl, rfl, rfl, rfl, rfl, rfl, fun _ => rfl⟩

/-- With no record to emit and no fixup to patch, the pass only resolves the labels (R140, R155). -/
theorem assemblePass_of_empty {s : State} (hinstrs : s.instrs = []) (hfixups : s.fixups = []) :
    assemblePass s = .ok { resolveEndLabels s with phase := .done } := by
  refine assemblePass_of_passes (t := s) ?emit ?fixup
  case emit => rw [hinstrs, emitPass]
  case fixup => rw [resolveEndLabels_fixups, hfixups, fixupPass]

/-- Every status register reads 0 after reset: BUILD and OK have the code 0, and the counts are those
of empty stores (R22, R34, R37, R200). -/
theorem statusReg_resetOf (sel : BitVec 4) (c : Config) : statusReg sel (State.resetOf c) = 0 := by
  unfold statusReg
  split <;> rfl

/-- Settles O3: the pass meets an empty program, DONE is not reached, nothing is under construction,
and every status register is 0. -/
theorem firstCommandAfterReset : Obligations.FirstCommandAfterReset := by
  intro c
  refine ⟨?assemble, fun a => ?readOut, fun i hi => ?setting, fun sel => ?readReg⟩
  case assemble =>
    rw [exec_assemble_build (State.resetOf_phase c), assemblePass_of_empty rfl rfl]
    exact ⟨_, rfl, rfl, rfl, rfl⟩
  case readOut => exact (RefusalCause.notDone a (by simp)).errOf_eq
  case setting => exact (RefusalCause.idle hi rfl rfl).errOf_eq
  case readReg => exact ⟨_, rfl, by rw [statusReg_resetOf]⟩

end Sys2Proof.Machine
end
